-- ==== Sys2Proof/Word.lean ====
section
/-! DEFINITION. The plain word types of the engine: units of IN and OUT, bytes, register words (00_scope.md R8, 20_memory.md R70 and R71). -/

namespace Sys2Proof

/-- One byte, unsigned (00_scope.md R8). -/
abbrev Byte := BitVec 8

/-- One unit of IN or OUT, `CHAR_BITS` = 16 bits wide; a character is one such unit (R6, R8, R70, R71). -/
abbrev CharUnit := BitVec 16

/-- One host-visible register, or one command word (10_state.md R40, 30_encoding.md R100). -/
abbrev RegWord := BitVec 32

/-- The 8-bit options bitset OPT (30_encoding.md R104). -/
abbrev Options := BitVec 8

/-- The 4-bit profile code field PROF, reserved codes included (30_encoding.md R105). -/
abbrev ProfCode := BitVec 4

end Sys2Proof
end

