-- ==== Sys2Proof/Config.lean ====
section
/-! DEFINITION. The configuration of one engine (00_scope.md R6, 10_state.md R48) and the free values, opaque constants without a body. -/

namespace Sys2Proof

/-- The three block codec profiles (00_scope.md R1, R7): the only ones a streaming context can name (10_state.md R30). -/
inductive BlockProfile where
  | p16
  | p64
  | p24
deriving DecidableEq, Repr, Inhabited

/-- The four codec profiles (00_scope.md R1, 30_encoding.md R105). -/
inductive Profile where
  | block (p : BlockProfile)
  | p58
deriving DecidableEq, Repr

/-- `ALPHA[p]`: an ordered symbol table with its lookup convention: case-insensitive or not, and synonyms
(40_alphabet.md R140, R141, R146). The size need not be the radix: R143 checks it at use. -/
structure Alphabet where
  symbols : List CharUnit
  caseInsensitive : Bool
  synonyms : List (CharUnit × Nat)
deriving DecidableEq, Repr

/-- Which function `HASH` is (00_scope.md R6, an OPEN parameter): the default SHA-256, or any other function,
each number naming one uninterpreted function (`Config.otherHash`). Plain data, so that a state can be written out. -/
inductive HashFn where
  | sha256
  | other (n : Nat)
deriving DecidableEq, Repr

/-- The output of a hash function: at least 4 bytes (00_scope.md R6), the first four named. -/
structure Digest where
  b0 : Byte
  b1 : Byte
  b2 : Byte
  b3 : Byte
  rest : List Byte
deriving DecidableEq, Repr, Inhabited

/-- Byte order of a register's bytes on the bus, `BUS_ENDIAN` (20_memory.md R75). -/
inductive Endian where
  | little
  | big
deriving DecidableEq, Repr

/-- The configuration of 10_state.md R48 with the platform parameters of R75 and R77. No command changes it. -/
structure Config where
  /-- `ALPHA[P16]`. -/
  alpha16 : Alphabet
  /-- `ALPHA[P64]`. -/
  alpha64 : Alphabet
  /-- `ALPHA[P24]`. -/
  alpha24 : Alphabet
  /-- `ALPHA[P58]`. -/
  alpha58 : Alphabet
  /-- `PAD[P64]`. -/
  pad64 : CharUnit
  /-- `PAD[P24]`. -/
  pad24 : CharUnit
  /-- `W[P16]`, in symbols. -/
  width16 : Nat
  /-- `W[P64]`. -/
  width64 : Nat
  /-- `W[P24]`. -/
  width24 : Nat
  /-- `NEWLINE`, a non-empty character sequence. -/
  newline : List CharUnit
  /-- `HASH`. -/
  hash : HashFn
  /-- `WS`, the whitespace tolerated by default. -/
  ws : List CharUnit
  /-- `SEP`, the separators tolerated under Relax. -/
  sep : List CharUnit
  /-- `MAX_IN`, the greatest length of IN. -/
  maxIn : Nat
  /-- `BNX_BASE`, where the platform places the register window (R77). -/
  base : Nat
  /-- `BUS_ENDIAN`; no rule depends on it (R75). -/
  busEndian : Endian
deriving DecidableEq, Repr

/-- Free value: the hash function that `HashFn.other n` names. R6 fixes only that it maps a byte sequence to at
least 4 bytes. -/
opaque Config.otherHash : Nat → List Byte → Digest

/-- Free value: what RES holds when a capacity result does not fit its 64 bits. R281 bounds the result only for
`len(NEWLINE) < 2^29` and states no value beyond (93_implementation_defined.md item 19). -/
opaque Config.resOverflow : Nat → BitVec 64

end Sys2Proof
end

