-- ==== Sys2Proof/Syntax.lean ====
section
/-! DEFINITION. The commands of the engine, one constructor per row of spec/opcode_table.json (30_encoding.md R107), and the host's actions (20_memory.md R82). -/

namespace Sys2Proof

/-- One command of the opcode map (30_encoding.md R107). Operands are the fields of its format (R100 to R106):
an FP command holds the options OPT and the profile code PROF, reserved codes included, since PROF is judged when the
command runs (R110 step 3), not when its word is taken apart. -/
inductive Instr where
  /-- NOP, format F0. -/
  | nop
  /-- CTX.ENC, format FP. -/
  | ctxEnc (o : Options) (p : ProfCode)
  /-- CTX.DEC, format FP. -/
  | ctxDec (o : Options) (p : ProfCode)
  /-- ENC.PUT, format FB. -/
  | encPut (b : Byte)
  /-- ENC.EOS, format F0. -/
  | encEos
  /-- DEC.PUT, format FC. -/
  | decPut (c : CharUnit)
  /-- DEC.EOS, format F0. -/
  | decEos
  /-- BLK.ENC, format FP. -/
  | blkEnc (o : Options) (p : ProfCode)
  /-- BLK.DEC, format FP. -/
  | blkDec (o : Options) (p : ProfCode)
  /-- BLK.TRYDEC, format FP. -/
  | blkTryDec (o : Options) (p : ProfCode)
  /-- HEX.FDEC, format F0. -/
  | hexFDec
  /-- HEX.TRYFDEC, format F0. -/
  | hexTryFDec
  /-- POS.ENC, format FP. -/
  | posEnc (o : Options) (p : ProfCode)
  /-- POS.DEC, format FP. -/
  | posDec (o : Options) (p : ProfCode)
  /-- POS.TRYDEC, format FP. -/
  | posTryDec (o : Options) (p : ProfCode)
  /-- CAP.MAXCHAR, format FP. -/
  | capMaxChar (o : Options) (p : ProfCode)
  /-- CAP.MAXBYTE, format FP. -/
  | capMaxByte (o : Options) (p : ProfCode)
  /-- TXT.PAD, format FP. -/
  | txtPad (o : Options) (p : ProfCode)
  /-- TXT.UNPAD, format FP. -/
  | txtUnpad (o : Options) (p : ProfCode)
  /-- SRST, format F0. -/
  | srst
deriving DecidableEq, Repr

/-- One action of the host, the other agent (00_scope.md R5, 20_memory.md R82). A command reaches the engine only
as the data of a bus write to CMD (20_memory.md R80). -/
inductive HostAction where
  /-- Replace IN by a unit sequence (R70, the `LOAD.IN` of R111). -/
  | loadIn (units : List CharUnit)
  /-- Write `data` on the bus at byte address `addr`, `width` bytes wide (10_state.md R40, R44). -/
  | busWrite (addr width : Nat) (data : RegWord)
  /-- Read on the bus at byte address `addr`, `width` bytes wide. -/
  | busRead (addr width : Nat)
  /-- Read the units of OUT (R71, R82). -/
  | readOut
  /-- Discard the last `n` units of OUT (R71, R82). -/
  | discardOut (n : Nat)
deriving DecidableEq, Repr

end Sys2Proof
end

