-- ==== Sys2Proof/WellFormed.lean ====
section
/-! DEFINITION. Which commands an assembler line can name (30_encoding.md R105, R111). Every field of a command is as wide as its place in the word, so a profile code is all there is to check. -/

namespace Sys2Proof

/-- A profile code that names a profile: 0 to 3; 4 to 15 are reserved (30_encoding.md R105). -/
def profCodeNamed (p : ProfCode) : Bool := p.toNat < 4

/-- A command that the assembler syntax of 30_encoding.md R111 can write: an FP command names one of P16, P64, P24
and P58. A command that is not well formed still has a word, decodes and runs (it raises C_BAD_PROFILE, R110). -/
def Instr.wellFormed : Instr → Bool
  | .nop => true
  | .ctxEnc _ p => profCodeNamed p
  | .ctxDec _ p => profCodeNamed p
  | .encPut _ => true
  | .encEos => true
  | .decPut _ => true
  | .decEos => true
  | .blkEnc _ p => profCodeNamed p
  | .blkDec _ p => profCodeNamed p
  | .blkTryDec _ p => profCodeNamed p
  | .hexFDec => true
  | .hexTryFDec => true
  | .posEnc _ p => profCodeNamed p
  | .posDec _ p => profCodeNamed p
  | .posTryDec _ p => profCodeNamed p
  | .capMaxChar _ p => profCodeNamed p
  | .capMaxByte _ p => profCodeNamed p
  | .txtPad _ p => profCodeNamed p
  | .txtUnpad _ p => profCodeNamed p
  | .srst => true

end Sys2Proof
end

