-- ==== Sys2Proof/Decode.lean ====
section
/-! DEFINITION. Taking a 32-bit command word apart, in the order of 30_encoding.md R110 steps 1 and 2, and the encoder of R100 to R107. -/

namespace Sys2Proof

/-- Why a command word is illegal (30_encoding.md R108); both raise C_ILLEGAL_COMMAND. -/
inductive DecodeError where
  /-- OPC is not in the opcode map (R108; R110 step 1). -/
  | reservedOpcode (opc : BitVec 8)
  /-- A field that the command's format requires to be zero is not zero (R108; R110 step 2). -/
  | nonzeroField
deriving DecidableEq, Repr

/-- Field OPC, bits 31..24 (30_encoding.md R100). -/
def opcField (w : RegWord) : BitVec 8 := w.extractLsb' 24 8

/-- Field OPT, bits 23..16 (30_encoding.md R100). -/
def optField (w : RegWord) : Options := w.extractLsb' 16 8

/-- Field OPD, bits 15..0 (30_encoding.md R100). -/
def opdField (w : RegWord) : BitVec 16 := w.extractLsb' 0 16

/-- Format F0: no operand, `OPT = 0` and `OPD = 0` (30_encoding.md R101). -/
def decodeF0 (w : RegWord) (i : Instr) : Except DecodeError Instr :=
  if optField w = 0 ∧ opdField w = 0 then .ok i else .error .nonzeroField

/-- Format FB: a byte operand, `OPT = 0` and `OPD[15:8] = 0` (30_encoding.md R102). -/
def decodeFB (w : RegWord) (k : Byte → Instr) : Except DecodeError Instr :=
  if optField w = 0 ∧ w.extractLsb' 8 8 = 0 then .ok (k (w.extractLsb' 0 8)) else .error .nonzeroField

/-- Format FC: a character operand, `OPT = 0` (30_encoding.md R103). -/
def decodeFC (w : RegWord) (k : CharUnit → Instr) : Except DecodeError Instr :=
  if optField w = 0 then .ok (k (opdField w)) else .error .nonzeroField

/-- Format FP: options and a profile code, `OPD[15:4] = 0` (30_encoding.md R104). -/
def decodeFP (w : RegWord) (k : Options → ProfCode → Instr) : Except DecodeError Instr :=
  if w.extractLsb' 4 12 = 0 then .ok (k (optField w) (w.extractLsb' 0 4)) else .error .nonzeroField

/-- The opcode map (30_encoding.md R107) with the checks of R110 steps 1 and 2, in that order. Total: every word is a
command or is rejected by name. -/
def decode (w : RegWord) : Except DecodeError Instr :=
  match (opcField w).toNat with
  | 0x00 => decodeF0 w .nop
  | 0x01 => decodeFP w .ctxEnc
  | 0x02 => decodeFP w .ctxDec
  | 0x10 => decodeFB w .encPut
  | 0x11 => decodeF0 w .encEos
  | 0x20 => decodeFC w .decPut
  | 0x21 => decodeF0 w .decEos
  | 0x30 => decodeFP w .blkEnc
  | 0x31 => decodeFP w .blkDec
  | 0x32 => decodeFP w .blkTryDec
  | 0x38 => decodeF0 w .hexFDec
  | 0x39 => decodeF0 w .hexTryFDec
  | 0x40 => decodeFP w .posEnc
  | 0x41 => decodeFP w .posDec
  | 0x42 => decodeFP w .posTryDec
  | 0x50 => decodeFP w .capMaxChar
  | 0x51 => decodeFP w .capMaxByte
  | 0x60 => decodeFP w .txtPad
  | 0x61 => decodeFP w .txtUnpad
  | 0xFF => decodeF0 w .srst
  | _ => .error (.reservedOpcode (opcField w))

/-- Format F0: the opcode, every other bit zero (30_encoding.md R101). -/
def encodeF0 (opc : BitVec 8) : RegWord := opc ++ 0#24

/-- Format FB (30_encoding.md R102). -/
def encodeFB (opc : BitVec 8) (b : Byte) : RegWord := opc ++ 0#16 ++ b

/-- Format FC (30_encoding.md R103). -/
def encodeFC (opc : BitVec 8) (c : CharUnit) : RegWord := opc ++ 0#8 ++ c

/-- Format FP (30_encoding.md R104). -/
def encodeFP (opc : BitVec 8) (o : Options) (p : ProfCode) : RegWord := opc ++ o ++ 0#12 ++ p

/-- The word of a command (30_encoding.md R100, R107, R111). -/
def encode : Instr → RegWord
  | .nop => encodeF0 0x00#8
  | .ctxEnc o p => encodeFP 0x01#8 o p
  | .ctxDec o p => encodeFP 0x02#8 o p
  | .encPut b => encodeFB 0x10#8 b
  | .encEos => encodeF0 0x11#8
  | .decPut c => encodeFC 0x20#8 c
  | .decEos => encodeF0 0x21#8
  | .blkEnc o p => encodeFP 0x30#8 o p
  | .blkDec o p => encodeFP 0x31#8 o p
  | .blkTryDec o p => encodeFP 0x32#8 o p
  | .hexFDec => encodeF0 0x38#8
  | .hexTryFDec => encodeF0 0x39#8
  | .posEnc o p => encodeFP 0x40#8 o p
  | .posDec o p => encodeFP 0x41#8 o p
  | .posTryDec o p => encodeFP 0x42#8 o p
  | .capMaxChar o p => encodeFP 0x50#8 o p
  | .capMaxByte o p => encodeFP 0x51#8 o p
  | .txtPad o p => encodeFP 0x60#8 o p
  | .txtUnpad o p => encodeFP 0x61#8 o p
  | .srst => encodeF0 0xFF#8

/-- The word whose bits are the low `nbits` bits of `w`, every bit above them zero. A command is exactly one 32-bit
word (30_encoding.md R109) and arrives whole as the data of a CMD write, so no byte order enters. -/
def tableWord (nbits w : Nat) : RegWord := BitVec.ofNat 32 (w % 2 ^ nbits)

/-- The instruction the decoder reads from the word of `tableWord`, or none where it refuses. -/
def decodeTableWord (nbits w : Nat) : Option Instr :=
  match decode (tableWord nbits w) with
  | .ok i => some i
  | .error _ => none

end Sys2Proof
end

