-- ==== Sys2Proof/Machine/Errors.lean ====
section
/-! DEFINITION. The error classes and codes of 60_exceptions.md R340 and R341. -/

namespace Sys2Proof.Machine

/-- Class 0x1, configuration errors: always raised, never converted to absence (R340). -/
inductive ConfigError where
  /-- C_ALPHABET_SIZE. -/
  | alphabetSize
  /-- C_STREAMING_UNSUPPORTED. -/
  | streamingUnsupported
  /-- C_BAD_PROFILE. -/
  | badProfile
  /-- C_NO_CONTEXT. -/
  | noContext
  /-- C_ILLEGAL_COMMAND. -/
  | illegalCommand
  /-- C_WRONG_DIRECTION. -/
  | wrongDirection
  /-- C_BAD_OPERAND. -/
  | badOperand
deriving DecidableEq, Repr

/-- Class 0x2, format errors: converted to absence by the TRY commands (R340). -/
inductive FormatError where
  /-- E_INVALID_CHAR. -/
  | invalidChar
  /-- E_ODD_LENGTH. -/
  | oddLength
  /-- E_CHECKSUM_MISMATCH. -/
  | checksumMismatch
  /-- E_CHECKSUM_SHORT. -/
  | checksumShort
  /-- E_PAD_POSITION. -/
  | padPosition
  /-- E_PAD_MISSING. -/
  | padMissing
  /-- E_INCOMPLETE. -/
  | incomplete
  /-- E_INSIGNIFICANT. -/
  | insignificant
deriving DecidableEq, Repr

/-- Class 0x3, internal invariant violations (R340, R343). -/
inductive InternalError where
  /-- I_MODULUS_RANGE. -/
  | modulusRange
  /-- I_SYMBOL_RANGE. -/
  | symbolRange
deriving DecidableEq, Repr

/-- An error a command can raise, with its class (R340). -/
inductive Err where
  | config (e : ConfigError)
  | format (e : FormatError)
  | internal (e : InternalError)
deriving DecidableEq, Repr

/-- Result codes of class 0x1 (R341). -/
def configCode : ConfigError → BitVec 8
  | .alphabetSize => 0x11#8
  | .streamingUnsupported => 0x12#8
  | .badProfile => 0x13#8
  | .noContext => 0x14#8
  | .illegalCommand => 0x15#8
  | .wrongDirection => 0x16#8
  | .badOperand => 0x17#8

/-- Result codes of class 0x2 (R341). -/
def formatCode : FormatError → BitVec 8
  | .invalidChar => 0x21#8
  | .oddLength => 0x22#8
  | .checksumMismatch => 0x23#8
  | .checksumShort => 0x24#8
  | .padPosition => 0x25#8
  | .padMissing => 0x26#8
  | .incomplete => 0x27#8
  | .insignificant => 0x28#8

/-- Result codes of class 0x3 (R341). -/
def internalCode : InternalError → BitVec 8
  | .modulusRange => 0x31#8
  | .symbolRange => 0x32#8

/-- The code an error leaves in LASTERR (R341, R345). -/
def errCode : Err → BitVec 8
  | .config e => configCode e
  | .format e => formatCode e
  | .internal e => internalCode e

/-- The result code of a command that completed, or of a TRY command that found a format error (R341). -/
def successCode : BitVec 8 := 0x00#8

end Sys2Proof.Machine
end

