-- ==== Sys2Proof/Machine/Numbers.lean ====
section
/-! DEFINITION. The integer helpers of 00_scope.md R10 and the byte order of 20_memory.md R74: most significant first throughout. -/

namespace Sys2Proof.Machine

/-- `ceil_div(a, b)` (R10). -/
def ceilDiv (a b : Nat) : Nat := (a + b - 1) / b

/-- `bitlen(v)`, the number of bits of v; `bitlen(0) = 0` (R10). -/
def bitlen (v : Nat) : Nat := if v = 0 then 0 else Nat.log2 v + 1

/-- `digits(R, n, v)`, the n base-R digits of v, most significant first (R10). -/
def digits (radix : Nat) : Nat → Nat → List Nat
  | 0, _ => []
  | n + 1, v => digits radix n (v / radix) ++ [v % radix]

/-- The value of a base-R digit sequence, most significant first: multiply-and-add (42_block_decoder.md R203,
43_positional.md R254). -/
def valDigits (radix : Nat) (ds : List Nat) : Nat := ds.foldl (fun n d => n * radix + d) 0

/-- `BE(n, v)`, the n bytes of v, most significant first (R10). -/
def bytesBE (n v : Nat) : List Byte := (digits 256 n v).map (BitVec.ofNat 8)

/-- `valBE(bs)` (R10). -/
def valBE (bs : List Byte) : Nat := valDigits 256 (bs.map BitVec.toNat)

/-- `minBE(v)`, the big-endian bytes of v with no leading zero byte (R10). -/
def minBE (v : Nat) : List Byte := bytesBE (ceilDiv (bitlen v) 8) v

/-- The remainders of repeated division by `radix`, least significant first, until the quotient is 0
(43_positional.md R252); `fuel` bounds the number of divisions. -/
def remainders (radix : Nat) : Nat → Nat → List Nat
  | 0, _ => []
  | fuel + 1, n => if n = 0 then [] else n % radix :: remainders radix fuel (n / radix)

/-- The base-R digits of n with no leading zero, most significant first; none for n = 0 (43_positional.md R252).
`bitlen n` divisions by 2 or more bring n to 0. -/
def numeral (radix n : Nat) : List Nat := (remainders radix (bitlen n) n).reverse

/-- The least number from `c` on that satisfies `p`, looked for over `fuel` candidates. -/
def leastFrom (p : Nat → Bool) : Nat → Nat → Nat
  | 0, c => c
  | fuel + 1, c => if p c then c else leastFrom p fuel (c + 1)

/-- The length of the leading run of z in xs, `zlead(xs, z)` (43_positional.md R251). -/
def zlead {α : Type} [BEq α] (xs : List α) (z : α) : Nat := (xs.takeWhile (· == z)).length

end Sys2Proof.Machine
end

