-- ==== Sys2Proof/Machine/Operands.lean ====
section
/-! DEFINITION. The operand forms: option flags (30_encoding.md R104), profile codes and which profiles a command serves (R105, R110 step 3), block geometry (00_scope.md R7), bytes and units (20_memory.md R70, R71). -/

namespace Sys2Proof.Machine

/-- The option flags, in the order of the bits of OPT (30_encoding.md R104). -/
inductive Flag where
  | padding
  | unpad
  | relax
  | pure
  | wrap
  | indent
  | checksum
  | compress
deriving DecidableEq, Repr

/-- The bit of OPT that holds a flag (R104). -/
def flagBit : Flag → Nat
  | .padding => 0
  | .unpad => 1
  | .relax => 2
  | .pure => 3
  | .wrap => 4
  | .indent => 5
  | .checksum => 6
  | .compress => 7

/-- `has(o, F)`: flag F is set in o (R104). -/
def has (o : Options) (f : Flag) : Bool := o.getLsbD (flagBit f)

/-- The options value with exactly the flags of a list set (R104, R111). -/
def optionsOf (fs : List Flag) : Options := fs.foldl (fun o f => o ||| (1#8 <<< flagBit f)) 0#8

/-- The profile code of a block profile (30_encoding.md R105). -/
def blockCode : BlockProfile → ProfCode
  | .p16 => 0#4
  | .p64 => 1#4
  | .p24 => 2#4

/-- The profile code of a profile (R105). -/
def profileCode : Profile → ProfCode
  | .block p => blockCode p
  | .p58 => 3#4

/-- The profile a code names; codes 4 to 15 are reserved (R105). -/
def profileOf (c : ProfCode) : Option Profile :=
  match c.toNat with
  | 0 => some (.block .p16)
  | 1 => some (.block .p64)
  | 2 => some (.block .p24)
  | 3 => some .p58
  | _ => none

/-- CTX.* serve profiles 0 to 2; P58 raises C_STREAMING_UNSUPPORTED, a reserved code C_BAD_PROFILE (R110 step 3). -/
def servedStreaming (c : ProfCode) : Except ConfigError BlockProfile :=
  match profileOf c with
  | some (.block p) => .ok p
  | some .p58 => .error .streamingUnsupported
  | none => .error .badProfile

/-- BLK.* serve profiles 0 to 2 (R110 step 3). -/
def servedBlock (c : ProfCode) : Except ConfigError BlockProfile :=
  match profileOf c with
  | some (.block p) => .ok p
  | some .p58 => .error .badProfile
  | none => .error .badProfile

/-- POS.* serve profile 3 alone (R110 step 3). -/
def servedPositional (c : ProfCode) : Except ConfigError Unit :=
  match profileOf c with
  | some (.block _) => .error .badProfile
  | some .p58 => .ok ()
  | none => .error .badProfile

/-- CAP.* and TXT.* serve all four profiles (R110 step 3). -/
def servedAny (c : ProfCode) : Except ConfigError Profile :=
  match profileOf c with
  | some p => .ok p
  | none => .error .badProfile

/-- `S`, symbols per encoded block (R7). -/
def symbolsPerBlock : BlockProfile → Nat
  | .p16 => 2
  | .p64 => 4
  | .p24 => 7

/-- `B`, bytes per decoded block (R7). -/
def bytesPerBlock : BlockProfile → Nat
  | .p16 => 1
  | .p64 => 3
  | .p24 => 4

/-- `R`, the radix of a block codec (R7). -/
def blockRadix : BlockProfile → Nat
  | .p16 => 16
  | .p64 => 64
  | .p24 => 24

/-- `RADIX[p]` (40_alphabet.md R143); `POS_RADIX` = 58 (00_scope.md R6). -/
def radixOf : Profile → Nat
  | .block p => blockRadix p
  | .p58 => 58

/-- Bytes in OUT: each in bits 7..0 of one unit, bits 15..8 zero (20_memory.md R71). -/
def bytesToUnits (bs : List Byte) : List CharUnit := bs.map (BitVec.setWidth 16)

/-- IN read as bytes: C_BAD_OPERAND when a unit is above 0x00FF (20_memory.md R70). -/
def unitsToBytes (us : List CharUnit) : Except Err (List Byte) :=
  if us.any (fun u => 0xFF < u.toNat) then .error (.config .badOperand) else .ok (us.map (BitVec.setWidth 8))

end Sys2Proof.Machine
end

