-- ==== Sys2Proof/Machine/Alphabet.lean ====
section
/-! DEFINITION. Alphabet lookup, character classes and the contract of a configuration (40_alphabet.md). -/

namespace Sys2Proof.Machine

/-- `ALPHA[p]` (10_state.md R48). -/
def alphabetOf (cfg : Config) : Profile → Alphabet
  | .block .p16 => cfg.alpha16
  | .block .p64 => cfg.alpha64
  | .block .p24 => cfg.alpha24
  | .p58 => cfg.alpha58

/-- `PAD[p]`; P16 and P58 have no padding character (00_scope.md R6, R7). -/
def padOf (cfg : Config) : Profile → Option CharUnit
  | .block .p16 => none
  | .block .p64 => some cfg.pad64
  | .block .p24 => some cfg.pad24
  | .p58 => none

/-- `W[p]` (00_scope.md R6). -/
def lineWidth (cfg : Config) : BlockProfile → Nat
  | .p16 => cfg.width16
  | .p64 => cfg.width64
  | .p24 => cfg.width24

/-- The upper-case form of an ASCII letter; every other code unit is its own (DESIGN CHOICE, notes/assumptions/6.md). -/
def asciiUpper (c : CharUnit) : CharUnit := if 0x61 ≤ c.toNat ∧ c.toNat ≤ 0x7A then c - 0x20#16 else c

/-- Comparison of two characters as an alphabet is configured, case-sensitive or not (R141). -/
def sameChar (a : Alphabet) (x y : CharUnit) : Bool :=
  x == y || (a.caseInsensitive && asciiUpper x == asciiUpper y)

/-- `SymbolAt(p, v)`, defined for `v < RADIX[p]`; none is the out-of-range call of R140. -/
def symbolAt (cfg : Config) (p : Profile) (v : Nat) : Option CharUnit :=
  if v < radixOf p then (alphabetOf cfg p).symbols[v]? else none

/-- The symbols of a digit sequence, or I_SYMBOL_RANGE where one is out of range (R140, 60_exceptions.md R343). -/
def symbolsAt (cfg : Config) (p : Profile) (ds : List Nat) : Except Err (List CharUnit) :=
  match ds.mapM (symbolAt cfg p) with
  | some cs => .ok cs
  | none => .error (.internal .symbolRange)

/-- What the table of p holds for a character, as it is configured: the place of the first symbol it equals, else the
value of the first synonym it equals, else nothing (R141). That symbols come first is DEDUCED (notes/assumptions/6.md);
that the first of several entries for one character counts is a DESIGN CHOICE (notes/assumptions/16.md). -/
def tableEntry (cfg : Config) (p : Profile) (c : CharUnit) : Option Nat :=
  let a := alphabetOf cfg p
  match a.symbols.findIdx? (fun x => sameChar a x c) with
  | some v => some v
  | none => (a.synonyms.find? (fun (e : CharUnit × Nat) => sameChar a e.1 c)).map Prod.snd

/-- `IndexOf(p, c)`: the table's value for c, below the radix, or NotFound (R141). R141 gives no meaning to an entry
whose value is not below the radix; the model answers NotFound for it (DESIGN CHOICE, notes/assumptions/16.md). -/
def indexOf (cfg : Config) (p : Profile) (c : CharUnit) : Option Nat :=
  (tableEntry cfg p c).filter (fun v => v < radixOf p)

/-- The size invariant `size(ALPHA[p]) = RADIX[p]` (R143). -/
def sizeOk (cfg : Config) (p : Profile) : Bool := (alphabetOf cfg p).symbols.length == radixOf p

/-- `skip(o, c)` (R144). -/
def skippable (cfg : Config) (o : Options) (c : CharUnit) : Bool :=
  ((has o .wrap || has o .indent) && (cfg.newline.contains c || c == 0x20#16))
  || (!has o .pure && cfg.ws.contains c)
  || (!has o .pure && has o .relax && cfg.sep.contains c)

/-- The class of an input character (R145). -/
inductive CharClass where
  | pad
  | sym (v : Nat)
  | skip
  | invalid
deriving DecidableEq, Repr

/-- `class(p, o, c)`: padding first, then symbols, then skippable characters (R145). -/
def classOf (cfg : Config) (p : Profile) (o : Options) (c : CharUnit) : CharClass :=
  if padOf cfg p = some c then .pad
  else
    match indexOf cfg p c with
    | some v => .sym v
    | none => if skippable cfg o c then .skip else .invalid

/-- Item 2 of R142 for the values the table gives a symbol: looking a symbol up gives its value. It makes the symbols
distinct (item 1). A table of the wrong size is in scope (R143), so the size is not asked here. -/
def lookupInverse (cfg : Config) (p : Profile) : Bool :=
  (List.range (min (radixOf p) (alphabetOf cfg p).symbols.length)).all
    (fun v => (symbolAt cfg p v).bind (indexOf cfg p) == some v)

/-- Item 3 of R142: the padding character, where there is one, is no symbol and no synonym, whatever the value of the
entry: a symbol beyond the radix, in a table of the wrong size, is a symbol too. -/
def padNoSymbol (cfg : Config) (p : Profile) : Bool :=
  match padOf cfg p with
  | some c => (tableEntry cfg p c).isNone
  | none => true

/-- All four profiles. -/
def allProfiles : List Profile := [.block .p16, .block .p64, .block .p24, .p58]

/-- A configuration inside the spec: R142 items 2 and 3 for every alphabet, `W[p]` positive and `NEWLINE` non-empty
(00_scope.md R6), a register window placed so that its registers are naturally aligned (10_state.md R44). -/
def configOk (cfg : Config) : Bool :=
  allProfiles.all (fun p => lookupInverse cfg p && padNoSymbol cfg p)
  && (0 < cfg.width16 && 0 < cfg.width64 && 0 < cfg.width24)
  && !cfg.newline.isEmpty
  && cfg.base % 4 == 0

end Sys2Proof.Machine
end

