-- ==== Sys2Proof/Machine/Defaults.lean ====
section
/-! DEFINITION. The default configuration: the tables of 40_alphabet.md R146, the values of 00_scope.md R6, and the model's choice for each OPEN parameter (notes/assumptions/2.md). -/

namespace Sys2Proof.Machine

/-- A text as its sequence of character units (00_scope.md R9). -/
def textUnits (t : String) : List CharUnit := t.toList.map (fun c => BitVec.ofNat 16 c.toNat)

/-- Default `ALPHA[P16]` (R146). -/
def defaultAlpha16 : Alphabet := ⟨textUnits "0123456789ABCDEF", true, []⟩

/-- Default `ALPHA[P64]`, RFC 4648 base64 (R146). -/
def defaultAlpha64 : Alphabet :=
  ⟨textUnits "ABCDEFGHIJKLMNOPQRSTUVWXYZabcdefghijklmnopqrstuvwxyz0123456789+/", false, []⟩

/-- Default `ALPHA[P24]`, Kuon Base24 (R146). -/
def defaultAlpha24 : Alphabet := ⟨textUnits "ZAC2B3EF4GH5TK67P8RS9WXY", true, []⟩

/-- Default `ALPHA[P58]`, Bitcoin base58 (R146, R147). -/
def defaultAlpha58 : Alphabet :=
  ⟨textUnits "123456789ABCDEFGHJKLMNPQRSTUVWXYZabcdefghijkmnopqrstuvwxyz", false, []⟩

/-- The configuration of the machine right after power-on: R146's tables, '=' as padding, WS, SEP and SHA-256 as R6
gives them; `W`, `NEWLINE`, `MAX_IN`, `BNX_BASE` and `BUS_ENDIAN` are OPEN and their values here the model's
(DESIGN CHOICE, notes/assumptions/2.md). -/
def defaultConfig : Config where
  alpha16 := defaultAlpha16
  alpha64 := defaultAlpha64
  alpha24 := defaultAlpha24
  alpha58 := defaultAlpha58
  pad64 := 0x3D#16
  pad24 := 0x3D#16
  width16 := 76
  width64 := 76
  width24 := 76
  newline := [0x0A#16]
  hash := .sha256
  ws := [0x09#16, 0x0A#16, 0x0D#16, 0x20#16]
  sep := [0x2D#16]
  maxIn := 65536
  base := 0
  busEndian := .little

end Sys2Proof.Machine
end

