-- ==== Sys2Proof/Machine/State.lean ====
section
/-! DEFINITION. The state of the machine (10_state.md, 20_memory.md), the reasons a step can stop, and the machine after reset. -/

namespace Sys2Proof.Machine

/-- `ctx.DIR`: encoder 0, decoder 1 (10_state.md R30). -/
inductive Direction where
  | encoder
  | decoder
deriving DecidableEq, Repr, Inhabited

/-- The streaming context (10_state.md R30). -/
structure Context where
  /-- `ctx.VALID`: a context exists. -/
  valid : Bool
  /-- `ctx.DIR`. -/
  dir : Direction
  /-- `ctx.PROF`: never P58. -/
  prof : BlockProfile
  /-- `ctx.OPTS`, latched at creation. -/
  opts : Options
  /-- `ctx.ACC`, an unsigned integer; its range is an invariant (R31). -/
  acc : Nat
  /-- `ctx.MOD`; its range is an invariant (R32). -/
  mod : Nat
  /-- `ctx.PADRUN` (R33). -/
  padRun : Nat
  /-- `ctx.LINEPOS` (R34). -/
  linePos : Nat
  /-- `ctx.EOSF` (R35). -/
  eosf : Bool
  /-- `ctx.FAULT`: none, or the format error that ended the operation (R36). -/
  fault : Option FormatError
deriving DecidableEq, Repr, Inhabited

end Sys2Proof.Machine

namespace Sys2Proof

/-- Free value: the context fields that the k-th SRST leaves unspecified (10_state.md R50, 46_control.md R321).
Its `valid` is never used: SRST writes `ctx.VALID` itself. -/
opaque Config.unspecifiedContext : Nat → Machine.Context

end Sys2Proof

namespace Sys2Proof.Machine

/-- Why a step stops with a fault. -/
inductive Fault where
  /-- Raised by a bus access of the host outside the 64-byte register window: BNX has nothing there (20_memory.md
  R77). Safe: the machine stops where a platform would address something that is not this block. -/
  | outsideWindow
deriving DecidableEq, Repr

/-- Why a step is refused: what the spec says has no step in a model (93_implementation_defined.md, treatment
`refuse`). -/
inductive Refusal where
  /-- An instruction whose meaning is not written yet; raised by exec's arm. Safe. -/
  | notModelled (mnemonic : String)
  /-- Raised by step: the configuration breaks 40_alphabet.md R142 item 2 or 3, or 00_scope.md R6 (item 15 of
  93_implementation_defined.md). Safe. -/
  | illFormedConfig
  /-- Raised by step: a narrow, wide or misaligned access to the register window (10_state.md R44). Safe. -/
  | badAccess
  /-- Raised by step: the host loads more than `MAX_IN` units (20_memory.md R70). Safe. -/
  | inputTooLong
  /-- Raised by step: the host discards more units than OUT holds, which is no suffix (20_memory.md R71). Safe. -/
  | noSuchSuffix
deriving DecidableEq, Repr

/-- The whole machine: the engine's state, the configuration it runs under, and the host's remaining actions. -/
structure State where
  /-- The configuration (R48). The spec makes it a parameter of the step relation; it stands here so that step takes
  it, and no step changes it (notes/assumptions/1.md). -/
  cfg : Config
  /-- The streaming context (R30). -/
  ctx : Context
  /-- ARG (R42). -/
  arg : RegWord
  /-- `STATUS.ABSENT`; the other fields of STATUS follow the context (R43). -/
  absent : Bool
  /-- `LASTERR[7:0]` (R45). -/
  lastErr : BitVec 8
  /-- `RES = RESHI:RESLO` (R46). -/
  res : BitVec 64
  /-- IN (20_memory.md R70). -/
  inp : List CharUnit
  /-- OUT (20_memory.md R71). -/
  out : List CharUnit
  /-- The model's "pc": the index of the next command in the host's command list (R39, R78). -/
  pc : Nat
  /-- MODEL's own: the host's remaining actions, the next one first (R5, R82). -/
  host : List HostAction
  /-- MODEL's own: the value the last register read returned to the host. -/
  busData : RegWord
  /-- MODEL's own: the units the last read of OUT returned to the host. -/
  outView : List CharUnit
  /-- MODEL's own: how many unspecified contexts have been drawn; it selects the next free value. -/
  freeCount : Nat
deriving DecidableEq, Repr

/-- The context fields of the machine at power-on. `ctx.VALID` is 0 (R50); the spec leaves the others unspecified and
unread, and they are zero here (DESIGN CHOICE, notes/assumptions/3.md). -/
def resetContext : Context where
  valid := false
  dir := .encoder
  prof := .p16
  opts := 0
  acc := 0
  mod := 0
  padRun := 0
  linePos := 0
  eosf := false
  fault := none

/-- Power-on reset under a configuration (10_state.md R50, 70_reset_and_hazards.md R380), no host action pending. -/
def State.powerOn (cfg : Config) : State where
  cfg := cfg
  ctx := resetContext
  arg := 0
  absent := false
  lastErr := 0
  res := 0
  inp := []
  out := []
  pc := 0
  host := []
  busData := 0
  outView := []
  freeCount := 0

/-- The machine right after power-on reset, under the default configuration. -/
def State.reset : State := State.powerOn defaultConfig

end Sys2Proof.Machine
end

