-- ==== Sys2Proof/Machine/Flags.lean ====
section
/-! DEFINITION. The flags the engine computes: the context state and STATUS, and the other registers as the host reads them (10_state.md R37 to R47). -/

namespace Sys2Proof.Machine

/-- The states of R37. -/
inductive CtxState where
  | none
  | idle
  | accumulating
  | flushed
  | faulted
deriving DecidableEq, Repr

/-- `state(ctx)` (R37). -/
def ctxState (t : Context) : CtxState :=
  if !t.valid then .none
  else if t.fault.isSome then .faulted
  else if t.eosf then .flushed
  else if 0 < t.mod ∨ 0 < t.padRun then .accumulating
  else .idle

/-- The encoding of the state in `STATUS.STATE` (R37). -/
def stateCode : CtxState → BitVec 3
  | .none => 0#3
  | .idle => 1#3
  | .accumulating => 2#3
  | .flushed => 3#3
  | .faulted => 4#3

/-- `ctx.DIR` as a bit (R30). -/
def dirBit : Direction → BitVec 1
  | .encoder => 0#1
  | .decoder => 1#1

/-- STATUS: reserved [31:17], ABSENT [16], OPTS [15:8], PROF [7:4], DIR [3], STATE [2:0]; DIR, PROF and OPTS read 0
when there is no context (R43). -/
def statusWord (s : State) : RegWord :=
  let t := s.ctx
  let shown := t.valid
  0#15 ++ BitVec.ofBool s.absent ++ (if shown then t.opts else 0#8) ++ (if shown then blockCode t.prof else 0#4)
    ++ (if shown then dirBit t.dir else 0#1) ++ stateCode (ctxState t)

/-- LASTERR: the code in bits 7..0, bits 31..8 zero (R45). -/
def lastErrWord (s : State) : RegWord := s.lastErr.setWidth 32

/-- RESLO, result bits 31..0 (R46). -/
def resLo (s : State) : RegWord := s.res.extractLsb' 0 32

/-- RESHI, result bits 63..32 (R46). -/
def resHi (s : State) : RegWord := s.res.extractLsb' 32 32

/-- The constant ID reads (R47). -/
def idWord : RegWord := 0x424E5801#32

end Sys2Proof.Machine
end

