-- ==== Sys2Proof/Machine/Ops.lean ====
section
/-! DEFINITION. The named operations over the state: updates, register access on the bus, the command cycle, and raising an error, the one shared operation of 60_exceptions.md R345. -/

namespace Sys2Proof.Machine

/-- Write the streaming context. -/
def State.setCtx (s : State) (t : Context) : State := { s with ctx := t }

/-- Write ARG. -/
def State.setArg (s : State) (v : RegWord) : State := { s with arg := v }

/-- Write `STATUS.ABSENT`. -/
def State.setAbsent (s : State) (b : Bool) : State := { s with absent := b }

/-- Write LASTERR. -/
def State.setLastErr (s : State) (c : BitVec 8) : State := { s with lastErr := c }

/-- Write RES. -/
def State.setRes (s : State) (v : BitVec 64) : State := { s with res := v }

/-- Replace IN, the host's doing alone (20_memory.md R70). -/
def State.setIn (s : State) (us : List CharUnit) : State := { s with inp := us }

/-- Append units to OUT: the engine's one way to write it (20_memory.md R71). -/
def State.appendOut (s : State) (us : List CharUnit) : State := { s with out := s.out ++ us }

/-- Drop the last n units of OUT, the host's doing alone (20_memory.md R71). -/
def State.dropOut (s : State) (n : Nat) : State := { s with out := s.out.take (s.out.length - n) }

/-- Take the first of the host's remaining actions away. -/
def State.popHost (s : State) : State := { s with host := s.host.tail }

/-- Count one command issued (R39, R78). -/
def State.bumpPc (s : State) : State := { s with pc := s.pc + 1 }

/-- What a register read returned to the host. -/
def State.setBusData (s : State) (v : RegWord) : State := { s with busData := v }

/-- What a read of OUT returned to the host. -/
def State.setOutView (s : State) (us : List CharUnit) : State := { s with outView := us }

/-- Discard the context: VALID 0, every other field a fresh free value (46_control.md R321, 10_state.md R50). -/
def State.discardCtx (s : State) : State :=
  { s with ctx := { Config.unspecifiedContext s.freeCount with valid := false }, freeCount := s.freeCount + 1 }

/-- How the body of a command ends (46_control.md R322). A raise carries the state its body left: after a format error
whatever the body wrote before its failing check (60_exceptions.md R345). -/
inductive BodyResult where
  | success (s : State)
  | absence (s : State)
  | raise (e : Err) (s : State)
deriving DecidableEq, Repr

/-- `Fail(E)`: LASTERR takes the code, nothing else changes (46_control.md R322, 60_exceptions.md R345). There is no
vector, no saved state and so no return from an error: the next command runs normally (R347). -/
def State.fail (e : Err) (s : State) : State := s.setLastErr (errCode e)

/-- What the command cycle does after the body (46_control.md R322). -/
def finish : BodyResult → State
  | .success s => s.setLastErr successCode
  | .absence s => (s.setLastErr successCode).setAbsent true
  | .raise e s => s.fail e

/-- The command cycle around a body: ABSENT is cleared, the body runs, its result is reported (46_control.md R322). -/
def runCommand (s : State) (body : State → BodyResult) : State := finish (body (s.setAbsent false))

/-- The checks of 30_encoding.md R110 steps 3 and 4 before the body of an FP command: the profile is served, its
alphabet has the radix's size (40_alphabet.md R143). -/
def withProfile {α : Type} (served : Except ConfigError α) (toProfile : α → Profile) (s : State) (body : α → BodyResult) :
    BodyResult :=
  match served with
  | .error e => .raise (.config e) s
  | .ok a => if sizeOk s.cfg (toProfile a) then body a else .raise (.config .alphabetSize) s

/-- The checks before the body of a PUT or EOS, in the order of 60_exceptions.md R344 item 2; on a closed stream the
command is a silent no-op (10_state.md R35). -/
def withContext (d : Direction) (s : State) (body : State → BodyResult) : BodyResult :=
  if !s.ctx.valid then .raise (.config .noContext) s
  else if s.ctx.dir ≠ d then .raise (.config .wrongDirection) s
  else
    match s.ctx.fault with
    | some e => .raise (.format e) s
    | none => if s.ctx.eosf then .success s else body s

/-- The end of a whole-buffer command: the private buffer is appended to OUT only on success (20_memory.md R72). -/
def commit (s : State) : Except Err (List CharUnit) → BodyResult
  | .ok us => .success (s.appendOut us)
  | .error e => .raise e s

/-- The same for a TRY command: a format error becomes absence, any other error is raised (60_exceptions.md R340). -/
def commitTry (s : State) : Except Err (List CharUnit) → BodyResult
  | .ok us => .success (s.appendOut us)
  | .error (.format _) => .absence s
  | .error (.config e) => .raise (.config e) s
  | .error (.internal e) => .raise (.internal e) s

/-- A new context: every field written, the counters 0 (10_state.md R51, 41_block_encoder.md R160, 42_block_decoder.md
R200). -/
def freshContext (d : Direction) (p : BlockProfile) (o : Options) : Context where
  valid := true
  dir := d
  prof := p
  opts := o
  acc := 0
  mod := 0
  padRun := 0
  linePos := 0
  eosf := false
  fault := none

/-- Bytes the register window takes on the bus (20_memory.md R77). -/
def windowSize : Nat := 64

/-- Where a bus access falls: outside the window, in it but not one aligned 32-bit word, or a register's offset
(10_state.md R40, R44). -/
inductive BusTarget where
  | outside
  | illegal
  | register (offset : Nat)
deriving DecidableEq, Repr

/-- The target of an access of `width` bytes at `addr`. Any access that touches a byte of the window is an access to
the window. -/
def busTarget (cfg : Config) (addr width : Nat) : BusTarget :=
  if addr + width ≤ cfg.base ∨ cfg.base + windowSize ≤ addr then .outside
  else if width = 4 ∧ cfg.base ≤ addr ∧ (addr - cfg.base) % 4 = 0 then .register (addr - cfg.base)
  else .illegal

/-- Offset of CMD (R40). -/
def cmdOffset : Nat := 0x00

/-- Offset of ARG (R40). -/
def argOffset : Nat := 0x04

/-- What a read of the register at an offset returns; reads have no side effect, CMD and the reserved offsets read 0
(R40, R41, R44). -/
def readRegister (s : State) (offset : Nat) : RegWord :=
  match offset with
  | 0x04 => s.arg
  | 0x08 => statusWord s
  | 0x0C => lastErrWord s
  | 0x10 => resLo s
  | 0x14 => resHi s
  | 0x18 => idWord
  | _ => 0#32

/-- A write to a register other than CMD: ARG takes the value, every other write is ignored (R40, R42, R43, R47). -/
def writeRegister (s : State) (offset : Nat) (v : RegWord) : State :=
  if offset = argOffset then s.setArg v else s

end Sys2Proof.Machine
end

