-- ==== Sys2Proof/Machine/BlockEncoder.lean ====
section
/-! DEFINITION. The block encoder of 41_block_encoder.md: CTX.ENC, ENC.PUT, ENC.EOS and BLK.ENC. -/

namespace Sys2Proof.Machine

/-- `wrapEff(p, o)` (R161). -/
def wrapEff (p : BlockProfile) (o : Options) : Bool := has o .wrap || (p == .p24 && has o .indent)

/-- `sepEff(p, o)` (R161). -/
def sepEff (p : BlockProfile) (o : Options) : Bool := has o .indent && p != .p24

/-- `nsym(p, r)`, the data symbols of a partial final block of r bytes (R161). P16 has no partial block; its value is
never used. -/
def nsym (p : BlockProfile) (r : Nat) : Nat :=
  match p with
  | .p16 => ceilDiv (8 * r) 4
  | .p64 => ceilDiv (8 * r) 6
  | .p24 => leastFrom (fun s => 256 ^ r ≤ 24 ^ s) (2 * r) 0

/-- `EmitGroup(g)`: the units it emits and the new line position (R167). -/
def emitGroup (cfg : Config) (p : BlockProfile) (o : Options) (linePos : Nat) (g : List CharUnit) : List CharUnit × Nat :=
  let sepr := if sepEff p o && decide (0 < linePos) then [0x20#16] else []
  let pos := min (linePos + g.length) (lineWidth cfg p)
  if wrapEff p o && decide (lineWidth cfg p ≤ pos) then (sepr ++ g ++ cfg.newline, 0) else (sepr ++ g, pos)

/-- The value whose n digits spell a partial block of r bytes (R166): P64 places the bytes at the top of the n 6-bit
groups, P24 takes them as one integer. P16 has no partial block. -/
def partialDigitsValue (p : BlockProfile) (n r acc : Nat) : Nat :=
  match p with
  | .p24 => acc
  | .p16 => acc * 2 ^ (4 * n - 8 * r)
  | .p64 => acc * 2 ^ (6 * n - 8 * r)

/-- The group of the partial final block of r bytes held in acc (R166): data symbols, then padding unless Unpad. -/
def partialGroup (cfg : Config) (p : BlockProfile) (o : Options) (r acc : Nat) : Except Err (List CharUnit) :=
  let n := nsym p r
  match symbolsAt cfg (.block p) (digits (blockRadix p) n (partialDigitsValue p n r acc)) with
  | .error e => .error e
  | .ok g =>
    match has o .unpad, padOf cfg (.block p) with
    | false, some c => .ok (g ++ List.replicate (symbolsPerBlock p - n) c)
    | _, _ => .ok g

/-- The body of ENC.PUT from "ctx.ACC <- ..." on: the new context and the units emitted (R162, R163). -/
def encPutBody (cfg : Config) (t : Context) (b : Byte) : Except Err (Context × List CharUnit) :=
  let acc := t.acc * 256 + b.toNat
  let mod := t.mod + 1
  if mod = bytesPerBlock t.prof then
    match symbolsAt cfg (.block t.prof) (digits (blockRadix t.prof) (symbolsPerBlock t.prof) acc) with
    | .error e => .error e
    | .ok g =>
      let (us, pos) := emitGroup cfg t.prof t.opts t.linePos g
      .ok ({ t with acc := 0, mod := 0, linePos := pos }, us)
  else .ok ({ t with acc := acc, mod := mod }, [])

/-- The body of ENC.EOS from "r <- ctx.MOD" on (R165). -/
def encEosBody (cfg : Config) (t : Context) : Except Err (Context × List CharUnit) :=
  if bytesPerBlock t.prof ≤ t.mod then .error (.internal .modulusRange)
  else if 0 < t.mod then
    match partialGroup cfg t.prof t.opts t.mod t.acc with
    | .error e => .error e
    | .ok g =>
      let (us, pos) := emitGroup cfg t.prof t.opts t.linePos g
      .ok ({ t with acc := 0, mod := 0, linePos := pos, eosf := true }, us)
  else .ok ({ t with acc := 0, mod := 0, eosf := true }, [])

/-- Feed a byte sequence to an encoder context, collecting what it emits. -/
def encFeed (cfg : Config) : Context → List Byte → Except Err (Context × List CharUnit)
  | t, [] => .ok (t, [])
  | t, b :: bs =>
    match encPutBody cfg t b with
    | .error e => .error e
    | .ok (t1, us) =>
      match encFeed cfg t1 bs with
      | .error e => .error e
      | .ok (t2, vs) => .ok (t2, us ++ vs)

/-- Whole-buffer encode into the private buffer (R170): every byte, then end of stream, on a fresh context. -/
def blockEncode (cfg : Config) (p : BlockProfile) (o : Options) (bs : List Byte) : Except Err (List CharUnit) :=
  match encFeed cfg (freshContext .encoder p o) bs with
  | .error e => .error e
  | .ok (t, us) =>
    match encEosBody cfg t with
    | .error e => .error e
    | .ok (_, vs) => .ok (us ++ vs)

/-- BLK.ENC's reading of IN: C_BAD_OPERAND before anything is encoded (R170). -/
def blockEncodeUnits (cfg : Config) (p : BlockProfile) (o : Options) (us : List CharUnit) : Except Err (List CharUnit) :=
  match unitsToBytes us with
  | .error e => .error e
  | .ok bs => blockEncode cfg p o bs

/-- The end of a streaming encoder command: the context it leaves and the units it emits straight into OUT (R72). An
internal error changes nothing but LASTERR (60_exceptions.md R343). -/
def encStream (s : State) : Except Err (Context × List CharUnit) → BodyResult
  | .ok (t, us) => .success ((s.setCtx t).appendOut us)
  | .error e => .raise e s

/-- CTX.ENC (R160). -/
def execCtxEnc (o : Options) (p : ProfCode) (s : State) : Host.Outcome State Fault Refusal :=
  .next (runCommand s (fun s =>
    withProfile (servedStreaming p) Profile.block s (fun q => .success (s.setCtx (freshContext .encoder q o)))))

/-- ENC.PUT (R162). -/
def execEncPut (b : Byte) (s : State) : Host.Outcome State Fault Refusal :=
  .next (runCommand s (fun s => withContext .encoder s (fun s => encStream s (encPutBody s.cfg s.ctx b))))

/-- ENC.EOS (R165). -/
def execEncEos (s : State) : Host.Outcome State Fault Refusal :=
  .next (runCommand s (fun s => withContext .encoder s (fun s => encStream s (encEosBody s.cfg s.ctx))))

/-- BLK.ENC (R170). The streaming context is neither read nor changed. -/
def execBlkEnc (o : Options) (p : ProfCode) (s : State) : Host.Outcome State Fault Refusal :=
  .next (runCommand s (fun s =>
    withProfile (servedBlock p) Profile.block s (fun q => commit s (blockEncodeUnits s.cfg q o s.inp))))

end Sys2Proof.Machine
end

