-- ==== Sys2Proof/Machine/FastPath.lean ====
section
/-! DEFINITION. The P16 fast-path decoder of 45_fastpath.md: HEX.FDEC and HEX.TRYFDEC. -/

namespace Sys2Proof.Machine

/-- `fastEligible(p, o)` (R300); the default table is compared as a table. -/
def fastEligible (cfg : Config) (p : BlockProfile) (o : Options) : Bool :=
  p == .p16 && alphabetOf cfg (.block .p16) == defaultAlpha16 && has o .pure
    && !has o .relax && !has o .wrap && !has o .indent

/-- `hexval(c)` (R304). -/
def hexval (c : CharUnit) : Option Nat :=
  if 0x30 ≤ c.toNat ∧ c.toNat ≤ 0x39 then some (c.toNat - 0x30)
  else if 0x41 ≤ c.toNat ∧ c.toNat ≤ 0x46 then some (c.toNat - 0x41 + 10)
  else if 0x61 ≤ c.toNat ∧ c.toNat ≤ 0x66 then some (c.toNat - 0x61 + 10)
  else none

/-- The pairs of `FastDecode`, in order, up to the first with a bad character (R301). A single last character is not
met here: the length is even. -/
def fastPairs : List CharUnit → Except FormatError (List Byte)
  | c1 :: c2 :: rest =>
    match hexval c1, hexval c2 with
    | some hi, some lo =>
      match fastPairs rest with
      | .ok bs => .ok (BitVec.ofNat 8 (hi * 16 + lo) :: bs)
      | .error e => .error e
    | _, _ => .error .invalidChar
  | _ => .ok []

/-- `FastDecode(t)` into the private buffer: the length is checked first (R301). -/
def fastDecode (t : List CharUnit) : Except FormatError (List Byte) :=
  if t.length % 2 = 1 then .error .oddLength else fastPairs t

/-- Decoded bytes as the private buffer of a whole-buffer command. -/
def asBuffer : Except FormatError (List Byte) → Except Err (List CharUnit)
  | .ok bs => .ok (bytesToUnits bs)
  | .error e => .error (.format e)

/-- HEX.FDEC (R301). -/
def execHexFDec (s : State) : Host.Outcome State Fault Refusal :=
  .next (runCommand s (fun s => commit s (asBuffer (fastDecode s.inp))))

/-- HEX.TRYFDEC (R302). -/
def execHexTryFDec (s : State) : Host.Outcome State Fault Refusal :=
  .next (runCommand s (fun s => commitTry s (asBuffer (fastDecode s.inp))))

end Sys2Proof.Machine
end

