-- ==== Sys2Proof/Machine/BlockDecoder.lean ====
section
/-! DEFINITION. The block decoder and the padding operations of 42_block_decoder.md: CTX.DEC, DEC.PUT, DEC.EOS, BLK.DEC, BLK.TRYDEC, TXT.PAD and TXT.UNPAD. -/

namespace Sys2Proof.Machine

/-- `padReq(p, o)` (R201). -/
def padReq (p : BlockProfile) (o : Options) : Bool := has o .padding && (p == .p64 || p == .p24)

/-- `nbytes(p, m)`, the whole bytes m symbols cover; for P24 the greatest r with `256^r <= 24^m` (R201). -/
def nbytes (p : BlockProfile) (m : Nat) : Nat :=
  match p with
  | .p16 => 4 * m / 8
  | .p64 => 6 * m / 8
  | .p24 => leastFrom (fun r => 24 ^ m < 256 ^ (r + 1)) m 0

/-- `m in CANON[p]`: m is the symbol count of some partial final block (R205). -/
def canonical (p : BlockProfile) (m : Nat) : Bool :=
  (List.range (bytesPerBlock p)).any (fun r => decide (0 < r) && nsym p r == m)

/-- The value the r whole bytes of a partial block hold, and its insignificant part (R206). -/
def splitPartial (p : BlockProfile) (m acc : Nat) : Nat × Nat :=
  let r := nbytes p m
  match p with
  | .p24 => (acc % 256 ^ r, acc / 256 ^ r)
  | .p16 => (acc / 2 ^ (4 * m - 8 * r), acc % 2 ^ (4 * m - 8 * r))
  | .p64 => (acc / 2 ^ (6 * m - 8 * r), acc % 2 ^ (6 * m - 8 * r))

/-- `partialFlush(m)`: the bytes it emits, or the format error (R206). Every check comes before the emit. -/
def partialFlush (p : BlockProfile) (o : Options) (m acc : Nat) : Except FormatError (List Byte) :=
  if !has o .relax && !canonical p m then .error .incomplete
  else if !has o .relax && (splitPartial p m acc).2 != 0 then .error .insignificant
  else .ok (bytesBE (nbytes p m) (splitPartial p m acc).1)

/-- `fullBlock()`: the bytes of a whole block; a P24 value of 2^32 or more is an error unless Relax drops the excess
(R207). -/
def fullBlock (p : BlockProfile) (o : Options) (acc : Nat) : Except FormatError (List Byte) :=
  if p = .p24 ∧ 2 ^ 32 ≤ acc then
    if has o .relax then .ok (bytesBE (bytesPerBlock p) (acc % 2 ^ 32)) else .error .insignificant
  else .ok (bytesBE (bytesPerBlock p) acc)

/-- How a decoder body ends: the context and the bytes emitted, or an error with the context as the body left it
before the check that failed. -/
abbrev DecodeStep := Except (Err × Context) (Context × List Byte)

/-- DEC.PUT on a padding character (R203, R209, R210). -/
def decPadBody (t : Context) : DecodeStep :=
  if !padReq t.prof t.opts then .ok (t, [])
  else if t.mod = 0 then .error (.format .padPosition, t)
  else
    let t1 := { t with padRun := t.padRun + 1 }
    if t1.mod + t1.padRun = symbolsPerBlock t.prof then
      match partialFlush t.prof t.opts t1.mod t1.acc with
      | .error e => .error (.format e, t1)
      | .ok bs => .ok ({ t1 with acc := 0, mod := 0, padRun := 0 }, bs)
    else .ok (t1, [])

/-- DEC.PUT on a symbol of value v (R203, R207). -/
def decSymBody (t : Context) (v : Nat) : DecodeStep :=
  if 0 < t.padRun then .error (.format .padPosition, t)
  else
    let t1 := { t with acc := t.acc * blockRadix t.prof + v, mod := t.mod + 1 }
    if t1.mod = symbolsPerBlock t.prof then
      match fullBlock t.prof t.opts t1.acc with
      | .error e => .error (.format e, t1)
      | .ok bs => .ok ({ t1 with acc := 0, mod := 0 }, bs)
    else .ok (t1, [])

/-- The body of DEC.PUT from the classification on (R203). -/
def decPutBody (cfg : Config) (t : Context) (c : CharUnit) : DecodeStep :=
  match classOf cfg (.block t.prof) t.opts c with
  | .pad => decPadBody t
  | .skip => .ok (t, [])
  | .invalid => .error (.format .invalidChar, t)
  | .sym v => decSymBody t v

/-- The body of DEC.EOS from "m <- ctx.MOD" on (R208). -/
def decEosBody (t : Context) : DecodeStep :=
  if symbolsPerBlock t.prof ≤ t.mod then .error (.internal .modulusRange, t)
  else if 0 < t.mod then
    if padReq t.prof t.opts then .error (.format .padMissing, t)
    else
      match partialFlush t.prof t.opts t.mod t.acc with
      | .error e => .error (.format e, t)
      | .ok bs => .ok ({ t with acc := 0, mod := 0, padRun := 0, eosf := true }, bs)
  else .ok ({ t with acc := 0, mod := 0, padRun := 0, eosf := true }, [])

/-- Feed a character sequence to a decoder context, collecting what it emits; the first error ends it. -/
def decFeed (cfg : Config) : Context → List CharUnit → DecodeStep
  | t, [] => .ok (t, [])
  | t, c :: cs =>
    match decPutBody cfg t c with
    | .error e => .error e
    | .ok (t1, bs) =>
      match decFeed cfg t1 cs with
      | .error e => .error e
      | .ok (t2, ds) => .ok (t2, bs ++ ds)

/-- The general engine on a whole text: every character, then end of stream, on a fresh context (R212). -/
def generalDecode (cfg : Config) (p : BlockProfile) (o : Options) (cs : List CharUnit) : Except Err (List Byte) :=
  match decFeed cfg (freshContext .decoder p o) cs with
  | .error e => .error e.1
  | .ok (t, bs) =>
    match decEosBody t with
    | .error e => .error e.1
    | .ok (_, ds) => .ok (bs ++ ds)

/-- The private buffer of BLK.DEC: the fast path where it is eligible, else the general engine (R212). -/
def blockDecodeUnits (cfg : Config) (p : BlockProfile) (o : Options) (cs : List CharUnit) : Except Err (List CharUnit) :=
  if fastEligible cfg p o then asBuffer (fastDecode cs)
  else
    match generalDecode cfg p o cs with
    | .ok bs => .ok (bytesToUnits bs)
    | .error e => .error e

/-- The end of a streaming decoder command (20_memory.md R72, R73): a format error is stored in `ctx.FAULT` and raised,
`fault(E)` of R201; any other error changes nothing but LASTERR (60_exceptions.md R343, R345). -/
def decStream (s : State) : DecodeStep → BodyResult
  | .ok (t, bs) => .success ((s.setCtx t).appendOut (bytesToUnits bs))
  | .error (.format e, t) => .raise (.format e) (s.setCtx { t with fault := some e })
  | .error (.config e, _) => .raise (.config e) s
  | .error (.internal e, _) => .raise (.internal e) s

/-- CTX.DEC (R200). -/
def execCtxDec (o : Options) (p : ProfCode) (s : State) : Host.Outcome State Fault Refusal :=
  .next (runCommand s (fun s =>
    withProfile (servedStreaming p) Profile.block s (fun q => .success (s.setCtx (freshContext .decoder q o)))))

/-- DEC.PUT (R203). -/
def execDecPut (c : CharUnit) (s : State) : Host.Outcome State Fault Refusal :=
  .next (runCommand s (fun s => withContext .decoder s (fun s => decStream s (decPutBody s.cfg s.ctx c))))

/-- DEC.EOS (R208). -/
def execDecEos (s : State) : Host.Outcome State Fault Refusal :=
  .next (runCommand s (fun s => withContext .decoder s (fun s => decStream s (decEosBody s.ctx))))

/-- BLK.DEC (R212). The streaming context is neither read nor changed. -/
def execBlkDec (o : Options) (p : ProfCode) (s : State) : Host.Outcome State Fault Refusal :=
  .next (runCommand s (fun s =>
    withProfile (servedBlock p) Profile.block s (fun q => commit s (blockDecodeUnits s.cfg q o s.inp))))

/-- BLK.TRYDEC (R213). -/
def execBlkTryDec (o : Options) (p : ProfCode) (s : State) : Host.Outcome State Fault Refusal :=
  .next (runCommand s (fun s =>
    withProfile (servedBlock p) Profile.block s (fun q => commitTry s (blockDecodeUnits s.cfg q o s.inp))))

/-- `S` of a profile that has padding, with its padding character; none where TXT.* are the identity (R215, R216). -/
def paddingOf (cfg : Config) : Profile → Option (CharUnit × Nat)
  | .block .p16 => none
  | .block .p64 => some (cfg.pad64, symbolsPerBlock .p64)
  | .block .p24 => some (cfg.pad24, symbolsPerBlock .p24)
  | .p58 => none

/-- The text of TXT.PAD (R215). -/
def padText (cfg : Config) (p : Profile) (cs : List CharUnit) : List CharUnit :=
  match paddingOf cfg p with
  | none => cs
  | some (c, n) =>
    let k := cs.countP (fun x => x == c || (indexOf cfg p x).isSome)
    cs ++ List.replicate ((n - k % n) % n) c

/-- The text of TXT.UNPAD: the longest suffix of padding characters is removed (R216). -/
def unpadText (cfg : Config) (p : Profile) (cs : List CharUnit) : List CharUnit :=
  match paddingOf cfg p with
  | none => cs
  | some (c, _) => (cs.reverse.dropWhile (fun x => x == c)).reverse

/-- TXT.PAD (R215). OPT is ignored. -/
def execTxtPad (_o : Options) (p : ProfCode) (s : State) : Host.Outcome State Fault Refusal :=
  .next (runCommand s (fun s =>
    withProfile (servedAny p) id s (fun q => commit s (.ok (padText s.cfg q s.inp)))))

/-- TXT.UNPAD (R216). OPT is ignored. -/
def execTxtUnpad (_o : Options) (p : ProfCode) (s : State) : Host.Outcome State Fault Refusal :=
  .next (runCommand s (fun s =>
    withProfile (servedAny p) id s (fun q => commit s (.ok (unpadText s.cfg q s.inp)))))

end Sys2Proof.Machine
end

