-- ==== Sys2Proof/Machine/Capacity.lean ====
section
/-! DEFINITION. The capacity estimator of 44_capacity.md: CAP.MAXCHAR and CAP.MAXBYTE. -/

namespace Sys2Proof.Machine

/-- `pos_len(m)`, the least c with `58^c >= 256^m` (R280); `58^(2m) >= 256^m` bounds the search. -/
def posLen (m : Nat) : Nat := leastFrom (fun c => 256 ^ m ≤ 58 ^ c) (2 * m) 0

/-- Symbols and padding of n bytes under a block profile (R281). -/
def blockChars (p : BlockProfile) (o : Options) (n : Nat) : Nat :=
  if has o .unpad then ceilDiv (n * symbolsPerBlock p) (bytesPerBlock p)
  else ceilDiv n (bytesPerBlock p) * symbolsPerBlock p

/-- The result of CAP.MAXCHAR for a byte count n (R281). -/
def maxChar (cfg : Config) (p : Profile) (o : Options) (n : Nat) : Nat :=
  match p with
  | .p58 => posLen (n + (if has o .checksum then 4 else 0))
  | .block q =>
    let c := blockChars q o n
    c + (if wrapEff q o then c / lineWidth cfg q * cfg.newline.length else 0)
      + (if sepEff q o then ceilDiv n (bytesPerBlock q) else 0)

/-- The result of CAP.MAXBYTE for a character count m (R282). -/
def maxByte (p : Profile) (m : Nat) : Nat :=
  match p with
  | .p58 => m
  | .block q => ceilDiv (m * bytesPerBlock q) (symbolsPerBlock q)

/-- A capacity result as RES holds it, 64 bits zero-extended (10_state.md R46); a result that does not fit has no
stated value (R281) and is a free value. -/
def resOf (n : Nat) : BitVec 64 := if n < 2 ^ 64 then BitVec.ofNat 64 n else Config.resOverflow n

/-- CAP.MAXCHAR (R281). -/
def execCapMaxChar (o : Options) (p : ProfCode) (s : State) : Host.Outcome State Fault Refusal :=
  .next (runCommand s (fun s =>
    withProfile (servedAny p) id s (fun q => .success (s.setRes (resOf (maxChar s.cfg q o s.arg.toNat))))))

/-- CAP.MAXBYTE (R282). The options have no effect. -/
def execCapMaxByte (_o : Options) (p : ProfCode) (s : State) : Host.Outcome State Fault Refusal :=
  .next (runCommand s (fun s =>
    withProfile (servedAny p) id s (fun q => .success (s.setRes (resOf (maxByte q s.arg.toNat))))))

end Sys2Proof.Machine
end

