-- ==== Sys2Proof/Machine/Control.lean ====
section
/-! DEFINITION. The control commands of 46_control.md, NOP and SRST, the command cycle on a word, and the host's actions (20_memory.md R82). -/

namespace Sys2Proof.Machine

/-- NOP (R320): LASTERR and ABSENT, by the command cycle, and nothing else. -/
def execNop (s : State) : Host.Outcome State Fault Refusal := .next (runCommand s .success)

/-- SRST (R321): the context is discarded, ARG and RES are cleared; IN and OUT stay. -/
def execSrst (s : State) : Host.Outcome State Fault Refusal :=
  .next (runCommand s (fun s => .success ((s.discardCtx.setArg 0).setRes 0)))

/-- The command cycle on a word that does not decode: C_ILLEGAL_COMMAND (30_encoding.md R108, R110; 46_control.md
R322). Nothing but LASTERR and ABSENT changes (60_exceptions.md R346). -/
def rejectWord (_why : DecodeError) (s : State) : State :=
  runCommand s (fun s => .raise (.config .illegalCommand) s)

/-- The host loads IN; more than `MAX_IN` units is outside the spec (20_memory.md R70). -/
def hostLoadIn (us : List CharUnit) (s : State) : Host.Outcome State Fault Refusal :=
  if us.length ≤ s.cfg.maxIn then .next (s.setIn us) else .refused .inputTooLong

/-- The host discards the last n units of OUT (20_memory.md R71). -/
def hostDiscardOut (n : Nat) (s : State) : Host.Outcome State Fault Refusal :=
  if n ≤ s.out.length then .next (s.dropOut n) else .refused .noSuchSuffix

/-- The host reads OUT: the units appended so far, no effect on the engine (20_memory.md R82). -/
def hostReadOut (s : State) : Host.Outcome State Fault Refusal := .next (s.setOutView s.out)

/-- The host reads a register (10_state.md R40, R44). -/
def hostRead (addr width : Nat) (s : State) : Host.Outcome State Fault Refusal :=
  match busTarget s.cfg addr width with
  | .outside => .fault .outsideWindow
  | .illegal => .refused .badAccess
  | .register off => .next (s.setBusData (readRegister s off))

end Sys2Proof.Machine
end

