-- ==== Sys2Proof/Machine/Hash.lean ====
section
/-! DEFINITION. `HASH` of 00_scope.md R6 and the checksum tag of 43_positional.md R251. SHA-256 is the spec's default; its algorithm is from general knowledge (PRESUMED, notes/assumptions/7.md). -/

namespace Sys2Proof.Machine

/-- The eight words of a SHA-256 chaining value. -/
structure ShaState where
  a : RegWord
  b : RegWord
  c : RegWord
  d : RegWord
  e : RegWord
  f : RegWord
  g : RegWord
  h : RegWord
deriving DecidableEq, Repr

/-- The initial chaining value of SHA-256. -/
def shaInit : ShaState :=
  ⟨0x6a09e667#32, 0xbb67ae85#32, 0x3c6ef372#32, 0xa54ff53a#32,
   0x510e527f#32, 0x9b05688c#32, 0x1f83d9ab#32, 0x5be0cd19#32⟩

/-- The 64 round constants of SHA-256. -/
def shaConstants : List RegWord :=
  [0x428a2f98#32, 0x71374491#32, 0xb5c0fbcf#32, 0xe9b5dba5#32, 0x3956c25b#32, 0x59f111f1#32, 0x923f82a4#32, 0xab1c5ed5#32,
   0xd807aa98#32, 0x12835b01#32, 0x243185be#32, 0x550c7dc3#32, 0x72be5d74#32, 0x80deb1fe#32, 0x9bdc06a7#32, 0xc19bf174#32] ++
  [0xe49b69c1#32, 0xefbe4786#32, 0x0fc19dc6#32, 0x240ca1cc#32, 0x2de92c6f#32, 0x4a7484aa#32, 0x5cb0a9dc#32, 0x76f988da#32,
   0x983e5152#32, 0xa831c66d#32, 0xb00327c8#32, 0xbf597fc7#32, 0xc6e00bf3#32, 0xd5a79147#32, 0x06ca6351#32, 0x14292967#32] ++
  [0x27b70a85#32, 0x2e1b2138#32, 0x4d2c6dfc#32, 0x53380d13#32, 0x650a7354#32, 0x766a0abb#32, 0x81c2c92e#32, 0x92722c85#32,
   0xa2bfe8a1#32, 0xa81a664b#32, 0xc24b8b70#32, 0xc76c51a3#32, 0xd192e819#32, 0xd6990624#32, 0xf40e3585#32, 0x106aa070#32] ++
  [0x19a4c116#32, 0x1e376c08#32, 0x2748774c#32, 0x34b0bcb5#32, 0x391c0cb3#32, 0x4ed8aa4a#32, 0x5b9cca4f#32, 0x682e6ff3#32,
   0x748f82ee#32, 0x78a5636f#32, 0x84c87814#32, 0x8cc70208#32, 0x90befffa#32, 0xa4506ceb#32, 0xbef9a3f7#32, 0xc67178f2#32]

/-- Rotation right of a 32-bit word by `n`, `0 < n < 32`. -/
def rotr (x : RegWord) (n : Nat) : RegWord := (x >>> n) ||| (x <<< (32 - n))

/-- The message schedule, latest word first: each new word is made from the words 2, 7, 15 and 16 places back. -/
def shaSchedule : Nat → List RegWord → List RegWord
  | 0, ws => ws
  | n + 1, ws =>
    let w2 := ws.getD 1 0
    let w7 := ws.getD 6 0
    let w15 := ws.getD 14 0
    let w16 := ws.getD 15 0
    let s0 := rotr w15 7 ^^^ rotr w15 18 ^^^ (w15 >>> 3)
    let s1 := rotr w2 17 ^^^ rotr w2 19 ^^^ (w2 >>> 10)
    shaSchedule n ((w16 + s0 + w7 + s1) :: ws)

/-- One round of the SHA-256 compression function. -/
def shaRound (s : ShaState) (kw : RegWord × RegWord) : ShaState :=
  let s1 := rotr s.e 6 ^^^ rotr s.e 11 ^^^ rotr s.e 25
  let ch := (s.e &&& s.f) ^^^ (~~~s.e &&& s.g)
  let t1 := s.h + s1 + ch + kw.1 + kw.2
  let s0 := rotr s.a 2 ^^^ rotr s.a 13 ^^^ rotr s.a 22
  let maj := (s.a &&& s.b) ^^^ (s.a &&& s.c) ^^^ (s.b &&& s.c)
  ⟨t1 + (s0 + maj), s.a, s.b, s.c, s.d + t1, s.e, s.f, s.g⟩

/-- Compress one block, given as its 16 words in order. -/
def shaBlock (s : ShaState) (ws : List RegWord) : ShaState :=
  let t := (shaConstants.zip (shaSchedule 48 ws.reverse).reverse).foldl shaRound s
  ⟨s.a + t.a, s.b + t.b, s.c + t.c, s.d + t.d, s.e + t.e, s.f + t.f, s.g + t.g, s.h + t.h⟩

/-- Bytes as 32-bit words, the first byte of four the most significant; a rest of fewer than four bytes is dropped. -/
def bytesToWords : List Byte → List RegWord
  | a :: b :: c :: d :: rest => (a ++ b ++ c ++ d) :: bytesToWords rest
  | _ => []

/-- The padded message: a 0x80 byte, zero bytes up to 56 modulo 64, the length in bits as 8 bytes. -/
def shaPad (m : List Byte) : List Byte :=
  m ++ [0x80#8] ++ List.replicate ((119 - m.length % 64) % 64) 0#8 ++ bytesBE 8 (8 * m.length)

/-- Compress the blocks of a padded message; `fuel` bounds their number. -/
def shaBlocks : Nat → ShaState → List RegWord → ShaState
  | 0, s, _ => s
  | fuel + 1, s, ws => if ws.isEmpty then s else shaBlocks fuel (shaBlock s (ws.take 16)) (ws.drop 16)

/-- The four bytes of a word, most significant first. -/
def wordBytes (w : RegWord) : List Byte :=
  [w.extractLsb' 24 8, w.extractLsb' 16 8, w.extractLsb' 8 8, w.extractLsb' 0 8]

/-- SHA-256, the default `HASH` (00_scope.md R6). -/
def sha256 (m : List Byte) : Digest :=
  let ws := bytesToWords (shaPad m)
  let s := shaBlocks ws.length shaInit ws
  ⟨s.a.extractLsb' 24 8, s.a.extractLsb' 16 8, s.a.extractLsb' 8 8, s.a.extractLsb' 0 8,
   wordBytes s.b ++ wordBytes s.c ++ wordBytes s.d ++ wordBytes s.e ++ wordBytes s.f ++ wordBytes s.g ++ wordBytes s.h⟩

/-- The bytes of a digest, in order. -/
def digestBytes (d : Digest) : List Byte := d.b0 :: d.b1 :: d.b2 :: d.b3 :: d.rest

/-- `HASH` as the configuration names it (00_scope.md R6). -/
def hashWith : HashFn → List Byte → Digest
  | .sha256, m => sha256 m
  | .other n, m => Config.otherHash n m

/-- `tag(d) = HASH(HASH(d))[0:4]` (43_positional.md R251). -/
def checksumTag (h : HashFn) (d : List Byte) : List Byte :=
  (digestBytes (hashWith h (digestBytes (hashWith h d)))).take 4

end Sys2Proof.Machine
end

