-- ==== Sys2Proof/Machine/Positional.lean ====
section
/-! DEFINITION. The positional numeral codec of 43_positional.md: POS.ENC, POS.DEC and POS.TRYDEC. -/

namespace Sys2Proof.Machine

/-- The payload POS.ENC converts: the bytes, with the tag appended under Checksum (R252). -/
def checksummed (cfg : Config) (o : Options) (bs : List Byte) : List Byte :=
  if has o .checksum then bs ++ checksumTag cfg.hash bs else bs

/-- The digits of POS.ENC: one zero for each leading zero byte, then the base-58 digits of the rest (R252). -/
def positionalDigits (d : List Byte) : List Nat :=
  let k := zlead d 0#8
  List.replicate k 0 ++ numeral 58 (valBE (d.drop k))

/-- The private buffer of POS.ENC (R252). -/
def positionalEncode (cfg : Config) (o : Options) (bs : List Byte) : Except Err (List CharUnit) :=
  symbolsAt cfg .p58 (positionalDigits (checksummed cfg o bs))

/-- POS.ENC's reading of IN: C_BAD_OPERAND before anything is encoded (R252). -/
def positionalEncodeUnits (cfg : Config) (o : Options) (us : List CharUnit) : Except Err (List CharUnit) :=
  match unitsToBytes us with
  | .error e => .error e
  | .ok bs => positionalEncode cfg o bs

/-- The values of the symbols of a text, skippable characters dropped (R253). P58 has no padding, so no character is of
class `pad`. -/
def positionalValues (cfg : Config) (o : Options) : List CharUnit → Except FormatError (List Nat)
  | [] => .ok []
  | c :: cs =>
    match classOf cfg .p58 o c with
    | .sym v =>
      match positionalValues cfg o cs with
      | .ok vs => .ok (v :: vs)
      | .error e => .error e
    | .skip => positionalValues cfg o cs
    | .pad => positionalValues cfg o cs
    | .invalid => .error .invalidChar

/-- The payload of a symbol value sequence: a zero byte for each leading zero-symbol, then the bytes of the rest
(R254). -/
def positionalBytes (vs : List Nat) : List Byte :=
  let k := zlead vs 0
  List.replicate k 0#8 ++ minBE (valDigits 58 (vs.drop k))

/-- Checksum verification: the last 4 bytes are the tag of the rest (R256). -/
def verifyChecksum (cfg : Config) (d : List Byte) : Except FormatError (List Byte) :=
  if d.length < 4 then .error .checksumShort
  else
    let x := d.take (d.length - 4)
    let t := d.drop (d.length - 4)
    if checksumTag cfg.hash x = t then .ok x else .error .checksumMismatch

/-- POS.DEC on a text (R254). -/
def positionalDecode (cfg : Config) (o : Options) (cs : List CharUnit) : Except FormatError (List Byte) :=
  match positionalValues cfg o cs with
  | .error e => .error e
  | .ok vs => if has o .checksum then verifyChecksum cfg (positionalBytes vs) else .ok (positionalBytes vs)

/-- The private buffer of POS.DEC. -/
def positionalDecodeUnits (cfg : Config) (o : Options) (cs : List CharUnit) : Except Err (List CharUnit) :=
  match positionalDecode cfg o cs with
  | .ok bs => .ok (bytesToUnits bs)
  | .error e => .error (.format e)

/-- POS.ENC (R252). -/
def execPosEnc (o : Options) (p : ProfCode) (s : State) : Host.Outcome State Fault Refusal :=
  .next (runCommand s (fun s =>
    withProfile (servedPositional p) (fun _ => Profile.p58) s (fun _ => commit s (positionalEncodeUnits s.cfg o s.inp))))

/-- POS.DEC (R254). -/
def execPosDec (o : Options) (p : ProfCode) (s : State) : Host.Outcome State Fault Refusal :=
  .next (runCommand s (fun s =>
    withProfile (servedPositional p) (fun _ => Profile.p58) s (fun _ => commit s (positionalDecodeUnits s.cfg o s.inp))))

/-- POS.TRYDEC (R255). -/
def execPosTryDec (o : Options) (p : ProfCode) (s : State) : Host.Outcome State Fault Refusal :=
  .next (runCommand s (fun s =>
    withProfile (servedPositional p) (fun _ => Profile.p58) s
      (fun _ => commitTry s (positionalDecodeUnits s.cfg o s.inp))))

end Sys2Proof.Machine
end

