-- ==== Sys2Proof/Machine/Dispatch.lean ====
section
/-! DEFINITION. exec: one arm per command of the opcode map (30_encoding.md R107). -/

namespace Sys2Proof.Machine

def exec (i : Instr) (s : State) : Host.Outcome State Fault Refusal :=
  match i with
  | .nop => Sys2Proof.Machine.execNop s
  | .ctxEnc o p => Sys2Proof.Machine.execCtxEnc o p s
  | .ctxDec o p => Sys2Proof.Machine.execCtxDec o p s
  | .encPut b => Sys2Proof.Machine.execEncPut b s
  | .encEos => Sys2Proof.Machine.execEncEos s
  | .decPut c => Sys2Proof.Machine.execDecPut c s
  | .decEos => Sys2Proof.Machine.execDecEos s
  | .blkEnc o p => Sys2Proof.Machine.execBlkEnc o p s
  | .blkDec o p => Sys2Proof.Machine.execBlkDec o p s
  | .blkTryDec o p => Sys2Proof.Machine.execBlkTryDec o p s
  | .hexFDec => Sys2Proof.Machine.execHexFDec s
  | .hexTryFDec => Sys2Proof.Machine.execHexTryFDec s
  | .posEnc o p => Sys2Proof.Machine.execPosEnc o p s
  | .posDec o p => Sys2Proof.Machine.execPosDec o p s
  | .posTryDec o p => Sys2Proof.Machine.execPosTryDec o p s
  | .capMaxChar o p => Sys2Proof.Machine.execCapMaxChar o p s
  | .capMaxByte o p => Sys2Proof.Machine.execCapMaxByte o p s
  | .txtPad o p => Sys2Proof.Machine.execTxtPad o p s
  | .txtUnpad o p => Sys2Proof.Machine.execTxtUnpad o p s
  | .srst => Sys2Proof.Machine.execSrst s

end Sys2Proof.Machine
end

