-- ==== Sys2Proof/Machine/Step.lean ====
section
/-! DEFINITION. One step of the machine: the host's next action, a CMD write being one command (20_memory.md R78, R80, R82). -/

namespace Sys2Proof.Machine

/-- The command cycle on a word delivered to CMD (46_control.md R322): decode it, run it or reject it. -/
def issue (w : RegWord) (s : State) : Host.Outcome State Fault Refusal :=
  match decode w with
  | .ok i => exec i s
  | .error why => .next (rejectWord why s)

/-- The host writes a register (10_state.md R40, R44): a write to CMD issues its word and counts one command (R41,
R78). -/
def hostWrite (addr width : Nat) (w : RegWord) (s : State) : Host.Outcome State Fault Refusal :=
  match busTarget s.cfg addr width with
  | .outside => .fault .outsideWindow
  | .illegal => .refused .badAccess
  | .register off => if off = cmdOffset then issue w s.bumpPc else .next (writeRegister s off w)

/-- One action of the host (20_memory.md R82). -/
def perform (a : HostAction) (s : State) : Host.Outcome State Fault Refusal :=
  match a with
  | .loadIn us => hostLoadIn us s
  | .busWrite addr width w => hostWrite addr width w s
  | .busRead addr width => hostRead addr width s
  | .readOut => hostReadOut s
  | .discardOut n => hostDiscardOut n s

/-- One step. An ill-formed configuration has no step (40_alphabet.md R142). With no host action left the engine waits
and nothing changes (46_control.md R322, 70_reset_and_hazards.md R380). -/
def step (s : State) : Host.Outcome State Fault Refusal :=
  if configOk s.cfg then
    match s.host with
    | [] => .next s
    | a :: _ => perform a s.popHost
  else .refused .illFormedConfig

/-- s with the command word of a table row as the host's very next action, a CMD write; nothing else changes. -/
def State.withFetchWord (s : State) (nbits w : Nat) : State :=
  { s with host := .busWrite (s.cfg.base + cmdOffset) 4 (tableWord nbits w) :: s.host }

end Sys2Proof.Machine
end

