-- ==== Sys2Proof/Safety.lean ====
section
/-! DEFINITION. What counts as a good state, a legal host action and a run of commands, in the terms the statements use. -/

namespace Sys2Proof

open Sys2Proof.Machine

/-- The bounds of a context that has not failed (10_state.md R31, R32, R33, R34, R35). A failed context's fields are
never read again and may hold anything (60_exceptions.md R345). -/
def ContextBounds (cfg : Config) (t : Context) : Prop :=
  match t.dir with
  | .encoder =>
    t.mod < bytesPerBlock t.prof ∧ t.acc < 256 ^ t.mod ∧ t.padRun = 0 ∧ t.linePos ≤ lineWidth cfg t.prof
  | .decoder =>
    t.mod < symbolsPerBlock t.prof ∧ t.acc < blockRadix t.prof ^ t.mod ∧ t.linePos = 0 ∧
      (t.padRun = 0 ∨ (0 < t.padRun ∧ t.mod + t.padRun < symbolsPerBlock t.prof ∧ 0 < t.mod ∧
        padReq t.prof t.opts = true))

/-- What holds of the streaming context between commands, where there is one: its alphabet was checked when it was
made, only a decoder fails, an open or failed stream has not ended, and the bounds of R31 to R35. -/
structure ContextInv (cfg : Config) (t : Context) : Prop where
  sized : t.valid = true → sizeOk cfg (.block t.prof) = true
  faultDecoder : t.valid = true → t.fault ≠ none → t.dir = .decoder ∧ t.eosf = false
  bounds : t.valid = true → t.fault = none → ContextBounds cfg t
  flushed : t.valid = true → t.eosf = true → t.mod = 0 ∧ t.acc = 0 ∧ t.padRun = 0

/-- A LASTERR value that a run from reset can show: success, a configuration error or a format error
(60_exceptions.md R341, R343). -/
def Reported (c : BitVec 8) : Prop :=
  c = successCode ∨ (∃ e, c = configCode e) ∨ (∃ e, c = formatCode e)

/-- The invariant of the machine: the context's, a LASTERR of the code table, no absence with an error, IN within
`MAX_IN` (20_memory.md R70). -/
structure Inv (s : State) : Prop where
  ctx : ContextInv s.cfg s.ctx
  err : Reported s.lastErr
  absence : s.absent = true → s.lastErr = successCode
  input : s.inp.length ≤ s.cfg.maxIn

/-- A host action inside the spec (20_memory.md R70, R71, R82; 10_state.md R44): what it loads fits, what it discards
is a suffix, and its bus access is one aligned 32-bit word of the register window. -/
def LegalAction (s : State) : HostAction → Prop
  | .loadIn us => us.length ≤ s.cfg.maxIn
  | .busWrite addr width _ =>
    width = 4 ∧ s.cfg.base ≤ addr ∧ addr < s.cfg.base + 64 ∧ (addr - s.cfg.base) % 4 = 0
  | .busRead addr width =>
    width = 4 ∧ s.cfg.base ≤ addr ∧ addr < s.cfg.base + 64 ∧ (addr - s.cfg.base) % 4 = 0
  | .readOut => True
  | .discardOut n => n ≤ s.out.length

/-- A run of commands, one after the other, as long as each gives a next state (20_memory.md R78). -/
def runCommands : List Instr → State → Option State
  | [], s => some s
  | i :: is, s =>
    match exec i s with
    | .next t => runCommands is t
    | .fault _ => none
    | .refused _ => none

/-- A streaming context of a direction that takes data: it exists, has not failed and has not ended
(60_exceptions.md R344 item 2, 10_state.md R35). -/
structure Open (d : Direction) (s : State) : Prop where
  valid : s.ctx.valid = true
  dir : s.ctx.dir = d
  fault : s.ctx.fault = none
  eosf : s.ctx.eosf = false

/-- What a command that raises an error leaves besides what it may write itself: the code in LASTERR, ABSENT 0
(46_control.md R322, 60_exceptions.md R345). -/
def raised (s : State) (c : BitVec 8) : State := { s with lastErr := c, absent := false }

/-- What a command that succeeds without output and without any other write leaves. -/
def quiet (s : State) : State := raised s successCode

/-- What a whole-buffer command that succeeds leaves: its units appended to OUT (20_memory.md R72). -/
def appended (s : State) (us : List CharUnit) : State := { quiet s with out := s.out ++ us }

/-- What a TRY command that meets a format error leaves (42_block_decoder.md R213). -/
def absentState (s : State) : State := { s with lastErr := successCode, absent := true }

/-- The code has class 0x1, a configuration error (60_exceptions.md R340). -/
def classConfig (c : BitVec 8) : Prop := c.toNat / 16 = 1

/-- The code has class 0x2, a format error (R340). -/
def classFormat (c : BitVec 8) : Prop := c.toNat / 16 = 2

/-- The TRY commands (60_exceptions.md R340). -/
def isTry : Instr → Bool
  | .blkTryDec _ _ => true
  | .posTryDec _ _ => true
  | .hexTryFDec => true
  | .nop => false
  | .ctxEnc _ _ => false
  | .ctxDec _ _ => false
  | .encPut _ => false
  | .encEos => false
  | .decPut _ => false
  | .decEos => false
  | .blkEnc _ _ => false
  | .blkDec _ _ => false
  | .hexFDec => false
  | .posEnc _ _ => false
  | .posDec _ _ => false
  | .capMaxChar _ _ => false
  | .capMaxByte _ _ => false
  | .txtPad _ _ => false
  | .txtUnpad _ _ => false
  | .srst => false

/-- The commands that make, feed or end a streaming context (46_control.md, 41_block_encoder.md, 42_block_decoder.md);
no other command reads or writes the context. -/
def usesContext : Instr → Bool
  | .ctxEnc _ _ => true
  | .ctxDec _ _ => true
  | .encPut _ => true
  | .encEos => true
  | .decPut _ => true
  | .decEos => true
  | .srst => true
  | .nop => false
  | .blkEnc _ _ => false
  | .blkDec _ _ => false
  | .blkTryDec _ _ => false
  | .hexFDec => false
  | .hexTryFDec => false
  | .posEnc _ _ => false
  | .posDec _ _ => false
  | .posTryDec _ _ => false
  | .capMaxChar _ _ => false
  | .capMaxByte _ _ => false
  | .txtPad _ _ => false
  | .txtUnpad _ _ => false

/-- The commands that can write RES (10_state.md R46). -/
def writesRes : Instr → Bool
  | .capMaxChar _ _ => true
  | .capMaxByte _ _ => true
  | .srst => true
  | .nop => false
  | .ctxEnc _ _ => false
  | .ctxDec _ _ => false
  | .encPut _ => false
  | .encEos => false
  | .decPut _ => false
  | .decEos => false
  | .blkEnc _ _ => false
  | .blkDec _ _ => false
  | .blkTryDec _ _ => false
  | .hexFDec => false
  | .hexTryFDec => false
  | .posEnc _ _ => false
  | .posDec _ _ => false
  | .posTryDec _ _ => false
  | .txtPad _ _ => false
  | .txtUnpad _ _ => false

/-- The opcodes of each format (30_encoding.md R101 to R104, R107). -/
def opcodesF0 : List Nat := [0x00, 0x11, 0x21, 0x38, 0x39, 0xFF]

/-- The opcodes of format FP (R104, R107). -/
def opcodesFP : List Nat := [0x01, 0x02, 0x30, 0x31, 0x32, 0x40, 0x41, 0x42, 0x50, 0x51, 0x60, 0x61]

/-- A legal command word, read off the bits (30_encoding.md R107, R108): the opcode is in the map and every
must-be-zero field of its format is zero. -/
def LegalWord (w : RegWord) : Prop :=
  (w.toNat / 2 ^ 24 ∈ opcodesF0 ∧ w.toNat % 2 ^ 24 = 0) ∨ (w.toNat / 2 ^ 24 = 0x10 ∧ w.toNat % 2 ^ 24 < 2 ^ 8) ∨
    (w.toNat / 2 ^ 24 = 0x20 ∧ w.toNat % 2 ^ 24 < 2 ^ 16) ∨
    (w.toNat / 2 ^ 24 ∈ opcodesFP ∧ w.toNat / 2 ^ 4 % 2 ^ 12 = 0)

/-- The table of 42_block_decoder.md R205: profile, count m of data symbols, the bytes r they cover, whether m is
canonical. -/
def partialRows : List (BlockProfile × Nat × Nat × Bool) :=
  [(.p16, 1, 0, false), (.p64, 1, 0, false), (.p64, 2, 1, true), (.p64, 3, 2, true), (.p24, 1, 0, false),
   (.p24, 2, 1, true), (.p24, 3, 1, false), (.p24, 4, 2, true), (.p24, 5, 2, false), (.p24, 6, 3, true)]

/-- The table of 41_block_encoder.md R161: profile, bytes r of a partial block, the data symbols they take. -/
def partialSymbols : List (BlockProfile × Nat × Nat) :=
  [(.p64, 1, 2), (.p64, 2, 3), (.p24, 1, 2), (.p24, 2, 4), (.p24, 3, 6)]

/-- The value of the whole bytes and the insignificant part of a partial block of m symbols covering r bytes
(42_block_decoder.md R205, R206). -/
def partialValue (p : BlockProfile) (m r acc : Nat) : Nat × Nat :=
  match p with
  | .p16 => (acc / 2 ^ (4 * m - 8 * r), acc % 2 ^ (4 * m - 8 * r))
  | .p64 => (acc / 2 ^ (6 * m - 8 * r), acc % 2 ^ (6 * m - 8 * r))
  | .p24 => (acc % 256 ^ r, acc / 256 ^ r)

/-- The two commands of a stream around its data: the text of `ENCODE.S` (30_encoding.md R111). -/
def encodeStream (o : Options) (q : BlockProfile) (bs : List Byte) : List Instr :=
  .ctxEnc o (blockCode q) :: (bs.map .encPut ++ [.encEos])

/-- The commands of `DECODE.S` (30_encoding.md R111). -/
def decodeStream (o : Options) (q : BlockProfile) (cs : List CharUnit) : List Instr :=
  .ctxDec o (blockCode q) :: (cs.map .decPut ++ [.decEos])

/-- What EmitGroup adds to OUT for a group, and the line position after it (41_block_encoder.md R167), for a line
width and a newline. -/
def EmitsGroup (cfg : Config) (t : Context) (g us : List CharUnit) (pos : Nat) : Prop :=
  let before : List CharUnit := if has t.opts .indent = true ∧ t.prof ≠ .p24 ∧ 0 < t.linePos then [0x20#16] else []
  let n := min (t.linePos + g.length) (lineWidth cfg t.prof)
  if (has t.opts .wrap = true ∨ (t.prof = .p24 ∧ has t.opts .indent = true)) ∧ lineWidth cfg t.prof ≤ n
  then us = before ++ g ++ cfg.newline ∧ pos = 0
  else us = before ++ g ∧ pos = n

/-- The symbols of the base-R digits of a value, `n` of them, most significant first (41_block_encoder.md R163,
R166): each digit is below the radix, together they spell the value, each symbol is its digit's. -/
def SpellsValue (cfg : Config) (q : BlockProfile) (n v : Nat) (g : List CharUnit) : Prop :=
  ∃ ds : List Nat, ds.length = n ∧ (∀ d ∈ ds, d < blockRadix q) ∧
    ds.foldl (fun x d => x * blockRadix q + d) 0 = v ∧ ds.map (symbolAt cfg (.block q)) = g.map some

/-- Two options values agree on the flags named (30_encoding.md R112). -/
def SameFlags (fs : List Flag) (o o' : Options) : Prop := ∀ f ∈ fs, has o f = has o' f

/-- A character that a decoder skips under options o (40_alphabet.md R144). -/
def Skipped (cfg : Config) (o : Options) (c : CharUnit) : Prop :=
  ((has o .wrap = true ∨ has o .indent = true) ∧ (c ∈ cfg.newline ∨ c = 0x20#16)) ∨
    (has o .pure = false ∧ c ∈ cfg.ws) ∨ (has o .pure = false ∧ has o .relax = true ∧ c ∈ cfg.sep)

end Sys2Proof
end

