-- ==== Sys2Proof/Certificates/Slice0/Obligations.lean ====
section
/-! DEFINITION. The statements for the provers. Each docstring names the rule of spec/ it formalises, or says that it is the model's choice and names the log entry. -/

open Sys2Proof Sys2Proof.Machine

/-- Encode then decode gives every command back, every operand at every value (30_encoding.md R100 to R107, R111). -/
def Obligations.DecodeEncodeRoundTrip : Prop := ∀ i : Instr, decode (encode i) = .ok i

/-- A word that decodes is the word of the command it decodes to: one word per command, no other spelling
(30_encoding.md R109). -/
def Obligations.EncodeInvertsDecode : Prop := ∀ (w : RegWord) (i : Instr), decode w = .ok i → encode i = w

/-- A word is a command exactly when its opcode is in the map and its must-be-zero fields are zero; any other word
leaves 0x15 in LASTERR and changes nothing else but ABSENT (30_encoding.md R108). -/
def Obligations.IllegalWordsRejected : Prop :=
  ∀ (w : RegWord) (s : State),
    (LegalWord w → ∃ i, decode w = .ok i) ∧ (¬ LegalWord w → issue w s = .next (raised s 0x15#8))

/-- Words of 95_test_vectors.md section 2.1, one of each family and of each refusal. -/
def Obligations.DecodesSpecWords : Prop :=
  decode 0x00000000#32 = .ok .nop ∧ decode 0x01220002#32 = .ok (.ctxEnc 0x22#8 2#4) ∧
  decode 0x020C0002#32 = .ok (.ctxDec 0x0C#8 2#4) ∧ decode 0x1000004D#32 = .ok (.encPut 0x4D#8) ∧
  decode 0x2000FFFF#32 = .ok (.decPut 0xFFFF#16) ∧ decode 0x31050001#32 = .ok (.blkDec 0x05#8 1#4) ∧
  decode 0x39000000#32 = .ok .hexTryFDec ∧ decode 0x42480003#32 = .ok (.posTryDec 0x48#8 3#4) ∧
  decode 0x50300001#32 = .ok (.capMaxChar 0x30#8 1#4) ∧ decode 0x61000002#32 = .ok (.txtUnpad 0#8 2#4) ∧
  decode 0xFF000000#32 = .ok .srst ∧ decode 0x03FF00FF#32 = .error (.reservedOpcode 0x03#8) ∧
  decode 0x01010014#32 = .error .nonzeroField

/-- A step whose host action is a write of a word to CMD runs the command the word decodes to, on the state with the
action taken from the host's list and the command counted; a word that decodes to none is rejected
(20_memory.md R78, 10_state.md R41, 46_control.md R322). -/
def Obligations.StepRunsDecodedCommand : Prop :=
  ∀ (s : State) (w : RegWord) (rest : List HostAction), configOk s.cfg = true →
    s.host = .busWrite s.cfg.base 4 w :: rest →
    (∀ i, decode w = .ok i → step s = exec i { s with host := rest, pc := s.pc + 1 }) ∧
    (∀ e, decode w = .error e → step s = .next (raised { s with host := rest, pc := s.pc + 1 } 0x15#8))

/-- A command placed by withFetchWord is what the next step runs. How the word gets there is the model's
(notes/assumptions/4.md). -/
def Obligations.FetchedWordRuns : Prop :=
  ∀ (s : State) (i : Instr), configOk s.cfg = true →
    step (s.withFetchWord 32 (encode i).toNat) = exec i { s with pc := s.pc + 1 }

/-- With no host action left, a step changes nothing (46_control.md R322: between CMD writes the engine does nothing).
That waiting is a step at all is the model's (notes/assumptions/4.md). -/
def Obligations.EngineWaits : Prop :=
  ∀ s : State, configOk s.cfg = true → s.host = [] → step s = .next s

/-- What each host action other than a command does (20_memory.md R70, R71, R82; 10_state.md R40, R42 to R47): loading
IN, reading OUT, discarding a suffix of OUT, writing ARG, writing any other register. That a write to LASTERR, RESLO
or RESHI is ignored is inferred (notes/assumptions/9.md). -/
def Obligations.HostActionEffects : Prop :=
  ∀ (s : State) (rest : List HostAction), configOk s.cfg = true →
    (∀ us, s.host = .loadIn us :: rest → us.length ≤ s.cfg.maxIn → step s = .next { s with inp := us, host := rest }) ∧
    (s.host = .readOut :: rest → step s = .next { s with outView := s.out, host := rest }) ∧
    (∀ keep gone, s.out = keep ++ gone → s.host = .discardOut gone.length :: rest →
      step s = .next { s with out := keep, host := rest }) ∧
    (∀ v, s.host = .busWrite (s.cfg.base + 0x04) 4 v :: rest → step s = .next { s with arg := v, host := rest }) ∧
    (∀ off v, 0x08 ≤ off → off ≤ 0x3C → off % 4 = 0 → s.host = .busWrite (s.cfg.base + off) 4 v :: rest →
      step s = .next { s with host := rest })

/-- What a read of each register returns, and that a read has no other effect (10_state.md R40, R41, R44 to R47). -/
def Obligations.RegisterReads : Prop :=
  ∀ (s : State) (rest : List HostAction) (off : Nat) (v : RegWord), configOk s.cfg = true →
    s.host = .busRead (s.cfg.base + off) 4 :: rest →
    (off, v) ∈ [(0x00, 0#32), (0x04, s.arg), (0x08, statusWord s), (0x0C, s.lastErr.zeroExtend 32),
      (0x10, s.res.extractLsb' 0 32), (0x14, s.res.extractLsb' 32 32), (0x18, 0x424E5801#32), (0x1C, 0#32), (0x20, 0#32),
      (0x24, 0#32), (0x28, 0#32), (0x2C, 0#32), (0x30, 0#32), (0x34, 0#32), (0x38, 0#32), (0x3C, 0#32)] →
    step s = .next { s with busData := v, host := rest }

/-- An access that touches the register window and is not one naturally aligned 32-bit word of it has no step
(10_state.md R44); an access that touches no byte of it stops with a fault, which is the model's choice
(notes/assumptions/9.md). -/
def Obligations.BadBusAccessStops : Prop :=
  ∀ (s : State) (rest : List HostAction) (addr width : Nat) (v : RegWord), configOk s.cfg = true → 0 < width →
    (s.host = .busRead addr width :: rest ∨ s.host = .busWrite addr width v :: rest) →
    (s.cfg.base < addr + width → addr < s.cfg.base + 64 →
      ¬ (width = 4 ∧ s.cfg.base ≤ addr ∧ (addr - s.cfg.base) % 4 = 0) → step s = .refused .badAccess) ∧
    (addr + width ≤ s.cfg.base ∨ s.cfg.base + 64 ≤ addr → step s = .fault .outsideWindow)

/-- A configuration whose lookup is not the inverse of its symbol table, or whose padding character is a symbol or a
synonym, has no step (40_alphabet.md R142 items 2 and 3). The last clause takes in the entries that lookup answers no
value for: a symbol beyond the radix, in a table of the wrong size, and a synonym of such a value. -/
def Obligations.IllFormedAlphabetRefused : Prop :=
  ∀ (s : State) (p : Profile) (c : CharUnit),
    (∀ v, symbolAt s.cfg p v = some c → indexOf s.cfg p c ≠ some v → step s = .refused .illFormedConfig) ∧
    (padOf s.cfg p = some c → indexOf s.cfg p c ≠ none → step s = .refused .illFormedConfig) ∧
    (∀ x, padOf s.cfg p = some c → sameChar (alphabetOf s.cfg p) x c = true →
      (x ∈ (alphabetOf s.cfg p).symbols ∨ ∃ v, (x, v) ∈ (alphabetOf s.cfg p).synonyms) →
      step s = .refused .illFormedConfig)

/-- An action of the host inside the spec always has a step that gives a next state: no command fails on arithmetic, on
a full OUT or on a legal bus access (60_exceptions.md R342, 20_memory.md R78). -/
def Obligations.LegalActionsComplete : Prop :=
  ∀ (s : State) (a : HostAction) (rest : List HostAction), configOk s.cfg = true → s.host = a :: rest →
    LegalAction s a → ∃ t, step s = .next t

/-- The fields of STATUS (10_state.md R37, R43): STATE by the fields of the context, DIR, PROF and OPTS with a context
and 0 without, ABSENT in bit 16, the rest 0. -/
def Obligations.StatusReportsContext : Prop :=
  ∀ s : State,
    ((statusWord s).toNat % 2 ^ 3 =
      if s.ctx.valid = false then 0 else if s.ctx.fault ≠ none then 4 else if s.ctx.eosf = true then 3
      else if 0 < s.ctx.mod ∨ 0 < s.ctx.padRun then 2 else 1) ∧
    ((statusWord s).toNat / 2 ^ 3 % 2 = if s.ctx.valid = true ∧ s.ctx.dir = .decoder then 1 else 0) ∧
    ((statusWord s).toNat / 2 ^ 4 % 2 ^ 4 =
      if s.ctx.valid = false then 0 else match s.ctx.prof with | .p16 => 0 | .p64 => 1 | .p24 => 2) ∧
    ((statusWord s).toNat / 2 ^ 8 % 2 ^ 8 = if s.ctx.valid = true then s.ctx.opts.toNat else 0) ∧
    ((statusWord s).toNat / 2 ^ 16 = if s.absent = true then 1 else 0)

/-- Every command completes in every state, and writes only what is its to write: OUT only grows, IN, the configuration
and the host's side stay, RES is written by CAP and SRST alone, ARG by SRST alone, the context by the context
commands alone, ABSENT is set by TRY commands alone (10_state.md R42, R43, R46; 20_memory.md R70, R71). -/
def Obligations.CommandsWriteOnlyTheirOwn : Prop :=
  ∀ (i : Instr) (s : State), ∃ t, exec i s = .next t ∧ (∃ us, t.out = s.out ++ us) ∧ t.inp = s.inp ∧ t.cfg = s.cfg ∧
    t.host = s.host ∧ t.pc = s.pc ∧ t.busData = s.busData ∧ t.outView = s.outView ∧
    (i ≠ .srst → t.arg = s.arg ∧ t.freeCount = s.freeCount) ∧ (writesRes i = false → t.res = s.res) ∧
    (usesContext i = false → t.ctx = s.ctx) ∧ (t.absent = true → isTry i = true ∧ t.lastErr = 0#8)

/-- A configuration error, C_ILLEGAL_COMMAND among them, changes nothing but LASTERR and ABSENT
(60_exceptions.md R346). -/
def Obligations.ConfigErrorsChangeNothing : Prop :=
  ∀ (w : RegWord) (s t : State), issue w s = .next t → classConfig t.lastErr → t = raised s t.lastErr

/-- What raising an error, or answering absence, leaves (60_exceptions.md R345): OUT, RES, ARG and IN as before; the
context as before, but that a format error of DEC.PUT or DEC.EOS is stored in FAULT. -/
def Obligations.ErrorsEmitNothing : Prop :=
  ∀ (i : Instr) (s t : State), exec i s = .next t → t.lastErr ≠ 0#8 ∨ t.absent = true →
    t.out = s.out ∧ t.res = s.res ∧ t.arg = s.arg ∧ t.inp = s.inp ∧
    (((∃ c, i = .decPut c) ∨ i = .decEos) ∧ classFormat t.lastErr → ∃ e, t.ctx.fault = some e ∧ formatCode e = t.lastErr) ∧
    (¬ (((∃ c, i = .decPut c) ∨ i = .decEos) ∧ classFormat t.lastErr) → t.ctx = s.ctx)

/-- The profile and size checks come before the body of every FP command (30_encoding.md R110 steps 3 and 4). -/
def Obligations.ProfileChecks : Prop :=
  ∀ (s : State) (o : Options) (p : ProfCode),
    (∀ i ∈ [Instr.ctxEnc o p, .ctxDec o p], (p = 3#4 → exec i s = .next (raised s 0x12#8)) ∧
      (3 < p.toNat → exec i s = .next (raised s 0x13#8))) ∧
    (∀ i ∈ [Instr.blkEnc o p, .blkDec o p, .blkTryDec o p], 3 ≤ p.toNat → exec i s = .next (raised s 0x13#8)) ∧
    (∀ i ∈ [Instr.posEnc o p, .posDec o p, .posTryDec o p], p ≠ 3#4 → exec i s = .next (raised s 0x13#8)) ∧
    (∀ i ∈ [Instr.capMaxChar o p, .capMaxByte o p, .txtPad o p, .txtUnpad o p],
      3 < p.toNat → exec i s = .next (raised s 0x13#8)) ∧
    (∀ q, p = blockCode q → (alphabetOf s.cfg (.block q)).symbols.length ≠ blockRadix q →
      ∀ i ∈ [Instr.ctxEnc o p, .ctxDec o p, .blkEnc o p, .blkDec o p, .blkTryDec o p, .capMaxChar o p, .capMaxByte o p,
        .txtPad o p, .txtUnpad o p], exec i s = .next (raised s 0x11#8)) ∧
    (p = 3#4 → s.cfg.alpha58.symbols.length ≠ 58 →
      ∀ i ∈ [Instr.posEnc o p, .posDec o p, .posTryDec o p, .capMaxChar o p, .capMaxByte o p, .txtPad o p, .txtUnpad o p],
        exec i s = .next (raised s 0x11#8))

/-- The checks of a PUT or EOS in their order, and the closed stream (60_exceptions.md R344 item 2, R347; 10_state.md
R35, R36): no context, wrong direction, the stored fault raised again with nothing else changed, a silent no-op after
end of stream. -/
def Obligations.StreamChecks : Prop :=
  ∀ (s : State) (d : Direction) (i : Instr),
    (d = .encoder ∧ ((∃ b, i = .encPut b) ∨ i = .encEos) ∨ d = .decoder ∧ ((∃ c, i = .decPut c) ∨ i = .decEos)) →
    (s.ctx.valid = false → exec i s = .next (raised s 0x14#8)) ∧
    (s.ctx.valid = true → s.ctx.dir ≠ d → exec i s = .next (raised s 0x16#8)) ∧
    (∀ e, s.ctx.valid = true → s.ctx.dir = d → s.ctx.fault = some e → exec i s = .next (raised s (formatCode e))) ∧
    (s.ctx.valid = true → s.ctx.dir = d → s.ctx.fault = none → s.ctx.eosf = true → exec i s = .next (quiet s))

/-- CTX.ENC and CTX.DEC make a new context, every field written, whatever the old one was (10_state.md R51,
41_block_encoder.md R160, 42_block_decoder.md R200). -/
def Obligations.ContextCreation : Prop :=
  ∀ (s : State) (o : Options) (q : BlockProfile), (alphabetOf s.cfg (.block q)).symbols.length = blockRadix q →
    exec (.ctxEnc o (blockCode q)) s = .next { quiet s with ctx := ⟨true, .encoder, q, o, 0, 0, 0, 0, false, none⟩ } ∧
    exec (.ctxDec o (blockCode q)) s = .next { quiet s with ctx := ⟨true, .decoder, q, o, 0, 0, 0, 0, false, none⟩ }

/-- NOP (46_control.md R320): its word, its effect, and that no other word with its opcode is a NOP. -/
def Obligations.NopOnlyClearsReport : Prop :=
  encode .nop = 0x00000000#32 ∧ (∀ s, exec .nop s = .next (quiet s)) ∧
    (∀ (w : RegWord) (s : State), w.toNat / 2 ^ 24 = 0 → w ≠ 0#32 → issue w s = .next (raised s 0x15#8))

/-- SRST (46_control.md R321): its word; the context gone, its other fields whatever they may be, ARG, RES, LASTERR and
ABSENT cleared, everything else kept (that `freeCount`, the model's own field, counts the free context is the model's
choice, notes/assumptions/5.md); STATUS 0 afterwards; no other word with its opcode resets; no other command ends
a context. -/
def Obligations.SoftReset : Prop :=
  encode .srst = 0xFF000000#32 ∧
    (∀ s, ∃ c : Context, c.valid = false ∧
      exec .srst s = .next { quiet s with ctx := c, arg := 0, res := 0, freeCount := s.freeCount + 1 } ∧
      statusWord { quiet s with ctx := c, arg := 0, res := 0, freeCount := s.freeCount + 1 } = 0#32) ∧
    (∀ (w : RegWord) (s : State), w.toNat / 2 ^ 24 = 0xFF → w ≠ 0xFF000000#32 → issue w s = .next (raised s 0x15#8)) ∧
    (∀ (i : Instr) (s t : State), exec i s = .next t → s.ctx.valid = true → t.ctx.valid = false → i = .srst)

/-- Power-on reset (10_state.md R50, 70_reset_and_hazards.md R380), under any configuration: no context, every register
0, IN and OUT empty; until a context is made a PUT or EOS raises C_NO_CONTEXT (R381). That `State.reset` runs under the
default configuration is the model's choice (notes/assumptions/2.md). -/
def Obligations.PowerOnReset : Prop :=
  State.reset = State.powerOn defaultConfig ∧
  ∀ cfg : Config, (State.powerOn cfg).ctx.valid = false ∧ (State.powerOn cfg).arg = 0#32 ∧
    statusWord (State.powerOn cfg) = 0#32 ∧ (State.powerOn cfg).lastErr = 0#8 ∧ (State.powerOn cfg).res = 0#64 ∧
    (State.powerOn cfg).inp = [] ∧ (State.powerOn cfg).out = [] ∧ (State.powerOn cfg).cfg = cfg ∧
    (∀ i, ((∃ b, i = .encPut b) ∨ i = .encEos ∨ (∃ c, i = .decPut c) ∨ i = .decEos) →
      exec i (State.powerOn cfg) = .next (raised (State.powerOn cfg) 0x14#8))

/-- ENC.PUT of a byte that does not complete a block (41_block_encoder.md R162). -/
def Obligations.EncPutAccumulates : Prop :=
  ∀ (s : State) (b : Byte), Open .encoder s → s.ctx.mod + 1 < bytesPerBlock s.ctx.prof →
    exec (.encPut b) s =
      .next { quiet s with ctx := { s.ctx with acc := s.ctx.acc * 256 + b.toNat, mod := s.ctx.mod + 1 } }

/-- ENC.PUT of a byte that completes a block emits one group, the S base-R digits of the block as symbols, with the
separator, the line position and the line break of EmitGroup (41_block_encoder.md R162, R163, R167). -/
def Obligations.EncPutEmitsBlock : Prop :=
  ∀ (s : State) (b : Byte) (g us : List CharUnit) (pos : Nat), Open .encoder s →
    s.ctx.mod + 1 = bytesPerBlock s.ctx.prof →
    SpellsValue s.cfg s.ctx.prof (symbolsPerBlock s.ctx.prof) (s.ctx.acc * 256 + b.toNat) g →
    EmitsGroup s.cfg s.ctx g us pos →
    exec (.encPut b) s = .next { appended s us with ctx := { s.ctx with acc := 0, mod := 0, linePos := pos } }

/-- ENC.EOS: with no partial block it only ends the stream; with r bytes held it emits the partial group, the data
symbols of R161's table and, unless Unpad, padding up to S (41_block_encoder.md R161, R165, R166, R167). -/
def Obligations.EncEosFlushes : Prop :=
  (∀ s : State, Open .encoder s → s.ctx.mod = 0 →
    exec .encEos s = .next { quiet s with ctx := { s.ctx with acc := 0, mod := 0, eosf := true } }) ∧
  (∀ (s : State) (q : BlockProfile) (r n : Nat) (c : CharUnit) (g us : List CharUnit) (pos : Nat), Open .encoder s →
    (q, r, n) ∈ partialSymbols → s.ctx.prof = q → s.ctx.mod = r → padOf s.cfg (.block q) = some c →
    SpellsValue s.cfg q n (if q = .p64 then s.ctx.acc * 2 ^ (6 * n - 8 * r) else s.ctx.acc) g →
    EmitsGroup s.cfg s.ctx (if has s.ctx.opts .unpad = true then g else g ++ List.replicate (symbolsPerBlock q - n) c) us pos →
    exec .encEos s =
      .next { appended s us with ctx := { s.ctx with acc := 0, mod := 0, linePos := pos, eosf := true } })

/-- The full-block digits (41_block_encoder.md R163): S digits below the radix that spell the block; for P16 the two
nibbles, for P64 the four 6-bit groups, most significant first. -/
def Obligations.BlockDigits : Prop :=
  (∀ (q : BlockProfile) (a : Nat), a < 256 ^ bytesPerBlock q →
    (digits (blockRadix q) (symbolsPerBlock q) a).length = symbolsPerBlock q ∧
    (∀ d ∈ digits (blockRadix q) (symbolsPerBlock q) a, d < blockRadix q) ∧
    (digits (blockRadix q) (symbolsPerBlock q) a).foldl (fun x d => x * blockRadix q + d) 0 = a) ∧
  (∀ a : BitVec 8, digits 16 2 a.toNat = [(a.extractLsb' 4 4).toNat, (a.extractLsb' 0 4).toNat]) ∧
  (∀ a : BitVec 24, digits 64 4 a.toNat =
    [(a.extractLsb' 18 6).toNat, (a.extractLsb' 12 6).toNat, (a.extractLsb' 6 6).toNat, (a.extractLsb' 0 6).toNat])

/-- BLK.ENC appends what the streaming commands of ENCODE.S append, and leaves the context alone
(41_block_encoder.md R170). -/
def Obligations.BlkEncEqualsStream : Prop :=
  ∀ (s : State) (o : Options) (q : BlockProfile) (bs : List Byte),
    (alphabetOf s.cfg (.block q)).symbols.length = blockRadix q → s.inp = bs.map (BitVec.zeroExtend 16) →
    ∃ txt u, runCommands (encodeStream o q bs) s = some u ∧ u.out = s.out ++ txt ∧ u.lastErr = 0#8 ∧
      exec (.blkEnc o (blockCode q)) s = .next (appended s txt)

/-- A unit above 0x00FF in IN makes BLK.ENC and POS.ENC raise C_BAD_OPERAND before any output (20_memory.md R70). -/
def Obligations.BadOperandRaised : Prop :=
  ∀ (s : State) (o : Options), (∃ u ∈ s.inp, 0xFF < u.toNat) →
    (∀ q, (alphabetOf s.cfg (.block q)).symbols.length = blockRadix q →
      exec (.blkEnc o (blockCode q)) s = .next (raised s 0x17#8)) ∧
    (s.cfg.alpha58.symbols.length = 58 → exec (.posEnc o 3#4) s = .next (raised s 0x17#8))

/-- The number of symbols and padding characters BLK.ENC appends when it adds no separator and no line break
(41_block_encoder.md R171): whole blocks of S and the partial block's symbols, padded to S unless Unpad. -/
def Obligations.EncoderOutputLength : Prop :=
  ∀ (s : State) (o : Options) (q : BlockProfile) (bs : List Byte),
    (alphabetOf s.cfg (.block q)).symbols.length = blockRadix q → s.inp = bs.map (BitVec.zeroExtend 16) →
    has o .wrap = false → has o .indent = false →
    ∃ txt, exec (.blkEnc o (blockCode q)) s = .next (appended s txt) ∧
      (has o .unpad = true →
        txt.length = (bs.length * symbolsPerBlock q + bytesPerBlock q - 1) / bytesPerBlock q) ∧
      (has o .unpad = false →
        txt.length = bs.length / bytesPerBlock q * symbolsPerBlock q +
          (if bs.length % bytesPerBlock q = 0 then 0 else symbolsPerBlock q))

/-- The round-trip law of the block codecs (42_block_decoder.md R214). -/
def Obligations.BlockRoundTrip : Prop :=
  ∀ (s : State) (o : Options) (q : BlockProfile) (bs : List Byte), configOk s.cfg = true →
    (alphabetOf s.cfg (.block q)).symbols.length = blockRadix q →
    (∀ c, c ∈ s.cfg.newline ∨ c = 0x20#16 → indexOf s.cfg (.block q) c = none ∧ padOf s.cfg (.block q) ≠ some c) →
    ¬ (has o .padding = true ∧ q ≠ .p16 ∧ has o .unpad = true) → s.inp = bs.map (BitVec.zeroExtend 16) →
    ∃ txt, exec (.blkEnc o (blockCode q)) s = .next (appended s txt) ∧
      ∀ u : State, u.cfg = s.cfg → u.inp = txt →
        exec (.blkDec o (blockCode q)) u = .next (appended u (bs.map (BitVec.zeroExtend 16))) ∧
        exec (.blkTryDec o (blockCode q)) u = .next (appended u (bs.map (BitVec.zeroExtend 16)))

/-- DEC.PUT of a symbol that does not complete a block (42_block_decoder.md R203). -/
def Obligations.DecPutAccumulates : Prop :=
  ∀ (s : State) (c : CharUnit) (v : Nat), Open .decoder s → padOf s.cfg (.block s.ctx.prof) ≠ some c →
    indexOf s.cfg (.block s.ctx.prof) c = some v → s.ctx.padRun = 0 → s.ctx.mod + 1 < symbolsPerBlock s.ctx.prof →
    exec (.decPut c) s =
      .next { quiet s with ctx := { s.ctx with acc := s.ctx.acc * blockRadix s.ctx.prof + v, mod := s.ctx.mod + 1 } }

/-- DEC.PUT of the symbol that completes a block writes its B bytes, most significant first; a P24 value of 2^32 or
more loses its excess under Relax and is E_INSIGNIFICANT without it (42_block_decoder.md R203, R207). -/
def Obligations.DecPutWritesBlock : Prop :=
  ∀ (s : State) (c : CharUnit) (v a : Nat), Open .decoder s → padOf s.cfg (.block s.ctx.prof) ≠ some c →
    indexOf s.cfg (.block s.ctx.prof) c = some v → s.ctx.padRun = 0 → s.ctx.mod + 1 = symbolsPerBlock s.ctx.prof →
    a = s.ctx.acc * blockRadix s.ctx.prof + v →
    (a < 256 ^ bytesPerBlock s.ctx.prof ∨ s.ctx.prof = .p24 ∧ has s.ctx.opts .relax = true →
      ∃ bs : List Byte, bs.length = bytesPerBlock s.ctx.prof ∧
        valBE bs = (if s.ctx.prof = .p24 then a % 2 ^ 32 else a) ∧
        exec (.decPut c) s = .next { appended s (bs.map (BitVec.zeroExtend 16)) with ctx := { s.ctx with acc := 0, mod := 0 } }) ∧
    (s.ctx.prof = .p24 → 2 ^ 32 ≤ a → has s.ctx.opts .relax = false →
      ∃ k : Context, k.valid = true ∧ k.dir = .decoder ∧ k.prof = s.ctx.prof ∧ k.opts = s.ctx.opts ∧ k.eosf = false ∧
        k.fault = some .insignificant ∧ exec (.decPut c) s = .next { raised s 0x28#8 with ctx := k })

/-- DEC.PUT of a character that is no data: padding that is not asked for and skippable characters change nothing, any
other character fails the operation (40_alphabet.md R144, R145; 42_block_decoder.md R203, R209). -/
def Obligations.DecPutOtherCharacters : Prop :=
  ∀ (s : State) (c : CharUnit), Open .decoder s →
    (padOf s.cfg (.block s.ctx.prof) = some c → has s.ctx.opts .padding = false → exec (.decPut c) s = .next (quiet s)) ∧
    (padOf s.cfg (.block s.ctx.prof) ≠ some c → indexOf s.cfg (.block s.ctx.prof) c = none →
      (Skipped s.cfg s.ctx.opts c → exec (.decPut c) s = .next (quiet s)) ∧
      (¬ Skipped s.cfg s.ctx.opts c →
        exec (.decPut c) s = .next { raised s 0x21#8 with ctx := { s.ctx with fault := some .invalidChar } }))

/-- Padding position when Padding is requested (42_block_decoder.md R210): a run needs a data symbol before it, is
counted until it completes the block, and no data symbol may interrupt it. -/
def Obligations.PaddingPosition : Prop :=
  ∀ (s : State) (c : CharUnit), Open .decoder s → has s.ctx.opts .padding = true →
    (padOf s.cfg (.block s.ctx.prof) = some c → s.ctx.mod = 0 →
      exec (.decPut c) s = .next { raised s 0x25#8 with ctx := { s.ctx with fault := some .padPosition } }) ∧
    (padOf s.cfg (.block s.ctx.prof) = some c → 0 < s.ctx.mod →
      s.ctx.mod + s.ctx.padRun + 1 < symbolsPerBlock s.ctx.prof →
      exec (.decPut c) s = .next { quiet s with ctx := { s.ctx with padRun := s.ctx.padRun + 1 } }) ∧
    (padOf s.cfg (.block s.ctx.prof) ≠ some c → indexOf s.cfg (.block s.ctx.prof) c ≠ none → 0 < s.ctx.padRun →
      exec (.decPut c) s = .next { raised s 0x25#8 with ctx := { s.ctx with fault := some .padPosition } })

/-- The padding character that completes a block flushes it (42_block_decoder.md R206, R210): strict decoding takes a
canonical count and no insignificant bits; Relax takes any. A failed context keeps its direction, profile and options,
which STATUS reports (10_state.md R43), and has not ended. -/
def Obligations.PaddingRunFlushes : Prop :=
  ∀ (s : State) (c : CharUnit) (q : BlockProfile) (m r : Nat) (canon : Bool), Open .decoder s →
    has s.ctx.opts .padding = true → padOf s.cfg (.block s.ctx.prof) = some c → (q, m, r, canon) ∈ partialRows →
    s.ctx.prof = q → s.ctx.mod = m → m + s.ctx.padRun + 1 = symbolsPerBlock q → s.ctx.acc < blockRadix q ^ m →
    (has s.ctx.opts .relax = true ∨ canon = true ∧ (partialValue q m r s.ctx.acc).2 = 0 →
      ∃ bs : List Byte, bs.length = r ∧ valBE bs = (partialValue q m r s.ctx.acc).1 ∧
        exec (.decPut c) s =
          .next { appended s (bs.map (BitVec.zeroExtend 16)) with ctx := { s.ctx with acc := 0, mod := 0, padRun := 0 } }) ∧
    (has s.ctx.opts .relax = false → canon = false →
      ∃ k : Context, k.valid = true ∧ k.dir = .decoder ∧ k.prof = s.ctx.prof ∧ k.opts = s.ctx.opts ∧ k.eosf = false ∧
        k.fault = some .incomplete ∧ exec (.decPut c) s = .next { raised s 0x27#8 with ctx := k }) ∧
    (has s.ctx.opts .relax = false → canon = true → (partialValue q m r s.ctx.acc).2 ≠ 0 →
      ∃ k : Context, k.valid = true ∧ k.dir = .decoder ∧ k.prof = s.ctx.prof ∧ k.opts = s.ctx.opts ∧ k.eosf = false ∧
        k.fault = some .insignificant ∧ exec (.decPut c) s = .next { raised s 0x28#8 with ctx := k })

/-- DEC.EOS (42_block_decoder.md R206, R208): nothing held ends the stream; a partial block is flushed as R206 says, or
is E_PAD_MISSING when Padding is requested; an error leaves EOSF 0. -/
def Obligations.DecEosFlushes : Prop :=
  (∀ s : State, Open .decoder s → s.ctx.mod = 0 →
    exec .decEos s = .next { quiet s with ctx := { s.ctx with acc := 0, mod := 0, padRun := 0, eosf := true } }) ∧
  (∀ (s : State) (q : BlockProfile) (m r : Nat) (canon : Bool), Open .decoder s → (q, m, r, canon) ∈ partialRows →
    s.ctx.prof = q → s.ctx.mod = m → s.ctx.acc < blockRadix q ^ m →
    (has s.ctx.opts .padding = true → q ≠ .p16 →
      exec .decEos s = .next { raised s 0x26#8 with ctx := { s.ctx with fault := some .padMissing } }) ∧
    (has s.ctx.opts .padding = false ∨ q = .p16 →
      (has s.ctx.opts .relax = true ∨ canon = true ∧ (partialValue q m r s.ctx.acc).2 = 0 →
        ∃ bs : List Byte, bs.length = r ∧ valBE bs = (partialValue q m r s.ctx.acc).1 ∧
          exec .decEos s = .next { appended s (bs.map (BitVec.zeroExtend 16)) with
            ctx := { s.ctx with acc := 0, mod := 0, padRun := 0, eosf := true } }) ∧
      (has s.ctx.opts .relax = false → canon = false →
        exec .decEos s = .next { raised s 0x27#8 with ctx := { s.ctx with fault := some .incomplete } }) ∧
      (has s.ctx.opts .relax = false → canon = true → (partialValue q m r s.ctx.acc).2 ≠ 0 →
        exec .decEos s = .next { raised s 0x28#8 with ctx := { s.ctx with fault := some .insignificant } })))

/-- The table of partial counts (42_block_decoder.md R205): the bytes covered, the insignificant part, and that a count
is canonical exactly when the encoder emits it for some partial block. -/
def Obligations.PartialCountTable : Prop :=
  (∀ row ∈ partialRows, nbytes row.1 row.2.1 = row.2.2.1 ∧ canonical row.1 row.2.1 = row.2.2.2) ∧
  (∀ row ∈ partialRows, ∀ acc, splitPartial row.1 row.2.1 acc = partialValue row.1 row.2.1 row.2.2.1 acc) ∧
  (∀ row ∈ partialSymbols, nsym row.1 row.2.1 = row.2.2) ∧
  (∀ q m, canonical q m = true ↔ ∃ r, 0 < r ∧ r < bytesPerBlock q ∧ nsym q r = m)

/-- BLK.DEC by the general engine gives what the streaming commands of DECODE.S give: the same bytes when the stream
ends without a fault, else the stream's error, with OUT unchanged (42_block_decoder.md R212). -/
def Obligations.BlkDecEqualsStream : Prop :=
  ∀ (s : State) (o : Options) (q : BlockProfile), (alphabetOf s.cfg (.block q)).symbols.length = blockRadix q →
    fastEligible s.cfg q o = false →
    ∃ u, runCommands (decodeStream o q s.inp) s = some u ∧
      (u.ctx.fault = none → u.lastErr = 0#8 ∧ u.ctx.eosf = true ∧
        ∃ bs, u.out = s.out ++ bs ∧ exec (.blkDec o (blockCode q)) s = .next (appended s bs)) ∧
      (∀ e, u.ctx.fault = some e → u.lastErr = formatCode e ∧
        exec (.blkDec o (blockCode q)) s = .next (raised s (formatCode e)))

/-- A TRY command is its raising form with every format error turned into absence; other errors stay raised
(42_block_decoder.md R213, 43_positional.md R255, 45_fastpath.md R302, 60_exceptions.md R340). -/
def Obligations.TryConvertsFormatErrors : Prop :=
  ∀ (s t : State) (i j : Instr),
    (∃ o p, i = .blkDec o p ∧ j = .blkTryDec o p ∨ i = .posDec o p ∧ j = .posTryDec o p) ∨ (i = .hexFDec ∧ j = .hexTryFDec) →
    exec i s = .next t →
    (classFormat t.lastErr → exec j s = .next (absentState s)) ∧ (¬ classFormat t.lastErr → exec j s = .next t)

/-- HEX.FDEC and HEX.TRYFDEC on pairs of hex digits append one byte a pair (45_fastpath.md R301, R302, R304). -/
def Obligations.HexDecodes : Prop :=
  ∀ (s : State) (ps : List ((CharUnit × CharUnit) × (Fin 16 × Fin 16))),
    (∀ q ∈ ps, hexval q.1.1 = some q.2.1.val ∧ hexval q.1.2 = some q.2.2.val) →
    s.inp = ps.flatMap (fun q => [q.1.1, q.1.2]) →
    exec .hexFDec s = .next (appended s (ps.map (fun q => BitVec.ofNat 16 (q.2.1.val * 16 + q.2.2.val)))) ∧
    exec .hexTryFDec s = .next (appended s (ps.map (fun q => BitVec.ofNat 16 (q.2.1.val * 16 + q.2.2.val))))

/-- The errors of the fast path: an odd length first, then a character outside the three ranges, which are these
(45_fastpath.md R301, R304). -/
def Obligations.HexErrors : Prop :=
  (∀ s : State, s.inp.length % 2 = 1 →
    exec .hexFDec s = .next (raised s 0x22#8) ∧ exec .hexTryFDec s = .next (absentState s)) ∧
  (∀ s : State, s.inp.length % 2 = 0 → (∃ c ∈ s.inp, hexval c = none) →
    exec .hexFDec s = .next (raised s 0x21#8) ∧ exec .hexTryFDec s = .next (absentState s)) ∧
  (∀ (c : CharUnit) (v : Nat), hexval c = some v ↔ (v < 10 ∧ c.toNat = 0x30 + v) ∨ (10 ≤ v ∧ v < 16 ∧
    (c.toNat = 0x41 + (v - 10) ∨ c.toNat = 0x61 + (v - 10))))

/-- The fast path and the general engine agree under the options it serves (45_fastpath.md R303): success on the same
texts, the same bytes, and the two codes for an odd count of symbols; BLK.DEC takes the fast path then. -/
def Obligations.FastPathEquivalence : Prop :=
  ∀ (s : State) (o : Options), fastEligible s.cfg .p16 o = true →
    ∃ t u, exec .hexFDec s = .next t ∧ exec (.blkDec o (blockCode .p16)) s = .next t ∧
      runCommands (decodeStream o .p16 s.inp) s = some u ∧ (t.lastErr = 0#8 ↔ u.ctx.fault = none) ∧
      (t.lastErr = 0#8 → t.out = u.out) ∧
      (s.inp.length % 2 = 1 → (∀ c ∈ s.inp, indexOf s.cfg (.block .p16) c ≠ none) →
        t.lastErr = 0x22#8 ∧ u.lastErr = 0x27#8)

/-- The positional codec round-trips under every options value, the checksum among them (43_positional.md R258). -/
def Obligations.PositionalRoundTrip : Prop :=
  ∀ (s : State) (o : Options) (bs : List Byte), configOk s.cfg = true → s.cfg.alpha58.symbols.length = 58 →
    s.inp = bs.map (BitVec.zeroExtend 16) →
    ∃ txt, exec (.posEnc o 3#4) s = .next (appended s txt) ∧
      ∀ u : State, u.cfg = s.cfg → u.inp = txt →
        exec (.posDec o 3#4) u = .next (appended u (bs.map (BitVec.zeroExtend 16))) ∧
        exec (.posTryDec o 3#4) u = .next (appended u (bs.map (BitVec.zeroExtend 16)))

/-- Leading zero bytes become as many zero-symbols, no more, and come back (43_positional.md R257). -/
def Obligations.LeadingZeroPreservation : Prop :=
  ∀ (s : State) (o : Options) (k : Nat) (rest : List Byte), configOk s.cfg = true → s.cfg.alpha58.symbols.length = 58 →
    has o .checksum = false → rest.head? ≠ some 0#8 →
    s.inp = (List.replicate k 0#8 ++ rest).map (BitVec.zeroExtend 16) →
    ∃ z more, symbolAt s.cfg .p58 0 = some z ∧ more.head? ≠ some z ∧
      exec (.posEnc o 3#4) s = .next (appended s (List.replicate k z ++ more)) ∧
      ∀ u : State, u.cfg = s.cfg → u.inp = List.replicate k z ++ more →
        exec (.posDec o 3#4) u = .next (appended u ((List.replicate k 0#8 ++ rest).map (BitVec.zeroExtend 16)))

/-- What POS.ENC writes, and its length (43_positional.md R252, R260): a zero-symbol for each of the k leading zero
bytes of the payload, then the symbols of the j base-58 digits of the rest, most significant first, never more symbols
than the least c with 58^c at least 256^m. Under Checksum the payload ends in the first 4 bytes of HASH(HASH(d))
(R251), whatever function HASH is. -/
def Obligations.PositionalOutputLength : Prop :=
  ∀ (s : State) (o : Options) (bs rest : List Byte) (k j : Nat), s.cfg.alpha58.symbols.length = 58 →
    s.inp = bs.map (BitVec.zeroExtend 16) →
    (if has o .checksum = true then bs ++ (digestBytes (hashWith s.cfg.hash (digestBytes (hashWith s.cfg.hash bs)))).take 4
      else bs) = List.replicate k 0#8 ++ rest →
    rest.head? ≠ some 0#8 → valBE rest < 58 ^ j → (∀ i < j, 58 ^ i ≤ valBE rest) →
    ∃ (z : CharUnit) (ds : List Nat) (more : List CharUnit), symbolAt s.cfg .p58 0 = some z ∧
      ds.length = j ∧ (∀ d ∈ ds, d < 58) ∧ ds.foldl (fun x d => x * 58 + d) 0 = valBE rest ∧
      ds.map (symbolAt s.cfg .p58) = more.map some ∧
      exec (.posEnc o 3#4) s = .next (appended s (List.replicate k z ++ more)) ∧
      (List.replicate k z ++ more).length = k + j ∧
      ∀ c, 256 ^ (bs.length + if has o .checksum = true then 4 else 0) ≤ 58 ^ c → k + j ≤ c

/-- Checksum verification (43_positional.md R256). The converted payload d of a text is what POS.DEC appends under the
same options with Checksum cleared: shorter than 4 bytes, a tag that does not match the rest, a tag that does and is
stripped. The tag of x is the first 4 bytes of HASH(HASH(x)) (R251), whatever function HASH is. -/
def Obligations.ChecksumVerified : Prop :=
  ∀ (s : State) (o : Options) (d : List Byte), has o .checksum = true →
    exec (.posDec (o &&& 0xBF#8) 3#4) s = .next (appended s (d.map (BitVec.zeroExtend 16))) →
    (d.length < 4 → exec (.posDec o 3#4) s = .next (raised s 0x24#8)) ∧
    (∀ x tag : List Byte, d = x ++ tag → tag.length = 4 →
      ((digestBytes (hashWith s.cfg.hash (digestBytes (hashWith s.cfg.hash x)))).take 4 = tag →
        exec (.posDec o 3#4) s = .next (appended s (x.map (BitVec.zeroExtend 16)))) ∧
      ((digestBytes (hashWith s.cfg.hash (digestBytes (hashWith s.cfg.hash x)))).take 4 ≠ tag →
        exec (.posDec o 3#4) s = .next (raised s 0x23#8)))

/-- Symbol filtering on positional decode (43_positional.md R253): an invalid character fails the decode; otherwise the
result is that of the text with its skippable characters dropped, and each symbol counts with the value its lookup
gives, synonyms and both cases among them: without Checksum a zero byte for each of the k leading zeros of the values,
then the bytes of the rest's base-58 value with no leading zero byte (R254). -/
def Obligations.PositionalFiltering : Prop :=
  ∀ (s : State) (o : Options), s.cfg.alpha58.symbols.length = 58 →
    ((∃ c ∈ s.inp, indexOf s.cfg .p58 c = none ∧ ¬ Skipped s.cfg o c) →
      exec (.posDec o 3#4) s = .next (raised s 0x21#8)) ∧
    ((∀ c ∈ s.inp, indexOf s.cfg .p58 c = none → Skipped s.cfg o c) →
      ∃ t, exec (.posDec o 3#4) { s with inp := s.inp.filter (fun c => (indexOf s.cfg .p58 c).isSome) } = .next t ∧
        exec (.posDec o 3#4) s = .next { t with inp := s.inp }) ∧
    (∀ (k : Nat) (vs : List Nat), (∀ c ∈ s.inp, indexOf s.cfg .p58 c = none → Skipped s.cfg o c) →
      s.inp.filterMap (indexOf s.cfg .p58) = List.replicate k 0 ++ vs → vs.head? ≠ some 0 → has o .checksum = false →
      ∃ bs : List Byte, bs.head? ≠ some 0#8 ∧ valBE bs = vs.foldl (fun x v => x * 58 + v) 0 ∧
        exec (.posDec o 3#4) s = .next (appended s ((List.replicate k 0#8 ++ bs).map (BitVec.zeroExtend 16))))

/-- The result of CAP.MAXCHAR (44_capacity.md R280, R281), for a NEWLINE shorter than 2^29. -/
def Obligations.MaxCharResult : Prop :=
  ∀ (s : State) (o : Options), s.cfg.newline.length < 2 ^ 29 →
    (∀ q c, (alphabetOf s.cfg (.block q)).symbols.length = blockRadix q →
      c = (if has o .unpad = true then (s.arg.toNat * symbolsPerBlock q + bytesPerBlock q - 1) / bytesPerBlock q
        else (s.arg.toNat + bytesPerBlock q - 1) / bytesPerBlock q * symbolsPerBlock q) →
      ∃ r : BitVec 64, exec (.capMaxChar o (blockCode q)) s = .next { quiet s with res := r } ∧
        r.toNat = c +
          (if has o .wrap = true ∨ (q = .p24 ∧ has o .indent = true) then c / lineWidth s.cfg q * s.cfg.newline.length else 0) +
          (if has o .indent = true ∧ q ≠ .p24 then (s.arg.toNat + bytesPerBlock q - 1) / bytesPerBlock q else 0)) ∧
    (s.cfg.alpha58.symbols.length = 58 →
      ∃ r : BitVec 64, exec (.capMaxChar o 3#4) s = .next { quiet s with res := r } ∧
        256 ^ (s.arg.toNat + if has o .checksum = true then 4 else 0) ≤ 58 ^ r.toNat ∧
        ∀ c < r.toNat, 58 ^ c < 256 ^ (s.arg.toNat + if has o .checksum = true then 4 else 0))

/-- The result of CAP.MAXBYTE (44_capacity.md R282). -/
def Obligations.MaxByteResult : Prop :=
  ∀ (s : State) (o : Options),
    (∀ q, (alphabetOf s.cfg (.block q)).symbols.length = blockRadix q →
      ∃ r : BitVec 64, exec (.capMaxByte o (blockCode q)) s = .next { quiet s with res := r } ∧
        r.toNat = (s.arg.toNat * bytesPerBlock q + symbolsPerBlock q - 1) / symbolsPerBlock q) ∧
    (s.cfg.alpha58.symbols.length = 58 →
      ∃ r : BitVec 64, exec (.capMaxByte o 3#4) s = .next { quiet s with res := r } ∧ r.toNat = s.arg.toNat)

/-- MaxChar soundness (44_capacity.md R283): what BLK.ENC or POS.ENC appends for n bytes is at most what CAP.MAXCHAR
writes for ARG = n. NEWLINE is shorter than 2^29, as R281 assumes. -/
def Obligations.MaxCharSound : Prop :=
  ∀ (s u : State) (o : Options) (bs : List Byte), configOk s.cfg = true → s.cfg.newline.length < 2 ^ 29 →
    s.inp = bs.map (BitVec.zeroExtend 16) → bs.length < 2 ^ 32 → u.cfg = s.cfg → u.arg = BitVec.ofNat 32 bs.length →
    (∀ q, (alphabetOf s.cfg (.block q)).symbols.length = blockRadix q →
      ∃ txt r, exec (.blkEnc o (blockCode q)) s = .next (appended s txt) ∧
        exec (.capMaxChar o (blockCode q)) u = .next { quiet u with res := r } ∧ txt.length ≤ r.toNat) ∧
    (s.cfg.alpha58.symbols.length = 58 →
      ∃ txt r, exec (.posEnc o 3#4) s = .next (appended s txt) ∧
        exec (.capMaxChar o 3#4) u = .next { quiet u with res := r } ∧ txt.length ≤ r.toNat)

/-- MaxByte soundness (44_capacity.md R284): what a successful BLK.DEC or POS.DEC of m characters appends is at most
what CAP.MAXBYTE writes for ARG = m. -/
def Obligations.MaxByteSound : Prop :=
  ∀ (s t u : State) (o o' : Options) (p : ProfCode) (i : Instr), (i = .blkDec o p ∨ i = .posDec o p) →
    s.inp.length < 2 ^ 32 → exec i s = .next t → t.lastErr = 0#8 → u.cfg = s.cfg →
    u.arg = BitVec.ofNat 32 s.inp.length →
    ∃ r : BitVec 64, exec (.capMaxByte o' p) u = .next { quiet u with res := r } ∧ t.out.length ≤ s.out.length + r.toNat

/-- TXT.PAD and TXT.UNPAD (42_block_decoder.md R215, R216): the identity where there is no padding character; else
padding up to a whole number of blocks, counting symbols and padding, and the longest padding suffix removed. -/
def Obligations.PaddingText : Prop :=
  ∀ (s : State) (o : Options),
    (s.cfg.alpha16.symbols.length = 16 → exec (.txtPad o 0#4) s = .next (appended s s.inp) ∧
      exec (.txtUnpad o 0#4) s = .next (appended s s.inp)) ∧
    (s.cfg.alpha58.symbols.length = 58 → exec (.txtPad o 3#4) s = .next (appended s s.inp) ∧
      exec (.txtUnpad o 3#4) s = .next (appended s s.inp)) ∧
    (∀ q c, (alphabetOf s.cfg (.block q)).symbols.length = blockRadix q → padOf s.cfg (.block q) = some c →
      (∃ j, j < symbolsPerBlock q ∧
        (s.inp.countP (fun x => x == c || (indexOf s.cfg (.block q) x).isSome) + j) % symbolsPerBlock q = 0 ∧
        exec (.txtPad o (blockCode q)) s = .next (appended s (s.inp ++ List.replicate j c))) ∧
      (∀ keep j, s.inp = keep ++ List.replicate j c → keep.getLast? ≠ some c →
        exec (.txtUnpad o (blockCode q)) s = .next (appended s keep)))

/-- TXT.PAD and TXT.UNPAD applied to their own result change nothing (42_block_decoder.md R217). -/
def Obligations.PaddingIdempotent : Prop :=
  ∀ (s u : State) (o : Options) (p : ProfCode) (i : Instr) (txt : List CharUnit), (i = .txtPad o p ∨ i = .txtUnpad o p) →
    exec i s = .next (appended s txt) → u.cfg = s.cfg → u.inp = txt → exec i u = .next (appended u txt)

/-- Every step keeps the invariant: the bounds of the context (10_state.md R31 to R35), a LASTERR of the code table
(60_exceptions.md R341), IN within `MAX_IN` (20_memory.md R70). -/
def Obligations.StepKeepsInvariant : Prop := ∀ s t : State, Inv s → step s = .next t → Inv t

/-- Power-on under any configuration meets the invariant. -/
def Obligations.ResetMeetsInvariant : Prop := (∀ cfg, Inv (State.powerOn cfg)) ∧ Inv State.reset

/-- The internal errors (60_exceptions.md R343): the modulus is checked at ENC.EOS and DEC.EOS and a digit at SymbolAt, a
check that fails changes nothing but the report (the model's choice between R343's two treatments,
notes/assumptions/11.md), and no sequence of host actions from power-on, under any
configuration, makes either check true. -/
def Obligations.InternalErrorsUnreachable : Prop :=
  (∀ s : State, Open .encoder s → bytesPerBlock s.ctx.prof ≤ s.ctx.mod → exec .encEos s = .next (raised s 0x31#8)) ∧
  (∀ s : State, Open .decoder s → symbolsPerBlock s.ctx.prof ≤ s.ctx.mod → exec .decEos s = .next (raised s 0x31#8)) ∧
  (∀ (cfg : Config) (p : Profile) (ds : List Nat), (∃ d ∈ ds, radixOf p ≤ d) →
    symbolsAt cfg p ds = .error (.internal .symbolRange)) ∧
  (∀ s : State, finish (commit (s.setAbsent false) (.error (.internal .symbolRange))) = raised s 0x32#8 ∧
    finish (encStream (s.setAbsent false) (.error (.internal .symbolRange))) = raised s 0x32#8) ∧
  (∀ (cfg : Config) (acts : List HostAction) (k : Nat) (t : State),
    Sys2Proof.core.run k { State.powerOn cfg with host := acts } = .next t → t.lastErr ≠ 0x31#8 ∧ t.lastErr ≠ 0x32#8)

/-- No step changes the configuration (10_state.md R48). -/
def Obligations.ConfigurationImmutable : Prop := ∀ s t : State, step s = .next t → t.cfg = s.cfg

/-- A command other than the context commands neither reads nor changes the streaming context (41_block_encoder.md
R170, 42_block_decoder.md R212, 43_positional.md R250, 44_capacity.md): with any other context it does the same. -/
def Obligations.ContextNotRead : Prop :=
  ∀ (i : Instr) (s t : State) (k : Context), usesContext i = false → exec i s = .next t →
    exec i { s with ctx := k } = .next { t with ctx := k }

/-- No rule depends on the byte order of the bus (20_memory.md R75). -/
def Obligations.BusEndianIrrelevant : Prop :=
  ∀ (i : Instr) (s t : State) (e : Endian), exec i s = .next t →
    exec i { s with cfg := { s.cfg with busEndian := e } } = .next { t with cfg := { t.cfg with busEndian := e } }

/-- A flag that a command does not read has no effect on it (30_encoding.md R112, row by row of its table). A streaming
context latches its options: what CTX.ENC and CTX.DEC make differs in OPTS alone, and a PUT or EOS under options that
agree on the flags it reads does the same and keeps the options it has. -/
def Obligations.UnreadFlagsHaveNoEffect : Prop :=
  ∀ (s : State) (o o' : Options) (p : ProfCode),
    (∀ i j, (i = .ctxEnc o p ∧ j = .ctxEnc o' p) ∨ (i = .ctxDec o p ∧ j = .ctxDec o' p) →
      ∃ t t', exec i s = .next t ∧ exec j s = .next t' ∧ t' = { t with ctx := { t.ctx with opts := t'.ctx.opts } }) ∧
    (SameFlags [.unpad, .wrap, .indent] o o' →
      (∀ i t, ((∃ b, i = .encPut b) ∨ i = .encEos) → exec i { s with ctx := { s.ctx with opts := o } } = .next t →
        exec i { s with ctx := { s.ctx with opts := o' } } = .next { t with ctx := { t.ctx with opts := o' } }) ∧
      exec (.blkEnc o p) s = exec (.blkEnc o' p) s ∧
      (p ≠ 3#4 → exec (.capMaxChar o p) s = exec (.capMaxChar o' p) s)) ∧
    (SameFlags [.relax, .pure, .wrap, .indent] o o' →
      (∀ i t, (has o .padding = has o' .padding ∨ s.ctx.prof = .p16) → ((∃ c, i = .decPut c) ∨ i = .decEos) →
        exec i { s with ctx := { s.ctx with opts := o } } = .next t →
        exec i { s with ctx := { s.ctx with opts := o' } } = .next { t with ctx := { t.ctx with opts := o' } }) ∧
      (has o .padding = has o' .padding ∨ p = 0#4 →
        exec (.blkDec o p) s = exec (.blkDec o' p) s ∧ exec (.blkTryDec o p) s = exec (.blkTryDec o' p) s) ∧
      (has o .checksum = has o' .checksum →
        exec (.posDec o p) s = exec (.posDec o' p) s ∧ exec (.posTryDec o p) s = exec (.posTryDec o' p) s)) ∧
    (SameFlags [.checksum] o o' →
      exec (.posEnc o p) s = exec (.posEnc o' p) s ∧
      (p = 3#4 → exec (.capMaxChar o p) s = exec (.capMaxChar o' p) s)) ∧
    exec (.capMaxByte o p) s = exec (.capMaxByte o' p) s ∧ exec (.txtPad o p) s = exec (.txtPad o' p) s ∧
    exec (.txtUnpad o p) s = exec (.txtUnpad o' p) s
end

