-- ==== Sys2Proof/Laws/State.lean ====
section
/-! SUPPORT. One lemma per field per update of the state, true by rfl, so that no proof unfolds a record update. -/

namespace Sys2Proof.Machine

@[simp] theorem State.setCtx_cfg (s : State) (t : Context) : (s.setCtx t).cfg = s.cfg := rfl
@[simp] theorem State.setCtx_ctx (s : State) (t : Context) : (s.setCtx t).ctx = t := rfl
@[simp] theorem State.setCtx_arg (s : State) (t : Context) : (s.setCtx t).arg = s.arg := rfl
@[simp] theorem State.setCtx_absent (s : State) (t : Context) : (s.setCtx t).absent = s.absent := rfl
@[simp] theorem State.setCtx_lastErr (s : State) (t : Context) : (s.setCtx t).lastErr = s.lastErr := rfl
@[simp] theorem State.setCtx_res (s : State) (t : Context) : (s.setCtx t).res = s.res := rfl
@[simp] theorem State.setCtx_inp (s : State) (t : Context) : (s.setCtx t).inp = s.inp := rfl
@[simp] theorem State.setCtx_out (s : State) (t : Context) : (s.setCtx t).out = s.out := rfl
@[simp] theorem State.setCtx_pc (s : State) (t : Context) : (s.setCtx t).pc = s.pc := rfl
@[simp] theorem State.setCtx_host (s : State) (t : Context) : (s.setCtx t).host = s.host := rfl
@[simp] theorem State.setCtx_busData (s : State) (t : Context) : (s.setCtx t).busData = s.busData := rfl
@[simp] theorem State.setCtx_outView (s : State) (t : Context) : (s.setCtx t).outView = s.outView := rfl
@[simp] theorem State.setCtx_freeCount (s : State) (t : Context) : (s.setCtx t).freeCount = s.freeCount := rfl

@[simp] theorem State.setArg_cfg (s : State) (v : RegWord) : (s.setArg v).cfg = s.cfg := rfl
@[simp] theorem State.setArg_ctx (s : State) (v : RegWord) : (s.setArg v).ctx = s.ctx := rfl
@[simp] theorem State.setArg_arg (s : State) (v : RegWord) : (s.setArg v).arg = v := rfl
@[simp] theorem State.setArg_absent (s : State) (v : RegWord) : (s.setArg v).absent = s.absent := rfl
@[simp] theorem State.setArg_lastErr (s : State) (v : RegWord) : (s.setArg v).lastErr = s.lastErr := rfl
@[simp] theorem State.setArg_res (s : State) (v : RegWord) : (s.setArg v).res = s.res := rfl
@[simp] theorem State.setArg_inp (s : State) (v : RegWord) : (s.setArg v).inp = s.inp := rfl
@[simp] theorem State.setArg_out (s : State) (v : RegWord) : (s.setArg v).out = s.out := rfl
@[simp] theorem State.setArg_pc (s : State) (v : RegWord) : (s.setArg v).pc = s.pc := rfl
@[simp] theorem State.setArg_host (s : State) (v : RegWord) : (s.setArg v).host = s.host := rfl
@[simp] theorem State.setArg_busData (s : State) (v : RegWord) : (s.setArg v).busData = s.busData := rfl
@[simp] theorem State.setArg_outView (s : State) (v : RegWord) : (s.setArg v).outView = s.outView := rfl
@[simp] theorem State.setArg_freeCount (s : State) (v : RegWord) : (s.setArg v).freeCount = s.freeCount := rfl

@[simp] theorem State.setAbsent_cfg (s : State) (b : Bool) : (s.setAbsent b).cfg = s.cfg := rfl
@[simp] theorem State.setAbsent_ctx (s : State) (b : Bool) : (s.setAbsent b).ctx = s.ctx := rfl
@[simp] theorem State.setAbsent_arg (s : State) (b : Bool) : (s.setAbsent b).arg = s.arg := rfl
@[simp] theorem State.setAbsent_absent (s : State) (b : Bool) : (s.setAbsent b).absent = b := rfl
@[simp] theorem State.setAbsent_lastErr (s : State) (b : Bool) : (s.setAbsent b).lastErr = s.lastErr := rfl
@[simp] theorem State.setAbsent_res (s : State) (b : Bool) : (s.setAbsent b).res = s.res := rfl
@[simp] theorem State.setAbsent_inp (s : State) (b : Bool) : (s.setAbsent b).inp = s.inp := rfl
@[simp] theorem State.setAbsent_out (s : State) (b : Bool) : (s.setAbsent b).out = s.out := rfl
@[simp] theorem State.setAbsent_pc (s : State) (b : Bool) : (s.setAbsent b).pc = s.pc := rfl
@[simp] theorem State.setAbsent_host (s : State) (b : Bool) : (s.setAbsent b).host = s.host := rfl
@[simp] theorem State.setAbsent_busData (s : State) (b : Bool) : (s.setAbsent b).busData = s.busData := rfl
@[simp] theorem State.setAbsent_outView (s : State) (b : Bool) : (s.setAbsent b).outView = s.outView := rfl
@[simp] theorem State.setAbsent_freeCount (s : State) (b : Bool) : (s.setAbsent b).freeCount = s.freeCount := rfl

@[simp] theorem State.setLastErr_cfg (s : State) (c : BitVec 8) : (s.setLastErr c).cfg = s.cfg := rfl
@[simp] theorem State.setLastErr_ctx (s : State) (c : BitVec 8) : (s.setLastErr c).ctx = s.ctx := rfl
@[simp] theorem State.setLastErr_arg (s : State) (c : BitVec 8) : (s.setLastErr c).arg = s.arg := rfl
@[simp] theorem State.setLastErr_absent (s : State) (c : BitVec 8) : (s.setLastErr c).absent = s.absent := rfl
@[simp] theorem State.setLastErr_lastErr (s : State) (c : BitVec 8) : (s.setLastErr c).lastErr = c := rfl
@[simp] theorem State.setLastErr_res (s : State) (c : BitVec 8) : (s.setLastErr c).res = s.res := rfl
@[simp] theorem State.setLastErr_inp (s : State) (c : BitVec 8) : (s.setLastErr c).inp = s.inp := rfl
@[simp] theorem State.setLastErr_out (s : State) (c : BitVec 8) : (s.setLastErr c).out = s.out := rfl
@[simp] theorem State.setLastErr_pc (s : State) (c : BitVec 8) : (s.setLastErr c).pc = s.pc := rfl
@[simp] theorem State.setLastErr_host (s : State) (c : BitVec 8) : (s.setLastErr c).host = s.host := rfl
@[simp] theorem State.setLastErr_busData (s : State) (c : BitVec 8) : (s.setLastErr c).busData = s.busData := rfl
@[simp] theorem State.setLastErr_outView (s : State) (c : BitVec 8) : (s.setLastErr c).outView = s.outView := rfl
@[simp] theorem State.setLastErr_freeCount (s : State) (c : BitVec 8) : (s.setLastErr c).freeCount = s.freeCount := rfl

@[simp] theorem State.setRes_cfg (s : State) (v : BitVec 64) : (s.setRes v).cfg = s.cfg := rfl
@[simp] theorem State.setRes_ctx (s : State) (v : BitVec 64) : (s.setRes v).ctx = s.ctx := rfl
@[simp] theorem State.setRes_arg (s : State) (v : BitVec 64) : (s.setRes v).arg = s.arg := rfl
@[simp] theorem State.setRes_absent (s : State) (v : BitVec 64) : (s.setRes v).absent = s.absent := rfl
@[simp] theorem State.setRes_lastErr (s : State) (v : BitVec 64) : (s.setRes v).lastErr = s.lastErr := rfl
@[simp] theorem State.setRes_res (s : State) (v : BitVec 64) : (s.setRes v).res = v := rfl
@[simp] theorem State.setRes_inp (s : State) (v : BitVec 64) : (s.setRes v).inp = s.inp := rfl
@[simp] theorem State.setRes_out (s : State) (v : BitVec 64) : (s.setRes v).out = s.out := rfl
@[simp] theorem State.setRes_pc (s : State) (v : BitVec 64) : (s.setRes v).pc = s.pc := rfl
@[simp] theorem State.setRes_host (s : State) (v : BitVec 64) : (s.setRes v).host = s.host := rfl
@[simp] theorem State.setRes_busData (s : State) (v : BitVec 64) : (s.setRes v).busData = s.busData := rfl
@[simp] theorem State.setRes_outView (s : State) (v : BitVec 64) : (s.setRes v).outView = s.outView := rfl
@[simp] theorem State.setRes_freeCount (s : State) (v : BitVec 64) : (s.setRes v).freeCount = s.freeCount := rfl

@[simp] theorem State.setIn_cfg (s : State) (us : List CharUnit) : (s.setIn us).cfg = s.cfg := rfl
@[simp] theorem State.setIn_ctx (s : State) (us : List CharUnit) : (s.setIn us).ctx = s.ctx := rfl
@[simp] theorem State.setIn_arg (s : State) (us : List CharUnit) : (s.setIn us).arg = s.arg := rfl
@[simp] theorem State.setIn_absent (s : State) (us : List CharUnit) : (s.setIn us).absent = s.absent := rfl
@[simp] theorem State.setIn_lastErr (s : State) (us : List CharUnit) : (s.setIn us).lastErr = s.lastErr := rfl
@[simp] theorem State.setIn_res (s : State) (us : List CharUnit) : (s.setIn us).res = s.res := rfl
@[simp] theorem State.setIn_inp (s : State) (us : List CharUnit) : (s.setIn us).inp = us := rfl
@[simp] theorem State.setIn_out (s : State) (us : List CharUnit) : (s.setIn us).out = s.out := rfl
@[simp] theorem State.setIn_pc (s : State) (us : List CharUnit) : (s.setIn us).pc = s.pc := rfl
@[simp] theorem State.setIn_host (s : State) (us : List CharUnit) : (s.setIn us).host = s.host := rfl
@[simp] theorem State.setIn_busData (s : State) (us : List CharUnit) : (s.setIn us).busData = s.busData := rfl
@[simp] theorem State.setIn_outView (s : State) (us : List CharUnit) : (s.setIn us).outView = s.outView := rfl
@[simp] theorem State.setIn_freeCount (s : State) (us : List CharUnit) : (s.setIn us).freeCount = s.freeCount := rfl

@[simp] theorem State.appendOut_cfg (s : State) (us : List CharUnit) : (s.appendOut us).cfg = s.cfg := rfl
@[simp] theorem State.appendOut_ctx (s : State) (us : List CharUnit) : (s.appendOut us).ctx = s.ctx := rfl
@[simp] theorem State.appendOut_arg (s : State) (us : List CharUnit) : (s.appendOut us).arg = s.arg := rfl
@[simp] theorem State.appendOut_absent (s : State) (us : List CharUnit) : (s.appendOut us).absent = s.absent := rfl
@[simp] theorem State.appendOut_lastErr (s : State) (us : List CharUnit) : (s.appendOut us).lastErr = s.lastErr := rfl
@[simp] theorem State.appendOut_res (s : State) (us : List CharUnit) : (s.appendOut us).res = s.res := rfl
@[simp] theorem State.appendOut_inp (s : State) (us : List CharUnit) : (s.appendOut us).inp = s.inp := rfl
@[simp] theorem State.appendOut_out (s : State) (us : List CharUnit) : (s.appendOut us).out = s.out ++ us := rfl
@[simp] theorem State.appendOut_pc (s : State) (us : List CharUnit) : (s.appendOut us).pc = s.pc := rfl
@[simp] theorem State.appendOut_host (s : State) (us : List CharUnit) : (s.appendOut us).host = s.host := rfl
@[simp] theorem State.appendOut_busData (s : State) (us : List CharUnit) : (s.appendOut us).busData = s.busData := rfl
@[simp] theorem State.appendOut_outView (s : State) (us : List CharUnit) : (s.appendOut us).outView = s.outView := rfl
@[simp] theorem State.appendOut_freeCount (s : State) (us : List CharUnit) : (s.appendOut us).freeCount = s.freeCount := rfl

@[simp] theorem State.dropOut_cfg (s : State) (n : Nat) : (s.dropOut n).cfg = s.cfg := rfl
@[simp] theorem State.dropOut_ctx (s : State) (n : Nat) : (s.dropOut n).ctx = s.ctx := rfl
@[simp] theorem State.dropOut_arg (s : State) (n : Nat) : (s.dropOut n).arg = s.arg := rfl
@[simp] theorem State.dropOut_absent (s : State) (n : Nat) : (s.dropOut n).absent = s.absent := rfl
@[simp] theorem State.dropOut_lastErr (s : State) (n : Nat) : (s.dropOut n).lastErr = s.lastErr := rfl
@[simp] theorem State.dropOut_res (s : State) (n : Nat) : (s.dropOut n).res = s.res := rfl
@[simp] theorem State.dropOut_inp (s : State) (n : Nat) : (s.dropOut n).inp = s.inp := rfl
@[simp] theorem State.dropOut_out (s : State) (n : Nat) : (s.dropOut n).out = s.out.take (s.out.length - n) := rfl
@[simp] theorem State.dropOut_pc (s : State) (n : Nat) : (s.dropOut n).pc = s.pc := rfl
@[simp] theorem State.dropOut_host (s : State) (n : Nat) : (s.dropOut n).host = s.host := rfl
@[simp] theorem State.dropOut_busData (s : State) (n : Nat) : (s.dropOut n).busData = s.busData := rfl
@[simp] theorem State.dropOut_outView (s : State) (n : Nat) : (s.dropOut n).outView = s.outView := rfl
@[simp] theorem State.dropOut_freeCount (s : State) (n : Nat) : (s.dropOut n).freeCount = s.freeCount := rfl

@[simp] theorem State.popHost_cfg (s : State) : (s.popHost).cfg = s.cfg := rfl
@[simp] theorem State.popHost_ctx (s : State) : (s.popHost).ctx = s.ctx := rfl
@[simp] theorem State.popHost_arg (s : State) : (s.popHost).arg = s.arg := rfl
@[simp] theorem State.popHost_absent (s : State) : (s.popHost).absent = s.absent := rfl
@[simp] theorem State.popHost_lastErr (s : State) : (s.popHost).lastErr = s.lastErr := rfl
@[simp] theorem State.popHost_res (s : State) : (s.popHost).res = s.res := rfl
@[simp] theorem State.popHost_inp (s : State) : (s.popHost).inp = s.inp := rfl
@[simp] theorem State.popHost_out (s : State) : (s.popHost).out = s.out := rfl
@[simp] theorem State.popHost_pc (s : State) : (s.popHost).pc = s.pc := rfl
@[simp] theorem State.popHost_host (s : State) : (s.popHost).host = s.host.tail := rfl
@[simp] theorem State.popHost_busData (s : State) : (s.popHost).busData = s.busData := rfl
@[simp] theorem State.popHost_outView (s : State) : (s.popHost).outView = s.outView := rfl
@[simp] theorem State.popHost_freeCount (s : State) : (s.popHost).freeCount = s.freeCount := rfl

@[simp] theorem State.bumpPc_cfg (s : State) : (s.bumpPc).cfg = s.cfg := rfl
@[simp] theorem State.bumpPc_ctx (s : State) : (s.bumpPc).ctx = s.ctx := rfl
@[simp] theorem State.bumpPc_arg (s : State) : (s.bumpPc).arg = s.arg := rfl
@[simp] theorem State.bumpPc_absent (s : State) : (s.bumpPc).absent = s.absent := rfl
@[simp] theorem State.bumpPc_lastErr (s : State) : (s.bumpPc).lastErr = s.lastErr := rfl
@[simp] theorem State.bumpPc_res (s : State) : (s.bumpPc).res = s.res := rfl
@[simp] theorem State.bumpPc_inp (s : State) : (s.bumpPc).inp = s.inp := rfl
@[simp] theorem State.bumpPc_out (s : State) : (s.bumpPc).out = s.out := rfl
@[simp] theorem State.bumpPc_pc (s : State) : (s.bumpPc).pc = s.pc + 1 := rfl
@[simp] theorem State.bumpPc_host (s : State) : (s.bumpPc).host = s.host := rfl
@[simp] theorem State.bumpPc_busData (s : State) : (s.bumpPc).busData = s.busData := rfl
@[simp] theorem State.bumpPc_outView (s : State) : (s.bumpPc).outView = s.outView := rfl
@[simp] theorem State.bumpPc_freeCount (s : State) : (s.bumpPc).freeCount = s.freeCount := rfl

@[simp] theorem State.setBusData_cfg (s : State) (v : RegWord) : (s.setBusData v).cfg = s.cfg := rfl
@[simp] theorem State.setBusData_ctx (s : State) (v : RegWord) : (s.setBusData v).ctx = s.ctx := rfl
@[simp] theorem State.setBusData_arg (s : State) (v : RegWord) : (s.setBusData v).arg = s.arg := rfl
@[simp] theorem State.setBusData_absent (s : State) (v : RegWord) : (s.setBusData v).absent = s.absent := rfl
@[simp] theorem State.setBusData_lastErr (s : State) (v : RegWord) : (s.setBusData v).lastErr = s.lastErr := rfl
@[simp] theorem State.setBusData_res (s : State) (v : RegWord) : (s.setBusData v).res = s.res := rfl
@[simp] theorem State.setBusData_inp (s : State) (v : RegWord) : (s.setBusData v).inp = s.inp := rfl
@[simp] theorem State.setBusData_out (s : State) (v : RegWord) : (s.setBusData v).out = s.out := rfl
@[simp] theorem State.setBusData_pc (s : State) (v : RegWord) : (s.setBusData v).pc = s.pc := rfl
@[simp] theorem State.setBusData_host (s : State) (v : RegWord) : (s.setBusData v).host = s.host := rfl
@[simp] theorem State.setBusData_busData (s : State) (v : RegWord) : (s.setBusData v).busData = v := rfl
@[simp] theorem State.setBusData_outView (s : State) (v : RegWord) : (s.setBusData v).outView = s.outView := rfl
@[simp] theorem State.setBusData_freeCount (s : State) (v : RegWord) : (s.setBusData v).freeCount = s.freeCount := rfl

@[simp] theorem State.setOutView_cfg (s : State) (us : List CharUnit) : (s.setOutView us).cfg = s.cfg := rfl
@[simp] theorem State.setOutView_ctx (s : State) (us : List CharUnit) : (s.setOutView us).ctx = s.ctx := rfl
@[simp] theorem State.setOutView_arg (s : State) (us : List CharUnit) : (s.setOutView us).arg = s.arg := rfl
@[simp] theorem State.setOutView_absent (s : State) (us : List CharUnit) : (s.setOutView us).absent = s.absent := rfl
@[simp] theorem State.setOutView_lastErr (s : State) (us : List CharUnit) : (s.setOutView us).lastErr = s.lastErr := rfl
@[simp] theorem State.setOutView_res (s : State) (us : List CharUnit) : (s.setOutView us).res = s.res := rfl
@[simp] theorem State.setOutView_inp (s : State) (us : List CharUnit) : (s.setOutView us).inp = s.inp := rfl
@[simp] theorem State.setOutView_out (s : State) (us : List CharUnit) : (s.setOutView us).out = s.out := rfl
@[simp] theorem State.setOutView_pc (s : State) (us : List CharUnit) : (s.setOutView us).pc = s.pc := rfl
@[simp] theorem State.setOutView_host (s : State) (us : List CharUnit) : (s.setOutView us).host = s.host := rfl
@[simp] theorem State.setOutView_busData (s : State) (us : List CharUnit) : (s.setOutView us).busData = s.busData := rfl
@[simp] theorem State.setOutView_outView (s : State) (us : List CharUnit) : (s.setOutView us).outView = us := rfl
@[simp] theorem State.setOutView_freeCount (s : State) (us : List CharUnit) : (s.setOutView us).freeCount = s.freeCount := rfl

@[simp] theorem State.discardCtx_cfg (s : State) : (s.discardCtx).cfg = s.cfg := rfl
@[simp] theorem State.discardCtx_ctx (s : State) : (s.discardCtx).ctx = { Config.unspecifiedContext s.freeCount with valid := false } := rfl
@[simp] theorem State.discardCtx_arg (s : State) : (s.discardCtx).arg = s.arg := rfl
@[simp] theorem State.discardCtx_absent (s : State) : (s.discardCtx).absent = s.absent := rfl
@[simp] theorem State.discardCtx_lastErr (s : State) : (s.discardCtx).lastErr = s.lastErr := rfl
@[simp] theorem State.discardCtx_res (s : State) : (s.discardCtx).res = s.res := rfl
@[simp] theorem State.discardCtx_inp (s : State) : (s.discardCtx).inp = s.inp := rfl
@[simp] theorem State.discardCtx_out (s : State) : (s.discardCtx).out = s.out := rfl
@[simp] theorem State.discardCtx_pc (s : State) : (s.discardCtx).pc = s.pc := rfl
@[simp] theorem State.discardCtx_host (s : State) : (s.discardCtx).host = s.host := rfl
@[simp] theorem State.discardCtx_busData (s : State) : (s.discardCtx).busData = s.busData := rfl
@[simp] theorem State.discardCtx_outView (s : State) : (s.discardCtx).outView = s.outView := rfl
@[simp] theorem State.discardCtx_freeCount (s : State) : (s.discardCtx).freeCount = s.freeCount + 1 := rfl

end Sys2Proof.Machine
end

