-- ==== Sys2Proof/Laws/Ops.lean ====
section
/-! SUPPORT. What each shared operation can do, said once: the command cycle, the checks around a body, the end of a whole-buffer command, bus targets. -/

namespace Sys2Proof.Machine

@[simp] theorem finish_success (s : State) : finish (.success s) = s.setLastErr successCode := rfl

@[simp] theorem finish_absence (s : State) : finish (.absence s) = (s.setLastErr successCode).setAbsent true := rfl

@[simp] theorem finish_raise (e : Err) (s : State) : finish (.raise e s) = s.setLastErr (errCode e) := rfl

/-- A body that succeeds with the state it was given leaves only the report. -/
theorem runCommand_success (s : State) : runCommand s .success = quiet s := rfl

/-- Raising an error on the state the body was given changes only the report (60_exceptions.md R345). -/
theorem finish_raise_setAbsent (e : Err) (s : State) : finish (.raise e (s.setAbsent false)) = raised s (errCode e) := rfl

theorem finish_success_setAbsent (s : State) : finish (.success (s.setAbsent false)) = quiet s := rfl

theorem finish_absence_setAbsent (s : State) : finish (.absence (s.setAbsent false)) = absentState s := rfl

theorem finish_success_append (s : State) (us : List CharUnit) :
    finish (.success ((s.setAbsent false).appendOut us)) = appended s us := rfl

/-- What an FP command does before its body: a refused profile, a wrong alphabet size, or its body. -/
theorem withProfile_cases {α : Type} (served : Except ConfigError α) (f : α → Profile) (s : State) (body : α → BodyResult) :
    (∃ e, served = .error e ∧ withProfile served f s body = .raise (.config e) s) ∨
    (∃ a, served = .ok a ∧ sizeOk s.cfg (f a) = false ∧ withProfile served f s body = .raise (.config .alphabetSize) s) ∨
    (∃ a, served = .ok a ∧ sizeOk s.cfg (f a) = true ∧ withProfile served f s body = body a) := by
  cases served with
  | error e => exact .inl ⟨e, rfl, rfl⟩
  | ok a =>
    cases h : sizeOk s.cfg (f a) with
    | false => exact .inr (.inl ⟨a, rfl, h, by simp [withProfile, h]⟩)
    | true => exact .inr (.inr ⟨a, rfl, h, by simp [withProfile, h]⟩)

theorem withProfile_ok {α : Type} {a : α} {f : α → Profile} {s : State} {body : α → BodyResult}
    (h : sizeOk s.cfg (f a) = true) : withProfile (.ok a) f s body = body a := by simp [withProfile, h]

/-- What a PUT or EOS does before its body (60_exceptions.md R344 item 2). -/
theorem withContext_cases (d : Direction) (s : State) (body : State → BodyResult) :
    (s.ctx.valid = false ∧ withContext d s body = .raise (.config .noContext) s) ∨
    (s.ctx.valid = true ∧ s.ctx.dir ≠ d ∧ withContext d s body = .raise (.config .wrongDirection) s) ∨
    (∃ e, s.ctx.valid = true ∧ s.ctx.dir = d ∧ s.ctx.fault = some e ∧ withContext d s body = .raise (.format e) s) ∨
    (s.ctx.valid = true ∧ s.ctx.dir = d ∧ s.ctx.fault = none ∧ s.ctx.eosf = true ∧ withContext d s body = .success s) ∨
    (Open d s ∧ withContext d s body = body s) := by
  cases hv : s.ctx.valid with
  | false => exact .inl ⟨rfl, by simp [withContext, hv]⟩
  | true =>
    by_cases hd : s.ctx.dir = d
    · cases hf : s.ctx.fault with
      | some e => exact .inr (.inr (.inl ⟨e, rfl, hd, rfl, by simp [withContext, hv, hd, hf]⟩))
      | none =>
        cases he : s.ctx.eosf with
        | true => exact .inr (.inr (.inr (.inl ⟨rfl, hd, rfl, rfl, by simp [withContext, hv, hd, hf, he]⟩)))
        | false =>
          exact .inr (.inr (.inr (.inr ⟨⟨hv, hd, hf, he⟩, by simp [withContext, hv, hd, hf, he]⟩)))
    · exact .inr (.inl ⟨rfl, hd, by simp [withContext, hv, hd]⟩)

theorem withContext_open {d : Direction} {s : State} {body : State → BodyResult} (h : Open d s) :
    withContext d s body = body s := by
  simp [withContext, h.valid, h.dir, h.fault, h.eosf]

/-- An open stream stays open when ABSENT is cleared, which the command cycle does first. -/
theorem open_setAbsent {d : Direction} {s : State} (h : Open d s) (b : Bool) : Open d (s.setAbsent b) :=
  ⟨h.valid, h.dir, h.fault, h.eosf⟩

@[simp] theorem commit_ok (s : State) (us : List CharUnit) : commit s (.ok us) = .success (s.appendOut us) := rfl

@[simp] theorem commit_error (s : State) (e : Err) : commit s (.error e) = .raise e s := rfl

@[simp] theorem commitTry_ok (s : State) (us : List CharUnit) : commitTry s (.ok us) = .success (s.appendOut us) := rfl

@[simp] theorem commitTry_format (s : State) (e : FormatError) : commitTry s (.error (.format e)) = .absence s := rfl

@[simp] theorem commitTry_config (s : State) (e : ConfigError) :
    commitTry s (.error (.config e)) = .raise (.config e) s := rfl

@[simp] theorem commitTry_internal (s : State) (e : InternalError) :
    commitTry s (.error (.internal e)) = .raise (.internal e) s := rfl

@[simp] theorem profileOf_blockCode (q : BlockProfile) : profileOf (blockCode q) = some (.block q) := by
  cases q <;> rfl

@[simp] theorem servedStreaming_blockCode (q : BlockProfile) : servedStreaming (blockCode q) = .ok q := by
  cases q <;> rfl

@[simp] theorem servedBlock_blockCode (q : BlockProfile) : servedBlock (blockCode q) = .ok q := by
  cases q <;> rfl

@[simp] theorem servedAny_blockCode (q : BlockProfile) : servedAny (blockCode q) = .ok (.block q) := by
  cases q <;> rfl

@[simp] theorem servedPositional_three : servedPositional 3#4 = .ok () := rfl

@[simp] theorem servedAny_three : servedAny 3#4 = .ok .p58 := rfl

/-- The size check as a fact about the table's length (40_alphabet.md R143). -/
theorem sizeOk_iff (cfg : Config) (p : Profile) : sizeOk cfg p = true ↔ (alphabetOf cfg p).symbols.length = radixOf p := by
  simp [sizeOk]

/-- The classes of codes do not meet (60_exceptions.md R340). -/
theorem configCode_class (e : ConfigError) : (configCode e).toNat / 16 = 1 := by cases e <;> rfl

theorem formatCode_class (e : FormatError) : (formatCode e).toNat / 16 = 2 := by cases e <;> rfl

theorem internalCode_class (e : InternalError) : (internalCode e).toNat / 16 = 3 := by cases e <;> rfl

/-- A legal access reaches its register (10_state.md R40, R44). -/
theorem busTarget_register {cfg : Config} {off : Nat} (h : off < 64) (h4 : off % 4 = 0) :
    busTarget cfg (cfg.base + off) 4 = .register off := by
  have h1 : ¬ (cfg.base + off + 4 ≤ cfg.base ∨ cfg.base + windowSize ≤ cfg.base + off) := by
    simp only [windowSize]; omega
  have h2 : 4 = 4 ∧ cfg.base ≤ cfg.base + off ∧ (cfg.base + off - cfg.base) % 4 = 0 := by
    refine ⟨rfl, by omega, ?_⟩
    rw [Nat.add_sub_cancel_left]; exact h4
  rw [busTarget, if_neg h1, if_pos h2, Nat.add_sub_cancel_left]

end Sys2Proof.Machine
end

