-- ==== Sys2Proof/Laws/Alphabet.lean ====
section
/-! SUPPORT. What alphabet lookup and classification can answer (40_alphabet.md). -/

namespace Sys2Proof.Machine

theorem symbolAt_lt {cfg : Config} {p : Profile} {v : Nat} {c : CharUnit} (h : symbolAt cfg p v = some c) :
    v < radixOf p := by
  by_contra hv
  simp [symbolAt, hv] at h

/-- With a table of the right size every value below the radix has a symbol (R140, R143). -/
theorem symbolAt_defined {cfg : Config} {p : Profile} {v : Nat} (hs : sizeOk cfg p = true) (hv : v < radixOf p) :
    ∃ c, symbolAt cfg p v = some c := by
  have hl : v < (alphabetOf cfg p).symbols.length := by rw [(sizeOk_iff cfg p).1 hs]; exact hv
  exact ⟨(alphabetOf cfg p).symbols[v], by simp [symbolAt, hv, List.getElem?_eq_getElem hl]⟩

/-- A lookup answers a value below the radix (R141). -/
theorem indexOf_lt {cfg : Config} {p : Profile} {c : CharUnit} {v : Nat} (h : indexOf cfg p c = some v) :
    v < radixOf p := by
  simp only [indexOf, Option.filter_eq_some_iff, decide_eq_true_eq] at h
  exact h.2

/-- A character has no entry exactly when it equals no symbol and no synonym (R141). -/
theorem tableEntry_eq_none_iff {cfg : Config} {p : Profile} {c : CharUnit} : tableEntry cfg p c = none ↔
    (∀ x ∈ (alphabetOf cfg p).symbols, sameChar (alphabetOf cfg p) x c = false) ∧
      ∀ e ∈ (alphabetOf cfg p).synonyms, sameChar (alphabetOf cfg p) e.1 c = false := by
  simp only [tableEntry]
  split
  · rename_i v hv
    simp only [reduceCtorEq, false_iff, not_and]
    obtain ⟨h, hx, -⟩ := List.findIdx?_eq_some_iff_getElem.1 hv
    exact fun hn => absurd (hn _ (List.getElem_mem h)) (by simp [hx])
  · rename_i hv
    simp only [List.findIdx?_eq_none_iff] at hv
    simp [Option.map_eq_none_iff, List.find?_eq_none]
    exact fun _ => hv

/-- A character without an entry is not found. -/
theorem indexOf_eq_none_of_tableEntry {cfg : Config} {p : Profile} {c : CharUnit} (h : tableEntry cfg p c = none) :
    indexOf cfg p c = none := by simp [indexOf, h]

/-- Digits in range have symbols, one each, in order. -/
theorem symbolsAt_iff {cfg : Config} {p : Profile} {ds : List Nat} {g : List CharUnit} :
    symbolsAt cfg p ds = .ok g ↔ ds.map (symbolAt cfg p) = g.map some := by
  have key : ds.mapM (symbolAt cfg p) = some g ↔ ds.map (symbolAt cfg p) = g.map some := by
    induction ds generalizing g with
    | nil => cases g <;> simp
    | cons d ds ih =>
      cases g with
      | nil => simp [List.mapM_cons, Option.bind_eq_some_iff]
      | cons c g =>
        rw [List.mapM_cons]
        cases hd : symbolAt cfg p d with
        | none => simp [hd]
        | some x =>
          cases hm : ds.mapM (symbolAt cfg p) with
          | none =>
            have hn : ds.map (symbolAt cfg p) ≠ g.map some := fun h => by
              have := ih.2 h
              rw [hm] at this; cases this
            simp [hd, hn]
          | some y =>
            simp only [Option.bind_eq_bind, Option.bind_some, Option.pure_def, Option.some.injEq, List.cons.injEq,
              List.map_cons, hd]
            have hy := ih (g := g)
            rw [hm, Option.some.injEq] at hy
            rw [hy]
  rw [← key, symbolsAt]
  cases hm : ds.mapM (symbolAt cfg p) <;> simp

theorem symbolsAt_defined {cfg : Config} {p : Profile} {ds : List Nat} (hs : sizeOk cfg p = true)
    (hd : ∀ d ∈ ds, d < radixOf p) : ∃ g, symbolsAt cfg p ds = .ok g ∧ g.length = ds.length := by
  induction ds with
  | nil => exact ⟨[], rfl, rfl⟩
  | cons d ds ih =>
    obtain ⟨c, hc⟩ := symbolAt_defined hs (hd d (by simp))
    obtain ⟨g, hg, hl⟩ := ih (fun x hx => hd x (by simp [hx]))
    exact ⟨c :: g, symbolsAt_iff.2 (by simp [hc, symbolsAt_iff.1 hg]), by simp [hl]⟩

theorem symbolsAt_length {cfg : Config} {p : Profile} {ds : List Nat} {g : List CharUnit}
    (h : symbolsAt cfg p ds = .ok g) : g.length = ds.length := by
  simpa using (congrArg List.length (symbolsAt_iff.1 h)).symm

/-- The one error of `SymbolAt` is I_SYMBOL_RANGE (60_exceptions.md R343). -/
theorem symbolsAt_error {cfg : Config} {p : Profile} {ds : List Nat} {e : Err} (h : symbolsAt cfg p ds = .error e) :
    e = .internal .symbolRange := by
  unfold symbolsAt at h
  split at h <;> simp_all

/-- The parts of a well-formed configuration (R142, 00_scope.md R6). -/
theorem configOk_iff (cfg : Config) : configOk cfg = true ↔
    (∀ p ∈ allProfiles, lookupInverse cfg p = true ∧ padNoSymbol cfg p = true) ∧
    (0 < cfg.width16 ∧ 0 < cfg.width64 ∧ 0 < cfg.width24) ∧ cfg.newline ≠ [] ∧ cfg.base % 4 = 0 := by
  simp [configOk, List.all_eq_true, and_assoc]

theorem mem_allProfiles (p : Profile) : p ∈ allProfiles := by
  rcases p with (_ | _ | _) | _ <;> simp [allProfiles]

theorem lineWidth_pos {cfg : Config} (h : configOk cfg = true) (q : BlockProfile) : 0 < lineWidth cfg q := by
  have := ((configOk_iff cfg).1 h).2.1
  cases q <;> simp [lineWidth, this]

/-- Looking a symbol up gives its value (R142 item 2). -/
theorem indexOf_symbolAt {cfg : Config} {p : Profile} {v : Nat} {c : CharUnit} (h : configOk cfg = true)
    (hc : symbolAt cfg p v = some c) : indexOf cfg p c = some v := by
  have hl := (((configOk_iff cfg).1 h).1 p (mem_allProfiles p)).1
  simp only [lookupInverse, List.all_eq_true, List.mem_range, beq_iff_eq] at hl
  have hv := symbolAt_lt hc
  have hlen : v < (alphabetOf cfg p).symbols.length := by
    simp only [symbolAt, hv, if_true] at hc
    exact (List.getElem?_eq_some_iff.1 hc).1
  have := hl v (by omega)
  rwa [hc, Option.bind_some] at this

/-- The padding character is no symbol (R142 item 3). -/
theorem indexOf_pad {cfg : Config} {p : Profile} {c : CharUnit} (h : configOk cfg = true)
    (hc : padOf cfg p = some c) : indexOf cfg p c = none := by
  have hl := (((configOk_iff cfg).1 h).1 p (mem_allProfiles p)).2
  exact indexOf_eq_none_of_tableEntry (by simpa [padNoSymbol, hc] using hl)

/-- The skip test is the rule's (R144). -/
theorem skippable_iff (cfg : Config) (o : Options) (c : CharUnit) : skippable cfg o c = true ↔ Skipped cfg o c := by
  simp [skippable, Skipped, or_assoc, and_assoc]

theorem classOf_pad {cfg : Config} {p : Profile} {o : Options} {c : CharUnit} (h : padOf cfg p = some c) :
    classOf cfg p o c = .pad := by simp [classOf, h]

theorem classOf_sym {cfg : Config} {p : Profile} {o : Options} {c : CharUnit} {v : Nat} (hp : padOf cfg p ≠ some c)
    (h : indexOf cfg p c = some v) : classOf cfg p o c = .sym v := by simp [classOf, hp, h]

theorem classOf_skip {cfg : Config} {p : Profile} {o : Options} {c : CharUnit} (hp : padOf cfg p ≠ some c)
    (h : indexOf cfg p c = none) (hs : Skipped cfg o c) : classOf cfg p o c = .skip := by
  simp [classOf, hp, h, (skippable_iff cfg o c).2 hs]

theorem classOf_invalid {cfg : Config} {p : Profile} {o : Options} {c : CharUnit} (hp : padOf cfg p ≠ some c)
    (h : indexOf cfg p c = none) (hs : ¬ Skipped cfg o c) : classOf cfg p o c = .invalid := by
  have hf : skippable cfg o c = false := by
    rw [← Bool.not_eq_true, skippable_iff]; exact hs
  simp [classOf, hp, h, hf]

/-- The symbol of a value is classified as that value (R142, R145). -/
theorem classOf_symbolAt {cfg : Config} {p : Profile} {o : Options} {c : CharUnit} {v : Nat} (h : configOk cfg = true)
    (hc : symbolAt cfg p v = some c) : classOf cfg p o c = .sym v := by
  have hi := indexOf_symbolAt h hc
  refine classOf_sym (fun hp => ?_) hi
  have := indexOf_pad h hp
  rw [hi] at this; cases this

/-- A class of symbol answers a value below the radix. -/
theorem classOf_sym_lt {cfg : Config} {p : Profile} {o : Options} {c : CharUnit} {v : Nat}
    (h : classOf cfg p o c = .sym v) : v < radixOf p := by
  unfold classOf at h
  split at h
  · cases h
  · split at h
    · rename_i hi; cases h; exact indexOf_lt hi
    · split at h <;> cases h

/-- P58 has no padding, so no character is of class pad. -/
theorem classOf_p58_ne_pad (cfg : Config) (o : Options) (c : CharUnit) : classOf cfg .p58 o c ≠ .pad := by
  simp only [classOf, padOf, reduceCtorEq, if_false]
  split
  · simp
  · split <;> simp

@[simp] theorem bytesToUnits_length (bs : List Byte) : (bytesToUnits bs).length = bs.length := by simp [bytesToUnits]

/-- Bytes carried in units read back as bytes (20_memory.md R70, R71). -/
theorem unitsToBytes_bytesToUnits (bs : List Byte) : unitsToBytes (bytesToUnits bs) = .ok bs := by
  have h : (bytesToUnits bs).any (fun u => 0xFF < u.toNat) = false := by
    rw [List.any_eq_false]
    intro u hu
    obtain ⟨b, _, rfl⟩ := List.mem_map.1 hu
    have := b.isLt
    simp [BitVec.toNat_setWidth]; omega
  rw [unitsToBytes, h, if_neg (by simp), bytesToUnits, List.map_map]
  have : ∀ b ∈ bs, (BitVec.setWidth 8 ∘ BitVec.setWidth 16) b = b := by
    intro b _
    apply BitVec.eq_of_toNat_eq
    have := b.isLt
    simp
  rw [List.map_congr_left this, List.map_id']

end Sys2Proof.Machine
end

