-- ==== Sys2Proof/Laws/Numbers.lean ====
section
/-! SUPPORT. What the integer helpers of Machine/Numbers.lean compute: digits and values are inverse, the searches find the least. -/

namespace Sys2Proof.Machine

@[simp] theorem digits_zero (r v : Nat) : digits r 0 v = [] := rfl

theorem digits_succ (r n v : Nat) : digits r (n + 1) v = digits r n (v / r) ++ [v % r] := rfl

@[simp] theorem digits_length (r n v : Nat) : (digits r n v).length = n := by
  induction n generalizing v with
  | zero => rfl
  | succ n ih => simp [digits_succ, ih]

theorem digits_lt {r : Nat} (hr : 0 < r) (n v : Nat) : ∀ d ∈ digits r n v, d < r := by
  induction n generalizing v with
  | zero => simp
  | succ n ih =>
    intro d hd
    rcases List.mem_append.1 (digits_succ r n v ▸ hd) with h | h
    · exact ih _ d h
    · simp only [List.mem_singleton] at h
      exact h ▸ Nat.mod_lt _ hr

@[simp] theorem valDigits_nil (r : Nat) : valDigits r [] = 0 := rfl

@[simp] theorem valDigits_append_singleton (r : Nat) (ds : List Nat) (d : Nat) :
    valDigits r (ds ++ [d]) = valDigits r ds * r + d := by simp [valDigits]

/-- The digits of a value spell the value modulo the radix's power. -/
theorem valDigits_digits (r n v : Nat) : valDigits r (digits r n v) = v % r ^ n := by
  induction n generalizing v with
  | zero => simp [Nat.mod_one]
  | succ n ih =>
    rw [digits_succ, valDigits_append_singleton, ih, pow_succ, Nat.mul_comm (r ^ n) r, Nat.mod_mul]
    ring

theorem valDigits_digits_of_lt {r n v : Nat} (h : v < r ^ n) : valDigits r (digits r n v) = v := by
  rw [valDigits_digits, Nat.mod_eq_of_lt h]

theorem valDigits_lt {r : Nat} {ds : List Nat} (h : ∀ d ∈ ds, d < r) : valDigits r ds < r ^ ds.length := by
  induction ds using List.reverseRecOn with
  | nil => simp
  | append_singleton ds d ih =>
    have hd : d < r := h d (by simp)
    have hv := ih (fun x hx => h x (by simp [hx]))
    rw [valDigits_append_singleton, List.length_append, List.length_singleton, pow_succ]
    nlinarith

/-- Digits below the radix are the digits of the value they spell. -/
theorem digits_valDigits {r : Nat} {ds : List Nat} (h : ∀ d ∈ ds, d < r) :
    digits r ds.length (valDigits r ds) = ds := by
  induction ds using List.reverseRecOn with
  | nil => rfl
  | append_singleton ds d ih =>
    have hd : d < r := h d (by simp)
    have hr : 0 < r := by omega
    rw [valDigits_append_singleton, List.length_append, List.length_singleton, digits_succ]
    have h1 : (valDigits r ds * r + d) / r = valDigits r ds := by
      rw [Nat.mul_comm, Nat.mul_add_div hr, Nat.div_eq_of_lt hd, Nat.add_zero]
    have h2 : (valDigits r ds * r + d) % r = d := by
      rw [Nat.mul_comm, Nat.mul_add_mod, Nat.mod_eq_of_lt hd]
    rw [h1, h2, ih (fun x hx => h x (by simp [hx]))]

@[simp] theorem bytesBE_length (n v : Nat) : (bytesBE n v).length = n := by simp [bytesBE]

/-- The n big-endian bytes of a value spell the value modulo 256^n. -/
theorem valBE_bytesBE (n v : Nat) : valBE (bytesBE n v) = v % 256 ^ n := by
  have h : (bytesBE n v).map BitVec.toNat = digits 256 n v := by
    rw [bytesBE, List.map_map]
    refine (List.map_congr_left fun d hd => ?_).trans (List.map_id' _)
    have hlt := digits_lt (r := 256) (by decide) n v d hd
    simp [Nat.mod_eq_of_lt hlt]
  rw [valBE, h, valDigits_digits]

theorem valBE_lt (bs : List Byte) : valBE bs < 256 ^ bs.length := by
  have h := valDigits_lt (r := 256) (ds := bs.map BitVec.toNat) (by
    intro d hd
    obtain ⟨b, _, rfl⟩ := List.mem_map.1 hd
    exact b.isLt)
  simpa [valBE] using h

/-- Bytes are the big-endian bytes of the value they spell. -/
theorem bytesBE_valBE (bs : List Byte) : bytesBE bs.length (valBE bs) = bs := by
  have h := digits_valDigits (r := 256) (ds := bs.map BitVec.toNat) (by
    intro d hd
    obtain ⟨b, _, rfl⟩ := List.mem_map.1 hd
    exact b.isLt)
  rw [List.length_map] at h
  rw [bytesBE, valBE, h, List.map_map]
  exact (List.map_congr_left (fun b _ => by simp)).trans (List.map_id' bs)

/-- What a bounded search answers: a number from `c` on that satisfies p with nothing smaller that does, when some number
within the fuel does. -/
theorem leastFrom_spec {p : Nat → Bool} {fuel c k : Nat} (hk : c ≤ k) (hf : k ≤ c + fuel) (hp : p k = true) :
    p (leastFrom p fuel c) = true ∧ leastFrom p fuel c ≤ k ∧ ∀ j, c ≤ j → j < leastFrom p fuel c → p j = false := by
  induction fuel generalizing c with
  | zero =>
    obtain rfl : c = k := by omega
    exact ⟨hp, le_refl _, fun j h1 h2 => by simp only [leastFrom] at h2; omega⟩
  | succ fuel ih =>
    by_cases hc : p c = true
    · simp only [leastFrom, hc, if_true]
      exact ⟨trivial, hk, fun j h1 h2 => by omega⟩
    · have hne : c ≠ k := fun h => hc (h ▸ hp)
      simp only [leastFrom, hc]
      obtain ⟨h1, h2, h3⟩ := ih (c := c + 1) (by omega) (by omega)
      refine ⟨h1, h2, fun j hj hlt => ?_⟩
      rcases Nat.eq_or_lt_of_le hj with rfl | hj'
      · simpa using hc
      · exact h3 j hj' hlt

theorem bitlen_lt (v : Nat) : v < 2 ^ bitlen v := by
  unfold bitlen
  split
  · omega
  · exact Nat.lt_log2_self

/-- Enough divisions bring a number to 0: the remainders spell it, each below the radix. -/
theorem valDigits_remainders {r : Nat} (hr : 1 < r) {fuel n : Nat} (h : n < r ^ fuel) :
    valDigits r (remainders r fuel n).reverse = n ∧ ∀ d ∈ remainders r fuel n, d < r := by
  induction fuel generalizing n with
  | zero => simp only [pow_zero, Nat.lt_one_iff] at h; subst h; simp [remainders]
  | succ fuel ih =>
    by_cases hn : n = 0
    · subst hn; simp [remainders]
    · have hq : n / r < r ^ fuel := by
        rw [Nat.div_lt_iff_lt_mul (by omega)]; rwa [pow_succ] at h
      obtain ⟨h1, h2⟩ := ih hq
      have hm := Nat.mod_lt n (show r > 0 by omega)
      refine ⟨?_, ?_⟩
      · simp only [remainders, hn, if_false, List.reverse_cons, valDigits_append_singleton, h1]
        exact Nat.div_add_mod' n r
      · simpa [remainders, hn, hm] using h2

theorem lt_pow_bitlen {r : Nat} (hr : 1 < r) (n : Nat) : n < r ^ bitlen n :=
  lt_of_lt_of_le (bitlen_lt n) (Nat.pow_le_pow_left hr _)

/-- The numeral of n spells n. -/
theorem valDigits_numeral {r : Nat} (hr : 1 < r) (n : Nat) : valDigits r (numeral r n) = n :=
  (valDigits_remainders hr (lt_pow_bitlen hr n)).1

theorem numeral_lt {r : Nat} (hr : 1 < r) (n : Nat) : ∀ d ∈ numeral r n, d < r := by
  intro d hd
  exact (valDigits_remainders hr (lt_pow_bitlen hr n)).2 d (List.mem_reverse.1 hd)

/-- The last remainder taken is not 0: a numeral has no leading zero. -/
theorem remainders_getLast?_ne {r : Nat} (hr : 1 < r) {fuel n : Nat} (h : n < r ^ fuel) :
    (remainders r fuel n).getLast? ≠ some 0 := by
  induction fuel generalizing n with
  | zero => simp [remainders]
  | succ fuel ih =>
    by_cases hn : n = 0
    · simp [remainders, hn]
    · have hq : n / r < r ^ fuel := by
        rw [Nat.div_lt_iff_lt_mul (by omega)]; rwa [pow_succ] at h
      have hrec := ih hq
      simp only [remainders, hn, if_false]
      by_cases hlt : n < r
      · have h0 : n / r = 0 := Nat.div_eq_of_lt hlt
        have hz : remainders r fuel 0 = [] := by cases fuel <;> simp [remainders]
        simp [h0, hz, Nat.mod_eq_of_lt hlt, hn]
      · have hpos : n / r ≠ 0 := by
          rw [Ne, Nat.div_eq_zero_iff]; omega
        cases fuel with
        | zero => simp at hq; omega
        | succ fuel =>
          simp only [remainders, hpos, if_false] at hrec ⊢
          simpa using hrec

theorem numeral_head?_ne {r : Nat} (hr : 1 < r) (n : Nat) : (numeral r n).head? ≠ some 0 := by
  rw [numeral, List.head?_reverse]
  exact remainders_getLast?_ne hr (lt_pow_bitlen hr n)

/-- Digits without a leading zero spell at least the radix's power below their length. -/
theorem pow_le_valDigits {r : Nat} {ds : List Nat} (h : ds.head? ≠ some 0) (hn : ds ≠ []) :
    r ^ (ds.length - 1) ≤ valDigits r ds := by
  induction ds using List.reverseRecOn with
  | nil => exact absurd rfl hn
  | append_singleton ds d ih =>
    rcases eq_or_ne ds [] with rfl | he
    · have : d ≠ 0 := fun hd => h (by rw [hd]; rfl)
      simp [valDigits]; omega
    · have hi := ih (by rwa [List.head?_append_of_ne_nil _ he] at h) he
      have hl : 0 < ds.length := List.length_pos_of_ne_nil he
      rw [valDigits_append_singleton, List.length_append, List.length_singleton,
        show ds.length + 1 - 1 = ds.length - 1 + 1 by omega, pow_succ]
      nlinarith

/-- A numeral has the least number of digits that the value needs (43_positional.md R260). -/
theorem numeral_length {r n j : Nat} (hr : 1 < r) (h : n < r ^ j) (hj : ∀ i < j, r ^ i ≤ n) : (numeral r n).length = j := by
  have hlt := valDigits_lt (numeral_lt hr n)
  rw [valDigits_numeral hr] at hlt
  refine le_antisymm ?_ ?_
  · by_contra hc
    rw [not_le] at hc
    have hne : numeral r n ≠ [] := fun he => by simp [he] at hc
    have h1 := pow_le_valDigits (r := r) (numeral_head?_ne hr n) hne
    rw [valDigits_numeral hr] at h1
    have h2 : r ^ j ≤ r ^ ((numeral r n).length - 1) := Nat.pow_le_pow_right (by omega) (by omega)
    omega
  · by_contra hc
    rw [not_le] at hc
    have := hj _ hc
    omega

end Sys2Proof.Machine
end

