-- ==== Sys2Proof/Laws/Encoder.lean ====
section
/-! SUPPORT. What the bodies of the block encoder can do (41_block_encoder.md). -/

namespace Sys2Proof.Machine

/-- EmitGroup is the rule's (R167). -/
theorem emitGroup_iff (cfg : Config) (t : Context) (g us : List CharUnit) (pos : Nat) :
    EmitsGroup cfg t g us pos ↔ emitGroup cfg t.prof t.opts t.linePos g = (us, pos) := by
  have hs : (sepEff t.prof t.opts && decide (0 < t.linePos)) =
      decide (has t.opts .indent = true ∧ t.prof ≠ .p24 ∧ 0 < t.linePos) := by
    rw [Bool.eq_iff_iff]; simp [sepEff, and_assoc]
  have hw : wrapEff t.prof t.opts = decide (has t.opts .wrap = true ∨ (t.prof = .p24 ∧ has t.opts .indent = true)) := by
    rw [Bool.eq_iff_iff]; simp [wrapEff]
  unfold EmitsGroup emitGroup
  rw [hs, hw]
  simp only [Bool.and_eq_true, decide_eq_true_eq]
  split <;> simp only [Prod.mk.injEq] <;> constructor <;> rintro ⟨h1, h2⟩ <;> exact ⟨h1.symm, h2.symm⟩

/-- The line position never passes the line width (10_state.md R34). -/
theorem emitGroup_pos_le (cfg : Config) (p : BlockProfile) (o : Options) (n : Nat) (g : List CharUnit) :
    (emitGroup cfg p o n g).2 ≤ lineWidth cfg p := by
  simp only [emitGroup]
  split
  · exact Nat.zero_le _
  · exact Nat.min_le_right _ _

theorem blockRadix_pos (q : BlockProfile) : 0 < blockRadix q := by cases q <;> decide

theorem bytesPerBlock_pos (q : BlockProfile) : 0 < bytesPerBlock q := by cases q <;> decide

theorem symbolsPerBlock_pos (q : BlockProfile) : 0 < symbolsPerBlock q := by cases q <;> decide

/-- A block's value fits its S digits (R163). -/
theorem blockValue_fits (q : BlockProfile) : 256 ^ bytesPerBlock q ≤ blockRadix q ^ symbolsPerBlock q := by
  cases q <;> decide

/-- With a table of the right size every digit sequence of a block codec has its symbols. -/
theorem blockDigits_defined {cfg : Config} {q : BlockProfile} (hs : sizeOk cfg (.block q) = true) (n v : Nat) :
    ∃ g, symbolsAt cfg (.block q) (digits (blockRadix q) n v) = .ok g ∧ g.length = n := by
  obtain ⟨g, h, hl⟩ := symbolsAt_defined hs (digits_lt (blockRadix_pos q) n v)
  exact ⟨g, h, by rw [hl, digits_length]⟩

/-- The symbols that spell a value are those of its digits. -/
theorem symbolsAt_of_spells {cfg : Config} {q : BlockProfile} {n v : Nat} {g : List CharUnit}
    (h : SpellsValue cfg q n v g) : symbolsAt cfg (.block q) (digits (blockRadix q) n v) = .ok g := by
  obtain ⟨ds, hl, hd, hv, hg⟩ := h
  have hds := digits_valDigits (r := blockRadix q) hd
  have hv' : valDigits (blockRadix q) ds = v := hv
  rw [hl, hv'] at hds
  rw [hds]; exact symbolsAt_iff.2 hg

/-- A byte that does not complete a block is only folded in (R162). -/
theorem encPutBody_short {cfg : Config} {t : Context} {b : Byte} (h : t.mod + 1 ≠ bytesPerBlock t.prof) :
    encPutBody cfg t b = .ok ({ t with acc := t.acc * 256 + b.toNat, mod := t.mod + 1 }, []) := by
  simp [encPutBody, h]

/-- A byte that completes a block emits one group (R162, R163). -/
theorem encPutBody_full {cfg : Config} {t : Context} {b : Byte} {g us : List CharUnit} {pos : Nat}
    (h : t.mod + 1 = bytesPerBlock t.prof)
    (hg : symbolsAt cfg (.block t.prof) (digits (blockRadix t.prof) (symbolsPerBlock t.prof) (t.acc * 256 + b.toNat)) = .ok g)
    (he : emitGroup cfg t.prof t.opts t.linePos g = (us, pos)) :
    encPutBody cfg t b = .ok ({ t with acc := 0, mod := 0, linePos := pos }, us) := by
  simp [encPutBody, h, hg, he]

/-- End of stream with nothing held (R165). -/
theorem encEosBody_empty {cfg : Config} {t : Context} (h : t.mod = 0) :
    encEosBody cfg t = .ok ({ t with acc := 0, mod := 0, eosf := true }, []) := by
  have hb := bytesPerBlock_pos t.prof
  have h1 : ¬ bytesPerBlock t.prof ≤ t.mod := by omega
  have h2 : ¬ 0 < t.mod := by omega
  simp only [encEosBody, if_neg h1, if_neg h2]

/-- End of stream with a partial block held (R165, R166). -/
theorem encEosBody_partial {cfg : Config} {t : Context} {g us : List CharUnit} {pos : Nat} (h0 : 0 < t.mod)
    (hb : t.mod < bytesPerBlock t.prof) (hg : partialGroup cfg t.prof t.opts t.mod t.acc = .ok g)
    (he : emitGroup cfg t.prof t.opts t.linePos g = (us, pos)) :
    encEosBody cfg t = .ok ({ t with acc := 0, mod := 0, linePos := pos, eosf := true }, us) := by
  have h1 : ¬ bytesPerBlock t.prof ≤ t.mod := by omega
  simp only [encEosBody, if_neg h1, if_pos h0, hg, he]

/-- A modulus out of range at end of stream (R165). -/
theorem encEosBody_range {cfg : Config} {t : Context} (h : bytesPerBlock t.prof ≤ t.mod) :
    encEosBody cfg t = .error (.internal .modulusRange) := by simp only [encEosBody, if_pos h]

/-- The partial group: data symbols, then padding unless Unpad (R166). -/
theorem partialGroup_eq {cfg : Config} {p : BlockProfile} {o : Options} {r acc : Nat} {g : List CharUnit} {c : CharUnit}
    (hg : symbolsAt cfg (.block p) (digits (blockRadix p) (nsym p r) (partialDigitsValue p (nsym p r) r acc)) = .ok g)
    (hc : padOf cfg (.block p) = some c) :
    partialGroup cfg p o r acc =
      .ok (if has o .unpad = true then g else g ++ List.replicate (symbolsPerBlock p - nsym p r) c) := by
  simp only [partialGroup, hg, hc]
  cases has o .unpad <;> simp

/-- With a table of the right size no partial group is out of range. -/
theorem partialGroup_defined {cfg : Config} {p : BlockProfile} (hs : sizeOk cfg (.block p) = true) (o : Options)
    (r acc : Nat) : ∃ g, partialGroup cfg p o r acc = .ok g := by
  obtain ⟨g, hg, _⟩ := blockDigits_defined hs (nsym p r) (partialDigitsValue p (nsym p r) r acc)
  simp only [partialGroup, hg]
  split <;> exact ⟨_, rfl⟩

/-- What ENC.PUT's body can do with a table of the right size: fold the byte in, or complete a block. -/
theorem encPutBody_cases {cfg : Config} {t : Context} (hs : sizeOk cfg (.block t.prof) = true) (b : Byte) :
    (t.mod + 1 ≠ bytesPerBlock t.prof ∧
      encPutBody cfg t b = .ok ({ t with acc := t.acc * 256 + b.toNat, mod := t.mod + 1 }, [])) ∨
    (t.mod + 1 = bytesPerBlock t.prof ∧ ∃ g us pos,
      symbolsAt cfg (.block t.prof) (digits (blockRadix t.prof) (symbolsPerBlock t.prof) (t.acc * 256 + b.toNat)) = .ok g ∧
      g.length = symbolsPerBlock t.prof ∧ emitGroup cfg t.prof t.opts t.linePos g = (us, pos) ∧
      encPutBody cfg t b = .ok ({ t with acc := 0, mod := 0, linePos := pos }, us)) := by
  by_cases h : t.mod + 1 = bytesPerBlock t.prof
  · obtain ⟨g, hg, hl⟩ := blockDigits_defined hs (symbolsPerBlock t.prof) (t.acc * 256 + b.toNat)
    exact .inr ⟨h, g, _, _, hg, hl, rfl, encPutBody_full h hg rfl⟩
  · exact .inl ⟨h, encPutBody_short h⟩

/-- What ENC.EOS's body can do with a table of the right size and a modulus in range. -/
theorem encEosBody_cases {cfg : Config} {t : Context} (hs : sizeOk cfg (.block t.prof) = true)
    (hm : t.mod < bytesPerBlock t.prof) :
    (t.mod = 0 ∧ encEosBody cfg t = .ok ({ t with acc := 0, mod := 0, eosf := true }, [])) ∨
    (0 < t.mod ∧ ∃ g us pos, partialGroup cfg t.prof t.opts t.mod t.acc = .ok g ∧
      emitGroup cfg t.prof t.opts t.linePos g = (us, pos) ∧
      encEosBody cfg t = .ok ({ t with acc := 0, mod := 0, linePos := pos, eosf := true }, us)) := by
  rcases Nat.eq_zero_or_pos t.mod with h | h
  · exact .inl ⟨h, encEosBody_empty h⟩
  · obtain ⟨g, hg⟩ := partialGroup_defined hs t.opts t.mod t.acc
    exact .inr ⟨h, g, _, _, hg, rfl, encEosBody_partial h hm hg rfl⟩

/-- The encoder raises no format and no configuration error from its bodies (60_exceptions.md R342). -/
theorem encPutBody_error {cfg : Config} {t : Context} {b : Byte} {e : Err} (h : encPutBody cfg t b = .error e) :
    e = .internal .symbolRange := by
  simp only [encPutBody] at h
  split at h
  · split at h
    · rename_i he; cases h; exact symbolsAt_error he
    · cases h
  · cases h

theorem partialGroup_error {cfg : Config} {p : BlockProfile} {o : Options} {r acc : Nat} {e : Err}
    (h : partialGroup cfg p o r acc = .error e) : e = .internal .symbolRange := by
  simp only [partialGroup] at h
  split at h
  · rename_i he; cases h; exact symbolsAt_error he
  · split at h <;> cases h

theorem encEosBody_error {cfg : Config} {t : Context} {e : Err} (h : encEosBody cfg t = .error e) :
    ∃ i, e = .internal i := by
  simp only [encEosBody] at h
  split at h
  · cases h; exact ⟨_, rfl⟩
  · split at h
    · split at h
      · rename_i he; cases h; exact ⟨_, partialGroup_error he⟩
      · cases h
    · cases h

end Sys2Proof.Machine
end

