-- ==== Sys2Proof/Laws/Decoder.lean ====
section
/-! SUPPORT. What the bodies of the block decoder can do (42_block_decoder.md). -/

namespace Sys2Proof.Machine

/-- The counts table (R205). -/
theorem nbytes_of_row {q : BlockProfile} {m r : Nat} {canon : Bool} (h : (q, m, r, canon) ∈ partialRows) :
    nbytes q m = r ∧ canonical q m = canon ∧ 0 < m ∧ m < symbolsPerBlock q := by
  simp only [partialRows, List.mem_cons, Prod.mk.injEq, List.not_mem_nil, or_false] at h
  rcases h with ⟨rfl, rfl, rfl, rfl⟩ | ⟨rfl, rfl, rfl, rfl⟩ | ⟨rfl, rfl, rfl, rfl⟩ | ⟨rfl, rfl, rfl, rfl⟩ |
    ⟨rfl, rfl, rfl, rfl⟩ | ⟨rfl, rfl, rfl, rfl⟩ | ⟨rfl, rfl, rfl, rfl⟩ | ⟨rfl, rfl, rfl, rfl⟩ | ⟨rfl, rfl, rfl, rfl⟩ |
    ⟨rfl, rfl, rfl, rfl⟩ <;> decide

theorem splitPartial_of_row {q : BlockProfile} {m r : Nat} {canon : Bool} (h : (q, m, r, canon) ∈ partialRows) (acc : Nat) :
    splitPartial q m acc = partialValue q m r acc := by
  have hr := (nbytes_of_row h).1
  cases q <;> simp [splitPartial, partialValue, hr]

/-- The whole bytes of a partial block hold its value (R206). -/
theorem partialValue_lt {q : BlockProfile} {m r : Nat} {canon : Bool} (h : (q, m, r, canon) ∈ partialRows) {acc : Nat}
    (ha : acc < blockRadix q ^ m) : (partialValue q m r acc).1 < 256 ^ r := by
  simp only [partialRows, List.mem_cons, Prod.mk.injEq, List.not_mem_nil, or_false] at h
  rcases h with ⟨rfl, rfl, rfl, rfl⟩ | ⟨rfl, rfl, rfl, rfl⟩ | ⟨rfl, rfl, rfl, rfl⟩ | ⟨rfl, rfl, rfl, rfl⟩ |
    ⟨rfl, rfl, rfl, rfl⟩ | ⟨rfl, rfl, rfl, rfl⟩ | ⟨rfl, rfl, rfl, rfl⟩ | ⟨rfl, rfl, rfl, rfl⟩ | ⟨rfl, rfl, rfl, rfl⟩ |
    ⟨rfl, rfl, rfl, rfl⟩ <;> simp [partialValue, blockRadix] at ha ⊢ <;> omega

/-- A partial flush that succeeds (R206). -/
theorem partialFlush_ok {p : BlockProfile} {o : Options} {m acc : Nat}
    (h : has o .relax = true ∨ canonical p m = true ∧ (splitPartial p m acc).2 = 0) :
    partialFlush p o m acc = .ok (bytesBE (nbytes p m) (splitPartial p m acc).1) := by
  rcases h with h | ⟨h1, h2⟩
  · simp [partialFlush, h]
  · simp [partialFlush, h1, h2]

theorem partialFlush_incomplete {p : BlockProfile} {o : Options} {m acc : Nat} (h : has o .relax = false)
    (hc : canonical p m = false) : partialFlush p o m acc = .error .incomplete := by
  simp [partialFlush, h, hc]

theorem partialFlush_insignificant {p : BlockProfile} {o : Options} {m acc : Nat} (h : has o .relax = false)
    (hc : canonical p m = true) (hi : (splitPartial p m acc).2 ≠ 0) :
    partialFlush p o m acc = .error .insignificant := by
  simp [partialFlush, h, hc, hi]

/-- A symbol that does not complete a block is only folded in (R203). -/
theorem decSymBody_short {t : Context} {v : Nat} (hp : t.padRun = 0) (hm : t.mod + 1 ≠ symbolsPerBlock t.prof) :
    decSymBody t v = .ok ({ t with acc := t.acc * blockRadix t.prof + v, mod := t.mod + 1 }, []) := by
  simp [decSymBody, hp, hm]

/-- A symbol that completes a block (R203, R207). -/
theorem decSymBody_full {t : Context} {v : Nat} {bs : List Byte} (hp : t.padRun = 0)
    (hm : t.mod + 1 = symbolsPerBlock t.prof)
    (hb : fullBlock t.prof t.opts (t.acc * blockRadix t.prof + v) = .ok bs) :
    decSymBody t v = .ok ({ t with acc := 0, mod := 0 }, bs) := by
  simp [decSymBody, hp, hm, hb]

/-- A whole block that fits is its bytes (R207). -/
theorem fullBlock_fits {p : BlockProfile} {o : Options} {a : Nat} (h : a < 256 ^ bytesPerBlock p) :
    fullBlock p o a = .ok (bytesBE (bytesPerBlock p) a) := by
  have hn : ¬ (p = .p24 ∧ 2 ^ 32 ≤ a) := by
    rintro ⟨rfl, h2⟩
    simp only [bytesPerBlock] at h
    omega
  rw [fullBlock, if_neg hn]

/-- What DEC.PUT's body can do: leave the context, count a padding character, flush a padded block, fold a symbol in,
write a block, or fail with a format error. -/
theorem decPutBody_cases (cfg : Config) (t : Context) (c : CharUnit) :
    (decPutBody cfg t c = .ok (t, [])) ∨
    (padReq t.prof t.opts = true ∧ 0 < t.mod ∧ t.mod + (t.padRun + 1) ≠ symbolsPerBlock t.prof ∧
      decPutBody cfg t c = .ok ({ t with padRun := t.padRun + 1 }, [])) ∨
    (∃ bs, 0 < t.mod ∧ t.mod + (t.padRun + 1) = symbolsPerBlock t.prof ∧
      partialFlush t.prof t.opts t.mod t.acc = .ok bs ∧
      decPutBody cfg t c = .ok ({ t with acc := 0, mod := 0, padRun := 0 }, bs)) ∨
    (∃ v, v < blockRadix t.prof ∧ t.padRun = 0 ∧ t.mod + 1 ≠ symbolsPerBlock t.prof ∧
      decPutBody cfg t c = .ok ({ t with acc := t.acc * blockRadix t.prof + v, mod := t.mod + 1 }, [])) ∨
    (∃ v bs, v < blockRadix t.prof ∧ t.padRun = 0 ∧ t.mod + 1 = symbolsPerBlock t.prof ∧
      fullBlock t.prof t.opts (t.acc * blockRadix t.prof + v) = .ok bs ∧
      decPutBody cfg t c = .ok ({ t with acc := 0, mod := 0 }, bs)) ∨
    (∃ e k, decPutBody cfg t c = .error (.format e, k) ∧ k.valid = t.valid ∧ k.dir = t.dir ∧ k.prof = t.prof ∧
      k.opts = t.opts ∧ k.eosf = t.eosf ∧ k.fault = t.fault ∧ k.linePos = t.linePos) := by
  unfold decPutBody
  cases hc : classOf cfg (.block t.prof) t.opts c with
  | pad =>
    simp only [decPadBody]
    cases hq : padReq t.prof t.opts with
    | false => exact .inl (by simp)
    | true =>
      by_cases hm : t.mod = 0
      · refine .inr (.inr (.inr (.inr (.inr ⟨.padPosition, t, ?_, rfl, rfl, rfl, rfl, rfl, rfl, rfl⟩))))
        simp [hm]
      · by_cases hs : t.mod + (t.padRun + 1) = symbolsPerBlock t.prof
        · cases hf : partialFlush t.prof t.opts t.mod t.acc with
          | ok bs => exact .inr (.inr (.inl ⟨bs, by omega, hs, rfl, by simp [hm, hs]⟩))
          | error e =>
            refine .inr (.inr (.inr (.inr (.inr ⟨e, { t with padRun := t.padRun + 1 }, ?_, rfl, rfl, rfl, rfl, rfl, rfl,
              rfl⟩))))
            simp [hm, hs]
        · exact .inr (.inl ⟨rfl, by omega, hs, by simp [hm, hs]⟩)
  | skip => exact .inl rfl
  | invalid =>
    exact .inr (.inr (.inr (.inr (.inr ⟨.invalidChar, t, rfl, rfl, rfl, rfl, rfl, rfl, rfl, rfl⟩))))
  | sym v =>
    have hv : v < blockRadix t.prof := classOf_sym_lt hc
    by_cases hp : 0 < t.padRun
    · refine .inr (.inr (.inr (.inr (.inr ⟨.padPosition, t, ?_, rfl, rfl, rfl, rfl, rfl, rfl, rfl⟩))))
      simp [decSymBody, hp]
    · have hp0 : t.padRun = 0 := by omega
      by_cases hs : t.mod + 1 = symbolsPerBlock t.prof
      · cases hf : fullBlock t.prof t.opts (t.acc * blockRadix t.prof + v) with
        | ok bs => exact .inr (.inr (.inr (.inr (.inl ⟨v, bs, hv, hp0, hs, hf, decSymBody_full hp0 hs hf⟩))))
        | error e =>
          refine .inr (.inr (.inr (.inr (.inr ⟨e, { t with acc := t.acc * blockRadix t.prof + v, mod := t.mod + 1 }, ?_,
            rfl, rfl, rfl, rfl, rfl, rfl, rfl⟩))))
          simp [decSymBody, hp0, hs, hf]
      · exact .inr (.inr (.inr (.inl ⟨v, hv, hp0, hs, decSymBody_short hp0 hs⟩)))

/-- What DEC.EOS's body can do (R208). -/
theorem decEosBody_cases (t : Context) :
    (symbolsPerBlock t.prof ≤ t.mod ∧ decEosBody t = .error (.internal .modulusRange, t)) ∨
    (t.mod = 0 ∧ decEosBody t = .ok ({ t with acc := 0, mod := 0, padRun := 0, eosf := true }, [])) ∨
    (0 < t.mod ∧ t.mod < symbolsPerBlock t.prof ∧ padReq t.prof t.opts = true ∧
      decEosBody t = .error (.format .padMissing, t)) ∨
    (∃ bs, 0 < t.mod ∧ t.mod < symbolsPerBlock t.prof ∧ padReq t.prof t.opts = false ∧
      partialFlush t.prof t.opts t.mod t.acc = .ok bs ∧
      decEosBody t = .ok ({ t with acc := 0, mod := 0, padRun := 0, eosf := true }, bs)) ∨
    (∃ e, 0 < t.mod ∧ t.mod < symbolsPerBlock t.prof ∧ padReq t.prof t.opts = false ∧
      partialFlush t.prof t.opts t.mod t.acc = .error e ∧ decEosBody t = .error (.format e, t)) := by
  unfold decEosBody
  by_cases h1 : symbolsPerBlock t.prof ≤ t.mod
  · exact .inl ⟨h1, by simp [h1]⟩
  · have h1' : t.mod < symbolsPerBlock t.prof := by omega
    by_cases h2 : 0 < t.mod
    · cases hq : padReq t.prof t.opts with
      | true => exact .inr (.inr (.inl ⟨h2, h1', rfl, by simp [h1, h2]⟩))
      | false =>
        cases hf : partialFlush t.prof t.opts t.mod t.acc with
        | ok bs => exact .inr (.inr (.inr (.inl ⟨bs, h2, h1', rfl, rfl, by simp [h1, h2]⟩)))
        | error e => exact .inr (.inr (.inr (.inr ⟨e, h2, h1', rfl, rfl, by simp [h1, h2]⟩)))
    · exact .inr (.inl ⟨by omega, by simp only [if_neg h1, if_neg h2]⟩)

/-- The general engine raises format errors only, but for a modulus out of range at end of stream. -/
theorem decFeed_error {cfg : Config} {t k : Context} {cs : List CharUnit} {e : Err}
    (h : decFeed cfg t cs = .error (e, k)) : ∃ f, e = .format f := by
  induction cs generalizing t with
  | nil => cases h
  | cons c cs ih =>
    simp only [decFeed] at h
    rcases decPutBody_cases cfg t c with h1 | ⟨_, _, _, h1⟩ | ⟨_, _, _, _, h1⟩ | ⟨_, _, _, _, h1⟩ | ⟨_, _, _, _, _, _, h1⟩ |
      ⟨f, k', h1, _⟩ <;> rw [h1] at h <;> simp only at h
    case inr.inr.inr.inr.inr => cases h; exact ⟨f, rfl⟩
    all_goals
      split at h
      · rename_i hr; cases h; exact ih hr
      · cases h

end Sys2Proof.Machine
end

