-- ==== Sys2Proof/Laws/Commands.lean ====
section
/-! SUPPORT. What a command can do, said once: the answers of its body and the state each leaves (46_control.md R322, 60_exceptions.md R340 to R347). -/

namespace Sys2Proof.Machine

/-- The PUT and EOS commands of a decoder, the only ones that store a fault (42_block_decoder.md R201). -/
def isDecoderCommand (i : Instr) : Prop := (∃ c, i = .decPut c) ∨ i = .decEos

/-- What the body of a command can answer, run on `s`. -/
inductive BodyAnswer (i : Instr) (s : State) : BodyResult → Prop
  | config (e : ConfigError) : BodyAnswer i s (.raise (.config e) s)
  | internal (e : InternalError) : BodyAnswer i s (.raise (.internal e) s)
  | format (e : FormatError) (h : isDecoderCommand i → s.ctx.fault = some e) : BodyAnswer i s (.raise (.format e) s)
  | stored (e : FormatError) (t : Context) (hi : isDecoderCommand i) (hv : t.valid = s.ctx.valid) (hf : t.fault = some e) :
      BodyAnswer i s (.raise (.format e) (s.setCtx t))
  | absence (h : isTry i = true) : BodyAnswer i s (.absence s)
  | quiet : BodyAnswer i s (.success s)
  | append (us : List CharUnit) (h : usesContext i = false) : BodyAnswer i s (.success (s.appendOut us))
  | context (t : Context) (us : List CharUnit) (h : usesContext i = true) (hn : i ≠ .srst) (hv : t.valid = true) :
      BodyAnswer i s (.success ((s.setCtx t).appendOut us))
  | created (t : Context) (h : usesContext i = true) (hn : i ≠ .srst) (hv : t.valid = true) :
      BodyAnswer i s (.success (s.setCtx t))
  | result (v : BitVec 64) (h : writesRes i = true) (hn : i ≠ .srst) : BodyAnswer i s (.success (s.setRes v))
  | reset (h : i = .srst) : BodyAnswer i s (.success ((s.discardCtx.setArg 0).setRes 0))

/-- The checks of an FP command answer with a configuration error or as the body does. -/
theorem withProfile_answer {α : Type} {i : Instr} {s : State} {served : Except ConfigError α} {f : α → Profile}
    {body : α → BodyResult} (h : ∀ a, BodyAnswer i s (body a)) : BodyAnswer i s (withProfile served f s body) := by
  rcases withProfile_cases served f s body with ⟨e, _, h1⟩ | ⟨a, _, _, h1⟩ | ⟨a, _, _, h1⟩ <;> rw [h1]
  · exact .config e
  · exact .config _
  · exact h a

/-- The ends of the whole-buffer commands and of the streams. -/
theorem commit_answer {i : Instr} {s : State} (hn : ¬ isDecoderCommand i) (hu : usesContext i = false)
    (r : Except Err (List CharUnit)) : BodyAnswer i s (commit s r) := by
  rcases r with (e | e | e) | us
  · exact .config e
  · exact .format e (fun h => (hn h).elim)
  · exact .internal e
  · exact .append us hu

theorem commitTry_answer {i : Instr} {s : State} (ht : isTry i = true) (hu : usesContext i = false)
    (r : Except Err (List CharUnit)) : BodyAnswer i s (commitTry s r) := by
  rcases r with (e | e | e) | us
  · exact .config e
  · exact .absence ht
  · exact .internal e
  · exact .append us hu

/-- The checks of a PUT or EOS answer by themselves or as the body does. -/
theorem withContext_answer {i : Instr} {s : State} {d : Direction} {body : State → BodyResult}
    (h : Open d s → BodyAnswer i s (body s)) : BodyAnswer i s (withContext d s body) := by
  rcases withContext_cases d s body with ⟨_, h1⟩ | ⟨_, _, h1⟩ | ⟨e, _, _, hf, h1⟩ | ⟨_, _, _, _, h1⟩ | ⟨ho, h1⟩ <;> rw [h1]
  · exact .config _
  · exact .config _
  · exact .format e (fun _ => hf)
  · exact .quiet
  · exact h ho

/-- The bodies of the streams keep `ctx.VALID`. -/
theorem encPutBody_valid {cfg : Config} {t t1 : Context} {b : Byte} {us : List CharUnit}
    (h : encPutBody cfg t b = .ok (t1, us)) : t1.valid = t.valid := by
  simp only [encPutBody] at h
  split at h
  · split at h
    · cases h
    · cases h; rfl
  · cases h; rfl

theorem encEosBody_valid {cfg : Config} {t t1 : Context} {us : List CharUnit}
    (h : encEosBody cfg t = .ok (t1, us)) : t1.valid = t.valid := by
  simp only [encEosBody] at h
  split at h
  · cases h
  · split at h
    · split at h
      · cases h
      · cases h; rfl
    · cases h; rfl

theorem encStream_answer {i : Instr} {s : State} {r : Except Err (Context × List CharUnit)} (hu : usesContext i = true)
    (hn : i ≠ .srst) (hv : ∀ t us, r = .ok (t, us) → t.valid = true) (he : ∀ e, r = .error e → ∃ k, e = .internal k) :
    BodyAnswer i s (encStream s r) := by
  rcases r with e | ⟨t, us⟩
  · obtain ⟨k, rfl⟩ := he e rfl
    exact .internal k
  · exact .context t us hu hn (hv t us rfl)

theorem decStream_answer {i : Instr} {s : State} {r : DecodeStep} (hu : usesContext i = true) (hd : isDecoderCommand i)
    (hn : i ≠ .srst) (hv : ∀ t bs, r = .ok (t, bs) → t.valid = true)
    (he : ∀ e t, r = .error (e, t) → t.valid = s.ctx.valid) :
    BodyAnswer i s (decStream s r) := by
  rcases r with ⟨e | e | e, t⟩ | ⟨t, bs⟩
  · exact .config e
  · exact .stored e { t with fault := some e } hd (he _ t rfl) rfl
  · exact .internal e
  · exact .context t _ hu hn (hv t bs rfl)

theorem decPutBody_valid (cfg : Config) (t : Context) (c : CharUnit) :
    (∀ t1 bs, decPutBody cfg t c = .ok (t1, bs) → t1.valid = t.valid) ∧
    ∀ e t1, decPutBody cfg t c = .error (e, t1) → t1.valid = t.valid := by
  rcases decPutBody_cases cfg t c with h1 | ⟨_, _, _, h1⟩ | ⟨_, _, _, _, h1⟩ | ⟨_, _, _, _, h1⟩ | ⟨_, _, _, _, _, _, h1⟩ |
      ⟨f, k', h1, hv, _⟩ <;> rw [h1] <;> constructor <;> intro x y h <;> cases h <;> first | rfl | exact hv

theorem decEosBody_valid (t : Context) :
    (∀ t1 bs, decEosBody t = .ok (t1, bs) → t1.valid = t.valid) ∧
    ∀ e t1, decEosBody t = .error (e, t1) → t1.valid = t.valid := by
  rcases decEosBody_cases t with ⟨_, h1⟩ | ⟨_, h1⟩ | ⟨_, _, _, h1⟩ | ⟨_, _, _, _, _, h1⟩ | ⟨_, _, _, _, _, h1⟩ <;>
    rw [h1] <;> constructor <;> intro x y h <;> cases h <;> rfl

/-- Every command completes: its body answers as `BodyAnswer` says, on the state with ABSENT cleared, and the command
cycle reports it. -/
theorem exec_answer (i : Instr) (s : State) :
    ∃ r, BodyAnswer i (s.setAbsent false) r ∧ exec i s = .next (finish r) := by
  cases i with
  | nop => exact ⟨_, .quiet, rfl⟩
  | srst => exact ⟨_, .reset rfl, rfl⟩
  | ctxEnc o p =>
    exact ⟨_, withProfile_answer (fun q => .created _ rfl (by simp) rfl), rfl⟩
  | ctxDec o p =>
    exact ⟨_, withProfile_answer (fun q => .created _ rfl (by simp) rfl), rfl⟩
  | encPut b =>
    exact ⟨_, withContext_answer (fun ho => encStream_answer rfl (by simp) (fun t us h => (encPutBody_valid h).trans ho.valid)
      (fun e h => ⟨_, encPutBody_error h⟩)), rfl⟩
  | encEos =>
    exact ⟨_, withContext_answer (fun ho => encStream_answer rfl (by simp) (fun t us h => (encEosBody_valid h).trans ho.valid)
      (fun e h => encEosBody_error h)), rfl⟩
  | decPut c =>
    exact ⟨_, withContext_answer (fun ho => decStream_answer rfl (.inl ⟨c, rfl⟩) (by simp)
      (fun t bs h => ((decPutBody_valid _ _ _).1 t bs h).trans ho.valid)
      (fun e t h => (decPutBody_valid _ _ _).2 e t h)), rfl⟩
  | decEos =>
    exact ⟨_, withContext_answer (fun ho => decStream_answer rfl (.inr rfl) (by simp)
      (fun t bs h => ((decEosBody_valid _).1 t bs h).trans ho.valid)
      (fun e t h => (decEosBody_valid _).2 e t h)), rfl⟩
  | blkEnc o p => exact ⟨_, withProfile_answer (fun q => commit_answer (by simp [isDecoderCommand]) rfl _), rfl⟩
  | blkDec o p => exact ⟨_, withProfile_answer (fun q => commit_answer (by simp [isDecoderCommand]) rfl _), rfl⟩
  | blkTryDec o p => exact ⟨_, withProfile_answer (fun q => commitTry_answer rfl rfl _), rfl⟩
  | hexFDec => exact ⟨_, commit_answer (by simp [isDecoderCommand]) rfl _, rfl⟩
  | hexTryFDec => exact ⟨_, commitTry_answer rfl rfl _, rfl⟩
  | posEnc o p => exact ⟨_, withProfile_answer (fun q => commit_answer (by simp [isDecoderCommand]) rfl _), rfl⟩
  | posDec o p => exact ⟨_, withProfile_answer (fun q => commit_answer (by simp [isDecoderCommand]) rfl _), rfl⟩
  | posTryDec o p => exact ⟨_, withProfile_answer (fun q => commitTry_answer rfl rfl _), rfl⟩
  | capMaxChar o p => exact ⟨_, withProfile_answer (fun q => .result _ rfl (by simp)), rfl⟩
  | capMaxByte o p => exact ⟨_, withProfile_answer (fun q => .result _ rfl (by simp)), rfl⟩
  | txtPad o p => exact ⟨_, withProfile_answer (fun q => commit_answer (by simp [isDecoderCommand]) rfl _), rfl⟩
  | txtUnpad o p => exact ⟨_, withProfile_answer (fun q => commit_answer (by simp [isDecoderCommand]) rfl _), rfl⟩

end Sys2Proof.Machine
end

