-- ==== Sys2Proof/Laws/Decode.lean ====
section
/-! SUPPORT. The fields of a command word as arithmetic, and each format's decoding of its own encoding. -/

namespace Sys2Proof

/-- Concatenation as arithmetic. -/
theorem append_toNat {m n : Nat} (x : BitVec m) (y : BitVec n) : (x ++ y).toNat = x.toNat * 2 ^ n + y.toNat := by
  rw [BitVec.toNat_append, ← Nat.shiftLeft_add_eq_or_of_lt y.isLt, Nat.shiftLeft_eq]

/-- The value of an FP word (30_encoding.md R104). -/
theorem encodeFP_toNat (c : BitVec 8) (o : Options) (p : ProfCode) :
    (encodeFP c o p).toNat = c.toNat * 2 ^ 24 + o.toNat * 2 ^ 16 + p.toNat := by
  have h : (encodeFP c o p).toNat = (((c ++ o : BitVec (8 + 8)) ++ 0#12 : BitVec (8 + 8 + 12)) ++ p).toNat := rfl
  rw [h, append_toNat, append_toNat, append_toNat]
  have : (0#12).toNat = 0 := rfl
  omega

/-- The value of an F0 word (R101). -/
theorem encodeF0_toNat (c : BitVec 8) : (encodeF0 c).toNat = c.toNat * 2 ^ 24 := by
  have h : (encodeF0 c).toNat = (c ++ 0#24).toNat := rfl
  have h0 : (0#24).toNat = 0 := rfl
  rw [h, append_toNat, h0, Nat.add_zero]

/-- The value of an FB word (R102). -/
theorem encodeFB_toNat (c : BitVec 8) (b : Byte) : (encodeFB c b).toNat = c.toNat * 2 ^ 24 + b.toNat := by
  have h : (encodeFB c b).toNat = ((c ++ 0#16 : BitVec (8 + 16)) ++ b).toNat := rfl
  rw [h, append_toNat, append_toNat]
  have : (0#16).toNat = 0 := rfl
  omega

/-- The value of an FC word (R103). -/
theorem encodeFC_toNat (c : BitVec 8) (b : CharUnit) : (encodeFC c b).toNat = c.toNat * 2 ^ 24 + b.toNat := by
  have h : (encodeFC c b).toNat = ((c ++ 0#8 : BitVec (8 + 8)) ++ b).toNat := rfl
  rw [h, append_toNat, append_toNat]
  have : (0#8).toNat = 0 := rfl
  omega

/-- A field of a word as arithmetic. -/
theorem field_toNat (w : RegWord) (lo n : Nat) : (w.extractLsb' lo n).toNat = w.toNat / 2 ^ lo % 2 ^ n := by
  rw [BitVec.extractLsb'_toNat, Nat.shiftRight_eq_div_pow]

/-- The opcode is the word divided by 2^24 (R100). -/
theorem opcField_toNat (w : RegWord) : (opcField w).toNat = w.toNat / 2 ^ 24 := by
  have := w.isLt
  rw [opcField, field_toNat]; omega

/-- Taking an F0 word apart gives its command. -/
theorem decodeF0_encode (c : BitVec 8) (i : Instr) : decodeF0 (encodeF0 c) i = .ok i := by
  have h := encodeF0_toNat c
  have hc := c.isLt
  rw [decodeF0, if_pos]
  constructor <;> apply BitVec.eq_of_toNat_eq <;> simp only [optField, opdField, field_toNat, h]
  · show _ = 0; omega
  · show _ = 0; omega

/-- Taking an FP word apart gives its operands back. -/
theorem decodeFP_encode (c : BitVec 8) (o : Options) (p : ProfCode) (k : Options → ProfCode → Instr) :
    decodeFP (encodeFP c o p) k = .ok (k o p) := by
  have h := encodeFP_toNat c o p
  have hc := c.isLt
  have ho := o.isLt
  have hp := p.isLt
  have h1 : optField (encodeFP c o p) = o := by
    apply BitVec.eq_of_toNat_eq; simp only [optField, field_toNat, h]; omega
  have h2 : (encodeFP c o p).extractLsb' 0 4 = p := by
    apply BitVec.eq_of_toNat_eq; simp only [field_toNat, h]; omega
  rw [decodeFP, if_pos, h1, h2]
  apply BitVec.eq_of_toNat_eq; simp only [field_toNat, h]; show _ = 0; omega

/-- Taking an FB word apart gives its byte back. -/
theorem decodeFB_encode (c : BitVec 8) (b : Byte) (k : Byte → Instr) : decodeFB (encodeFB c b) k = .ok (k b) := by
  have h := encodeFB_toNat c b
  have hc := c.isLt
  have hb := b.isLt
  have h2 : (encodeFB c b).extractLsb' 0 8 = b := by
    apply BitVec.eq_of_toNat_eq; simp only [field_toNat, h]; omega
  rw [decodeFB, if_pos, h2]
  constructor <;> apply BitVec.eq_of_toNat_eq <;> simp only [optField, field_toNat, h] <;> (show _ = 0; omega)

/-- Taking an FC word apart gives its character back. -/
theorem decodeFC_encode (c : BitVec 8) (b : CharUnit) (k : CharUnit → Instr) : decodeFC (encodeFC c b) k = .ok (k b) := by
  have h := encodeFC_toNat c b
  have hc := c.isLt
  have hb := b.isLt
  have h2 : opdField (encodeFC c b) = b := by
    apply BitVec.eq_of_toNat_eq; simp only [opdField, field_toNat, h]; omega
  rw [decodeFC, if_pos, h2]
  apply BitVec.eq_of_toNat_eq; simp only [optField, field_toNat, h]; show _ = 0; omega

end Sys2Proof
end

