-- ==== Sys2Proof/Laws/Options.lean ====
section
/-! SUPPORT. What each shared operation reads of the options (30_encoding.md R112): it answers the same under options that agree on those flags. -/

namespace Sys2Proof.Machine

theorem emitGroup_congr {cfg : Config} {p : BlockProfile} {o o' : Options} {pos : Nat} {g : List CharUnit}
    (h : SameFlags [.wrap, .indent] o o') : emitGroup cfg p o pos g = emitGroup cfg p o' pos g := by
  simp [SameFlags] at h
  simp [emitGroup, sepEff, wrapEff, h]

theorem partialGroup_congr {cfg : Config} {p : BlockProfile} {o o' : Options} {r acc : Nat}
    (h : SameFlags [.unpad] o o') : partialGroup cfg p o r acc = partialGroup cfg p o' r acc := by
  simp [SameFlags] at h
  simp [partialGroup, h]

theorem classOf_congr {cfg : Config} {p : Profile} {o o' : Options} {c : CharUnit}
    (h : SameFlags [.relax, .pure, .wrap, .indent] o o') : classOf cfg p o c = classOf cfg p o' c := by
  simp [SameFlags] at h
  simp [classOf, skippable, h]

theorem padReq_congr {p : BlockProfile} {o o' : Options} (h : has o .padding = has o' .padding ∨ p = .p16) :
    padReq p o = padReq p o' := by
  rcases h with h | rfl
  · simp [padReq, h]
  · simp [padReq, show (BlockProfile.p16 == .p64) = false from rfl, show (BlockProfile.p16 == .p24) = false from rfl]

theorem partialFlush_congr {p : BlockProfile} {o o' : Options} {m acc : Nat} (h : SameFlags [.relax] o o') :
    partialFlush p o m acc = partialFlush p o' m acc := by
  simp [SameFlags] at h
  simp [partialFlush, h]

theorem fullBlock_congr {p : BlockProfile} {o o' : Options} {acc : Nat} (h : SameFlags [.relax] o o') :
    fullBlock p o acc = fullBlock p o' acc := by
  simp [SameFlags] at h
  simp [fullBlock, h]

theorem positionalValues_congr {cfg : Config} {o o' : Options} {cs : List CharUnit}
    (h : SameFlags [.relax, .pure, .wrap, .indent] o o') : positionalValues cfg o cs = positionalValues cfg o' cs := by
  induction cs with
  | nil => rfl
  | cons c cs ih => simp only [positionalValues, ih, classOf_congr h]

end Sys2Proof.Machine
end

