-- ==== Sys2Proof/Laws/PerInstr.lean ====
section
/-! SUPPORT. Families of statements about every command as syntax, one lemma per constructor. -/

namespace Sys2Proof.Laws

/-- A command's word has an opcode of the map and zeros in every field its format requires to be zero (30_encoding.md
R101 to R104, R107, R108). -/
def EncodedFields.Statement (i : Instr) : Prop := LegalWord (encode i)

/-- An F0 word with an opcode of the map is legal (R101). -/
theorem legalWord_F0 {c : BitVec 8} (h : c.toNat ∈ opcodesF0) : LegalWord (encodeF0 c) := by
  have hw := encodeF0_toNat c
  refine .inl ⟨?_, by omega⟩
  have hq : (encodeF0 c).toNat / 2 ^ 24 = c.toNat := by omega
  rw [hq]; exact h

/-- An FP word with an opcode of the map is legal (R104). -/
theorem legalWord_FP {c : BitVec 8} (o : Options) (p : ProfCode) (h : c.toNat ∈ opcodesFP) :
    LegalWord (encodeFP c o p) := by
  have hw := encodeFP_toNat c o p
  have ho := o.isLt
  have hp := p.isLt
  refine .inr (.inr (.inr ⟨?_, by omega⟩))
  have hq : (encodeFP c o p).toNat / 2 ^ 24 = c.toNat := by omega
  rw [hq]; exact h

namespace EncodedFields

theorem nop : Statement .nop := legalWord_F0 (by decide)

theorem ctxEnc (o : Options) (p : ProfCode) : Statement (.ctxEnc o p) := legalWord_FP o p (by decide)

theorem ctxDec (o : Options) (p : ProfCode) : Statement (.ctxDec o p) := legalWord_FP o p (by decide)

theorem encPut (b : Byte) : Statement (.encPut b) := by
  have hw := encodeFB_toNat 0x10#8 b
  have hb := b.isLt
  have h16 : (0x10#8).toNat = 0x10 := rfl
  exact .inr (.inl ⟨by simp only [encode]; omega, by simp only [encode]; omega⟩)

theorem encEos : Statement .encEos := legalWord_F0 (by decide)

theorem decPut (c : CharUnit) : Statement (.decPut c) := by
  have hw := encodeFC_toNat 0x20#8 c
  have hb := c.isLt
  have h20 : (0x20#8).toNat = 0x20 := rfl
  exact .inr (.inr (.inl ⟨by simp only [encode]; omega, by simp only [encode]; omega⟩))

theorem decEos : Statement .decEos := legalWord_F0 (by decide)

theorem blkEnc (o : Options) (p : ProfCode) : Statement (.blkEnc o p) := legalWord_FP o p (by decide)

theorem blkDec (o : Options) (p : ProfCode) : Statement (.blkDec o p) := legalWord_FP o p (by decide)

theorem blkTryDec (o : Options) (p : ProfCode) : Statement (.blkTryDec o p) := legalWord_FP o p (by decide)

theorem hexFDec : Statement .hexFDec := legalWord_F0 (by decide)

theorem hexTryFDec : Statement .hexTryFDec := legalWord_F0 (by decide)

theorem posEnc (o : Options) (p : ProfCode) : Statement (.posEnc o p) := legalWord_FP o p (by decide)

theorem posDec (o : Options) (p : ProfCode) : Statement (.posDec o p) := legalWord_FP o p (by decide)

theorem posTryDec (o : Options) (p : ProfCode) : Statement (.posTryDec o p) := legalWord_FP o p (by decide)

theorem capMaxChar (o : Options) (p : ProfCode) : Statement (.capMaxChar o p) := legalWord_FP o p (by decide)

theorem capMaxByte (o : Options) (p : ProfCode) : Statement (.capMaxByte o p) := legalWord_FP o p (by decide)

theorem txtPad (o : Options) (p : ProfCode) : Statement (.txtPad o p) := legalWord_FP o p (by decide)

theorem txtUnpad (o : Options) (p : ProfCode) : Statement (.txtUnpad o p) := legalWord_FP o p (by decide)

theorem srst : Statement .srst := legalWord_F0 (by decide)

end EncodedFields

end Sys2Proof.Laws
end

