-- ==== Sys2Proof/Laws/Positional.lean ====
section
/-! SUPPORT. The conversions of the positional codec and the capacity bounds (43_positional.md, 44_capacity.md). -/

namespace Sys2Proof.Machine

/-- A tag is 4 bytes (43_positional.md R251). -/
@[simp] theorem checksumTag_length (h : HashFn) (d : List Byte) : (checksumTag h d).length = 4 := rfl

/-- `pos_len` is the least c with `58^c >= 256^m` (44_capacity.md R280). -/
theorem posLen_spec (m : Nat) :
    256 ^ m ≤ 58 ^ posLen m ∧ posLen m ≤ 2 * m ∧ ∀ c < posLen m, 58 ^ c < 256 ^ m := by
  have h := leastFrom_spec (p := fun c => decide (256 ^ m ≤ 58 ^ c)) (fuel := 2 * m) (c := 0) (k := 2 * m)
    (Nat.zero_le _) (by omega) (by
      simp only [decide_eq_true_eq]
      rw [pow_mul]; exact Nat.pow_le_pow_left (by decide) m)
  refine ⟨by simpa [posLen] using h.1, h.2.1, fun c hc => ?_⟩
  simpa using h.2.2 c (Nat.zero_le _) hc

/-- A result that fits is what RES holds (44_capacity.md R281). -/
theorem resOf_toNat {n : Nat} (h : n < 2 ^ 64) : (resOf n).toNat = n := by
  simp only [resOf, if_pos h, BitVec.toNat_ofNat]; omega

/-- The digits of POS.ENC are below the radix. -/
theorem positionalDigits_lt (d : List Byte) : ∀ x ∈ positionalDigits d, x < 58 := by
  intro x hx
  simp only [positionalDigits, List.mem_append] at hx
  rcases hx with hx | hx
  · rw [List.eq_of_mem_replicate hx]; decide
  · exact numeral_lt (by decide) _ x hx

/-- With a table of the right size POS.ENC's encoding succeeds. -/
theorem positionalEncode_defined {cfg : Config} (hs : sizeOk cfg .p58 = true) (o : Options) (bs : List Byte) :
    ∃ us, positionalEncode cfg o bs = .ok us ∧ us.length = (positionalDigits (checksummed cfg o bs)).length :=
  symbolsAt_defined hs (positionalDigits_lt _)

/-- A number below 2^n has at most n bits (00_scope.md R10). -/
theorem bitlen_le {v n : Nat} (h : v < 2 ^ n) : bitlen v ≤ n := by
  unfold bitlen
  split
  · omega
  · rename_i hv
    exact (Nat.log2_lt hv).2 h

/-- `minBE(v)` has as many bytes as v needs. -/
theorem minBE_length_le {v n : Nat} (h : v < 256 ^ n) : (minBE v).length ≤ n := by
  have h8 : v < 2 ^ (8 * n) := by rw [pow_mul]; exact h
  have := bitlen_le h8
  simp only [minBE, bytesBE_length, ceilDiv]; omega

/-- `minBE(v)` spells v. -/
theorem valBE_minBE (v : Nat) : valBE (minBE v) = v := by
  rw [minBE, valBE_bytesBE, Nat.mod_eq_of_lt]
  refine lt_of_lt_of_le (bitlen_lt v) ?_
  have : (256 : Nat) ^ ceilDiv (bitlen v) 8 = 2 ^ (8 * ceilDiv (bitlen v) 8) := by
    rw [show (256 : Nat) = 2 ^ 8 from rfl, ← pow_mul]
  rw [this]
  exact Nat.pow_le_pow_right (by decide) (by simp only [ceilDiv]; omega)

/-- The bytes of the value of a sequence without a leading zero byte are that sequence (43_positional.md R257). -/
theorem minBE_valBE {bs : List Byte} (h : bs.head? ≠ some 0#8) : minBE (valBE bs) = bs := by
  have hlen : (minBE (valBE bs)).length = bs.length := by
    refine le_antisymm (minBE_length_le (valBE_lt bs)) ?_
    by_contra hc
    rw [not_le] at hc
    cases bs with
    | nil => simp at hc
    | cons b bs =>
      have hb : b ≠ 0#8 := fun hb => h (by rw [hb]; rfl)
      have hb0 : 0 < b.toNat := by
        rcases Nat.eq_zero_or_pos b.toNat with h0 | h0
        · exact (hb (BitVec.eq_of_toNat_eq h0)).elim
        · exact h0
      have hv : 256 ^ bs.length ≤ valBE (b :: bs) := by
        have key : ∀ (xs : List Nat) (a : Nat), a * 256 ^ xs.length ≤ xs.foldl (fun n d => n * 256 + d) a := by
          intro xs
          induction xs with
          | nil => intro a; simp
          | cons x xs ih =>
            intro a
            refine le_trans ?_ (ih (a * 256 + x))
            rw [List.length_cons, pow_succ]; nlinarith [Nat.zero_le (x * 256 ^ xs.length)]
        have := key (bs.map BitVec.toNat) b.toNat
        simp only [List.length_map] at this
        have hfold : valBE (b :: bs) = (bs.map BitVec.toNat).foldl (fun n d => n * 256 + d) b.toNat := by
          simp [valBE, valDigits]
        rw [hfold]
        exact le_trans (Nat.le_mul_of_pos_left _ hb0) this
      have h1 := valBE_lt (minBE (valBE (b :: bs)))
      rw [valBE_minBE] at h1
      have h2 : 256 ^ (minBE (valBE (b :: bs))).length ≤ 256 ^ bs.length :=
        Nat.pow_le_pow_right (by decide) (by simp only [List.length_cons] at hc; omega)
      omega
  have h1 := bytesBE_valBE (minBE (valBE bs))
  rw [valBE_minBE, hlen, bytesBE_valBE] at h1
  exact h1.symm

/-- The leading run and the rest. -/
theorem zlead_split {α : Type} [BEq α] [LawfulBEq α] (xs : List α) (z : α) :
    xs = List.replicate (zlead xs z) z ++ xs.drop (zlead xs z) ∧ (xs.drop (zlead xs z)).head? ≠ some z := by
  induction xs with
  | nil => simp [zlead]
  | cons x xs ih =>
    by_cases hx : x = z
    · subst hx
      have h1 : zlead (x :: xs) x = zlead xs x + 1 := by simp [zlead]
      rw [h1, List.replicate_succ, List.cons_append, List.drop_succ_cons]
      exact ⟨by rw [← ih.1], ih.2⟩
    · have h1 : zlead (x :: xs) z = 0 := by simp [zlead, hx]
      rw [h1]; simp [hx]

theorem zlead_replicate_append {α : Type} [BEq α] [LawfulBEq α] (k : Nat) (z : α) {ys : List α} (h : ys.head? ≠ some z) :
    zlead (List.replicate k z ++ ys) z = k := by
  induction k with
  | zero =>
    cases ys with
    | nil => rfl
    | cons y ys =>
      have : y ≠ z := fun hy => h (by rw [hy]; rfl)
      simp [zlead, this]
  | succ k ih =>
    have : zlead (List.replicate (k + 1) z ++ ys) z = zlead (List.replicate k z ++ ys) z + 1 := by
      simp [zlead, List.replicate_succ]
    omega

/-- Decoding the digits of a payload gives the payload (43_positional.md R257). -/
theorem positionalBytes_digits (d : List Byte) : positionalBytes (positionalDigits d) = d := by
  obtain ⟨h1, h2⟩ := zlead_split d 0#8
  have hz : zlead (positionalDigits d) 0 = zlead d 0#8 :=
    zlead_replicate_append _ _ (numeral_head?_ne (by decide) _)
  have hd : (positionalDigits d).drop (zlead d 0#8) = numeral 58 (valBE (d.drop (zlead d 0#8))) := by
    simp [positionalDigits]
  rw [positionalBytes, hz, hd, valDigits_numeral (by decide), minBE_valBE h2]
  exact h1.symm

/-- The values of a text of symbols are their digits. -/
theorem positionalValues_symbols {cfg : Config} {o : Options} {ds : List Nat} {g : List CharUnit} (h : configOk cfg = true)
    (hg : symbolsAt cfg .p58 ds = .ok g) : positionalValues cfg o g = .ok ds := by
  rw [symbolsAt_iff] at hg
  induction ds generalizing g with
  | nil => cases g <;> simp_all [positionalValues]
  | cons d ds ih =>
    cases g with
    | nil => simp at hg
    | cons c g =>
      simp only [List.map_cons, List.cons.injEq] at hg
      simp only [positionalValues, classOf_symbolAt h hg.1, ih hg.2]

/-- `minBE(v)` has no leading zero byte (00_scope.md R10). -/
theorem minBE_head?_ne (v : Nat) : (minBE v).head? ≠ some 0#8 := by
  intro h
  obtain ⟨bs, hb⟩ : ∃ bs, minBE v = 0#8 :: bs := by
    cases hm : minBE v with
    | nil => rw [hm] at h; cases h
    | cons b bs => rw [hm] at h; cases h; exact ⟨bs, rfl⟩
  have h1 : valBE bs = v := by
    rw [← valBE_minBE v, hb]; simp [valBE, valDigits]
  have h2 := minBE_length_le (h1 ▸ valBE_lt bs)
  rw [hb, List.length_cons] at h2
  omega

/-- Without an invalid character the values are those of the symbols, in order (43_positional.md R253). -/
theorem positionalValues_filterMap {cfg : Config} {o : Options} {cs : List CharUnit}
    (h : ∀ c ∈ cs, indexOf cfg .p58 c = none → Skipped cfg o c) :
    positionalValues cfg o cs = .ok (cs.filterMap (indexOf cfg .p58)) := by
  induction cs with
  | nil => rfl
  | cons c cs ih =>
    have ih := ih fun x hx => h x (List.mem_cons_of_mem _ hx)
    have hp : padOf cfg .p58 ≠ some c := by simp [padOf]
    cases hi : indexOf cfg .p58 c with
    | none => simp [positionalValues, classOf_skip hp hi (h c (by simp) hi), ih, hi]
    | some v => simp [positionalValues, classOf_sym hp hi, ih, hi]

/-- An invalid character fails the decode (43_positional.md R253). -/
theorem positionalValues_invalid {cfg : Config} {o : Options} {cs : List CharUnit}
    (h : ∃ c ∈ cs, indexOf cfg .p58 c = none ∧ ¬ Skipped cfg o c) :
    positionalValues cfg o cs = .error .invalidChar := by
  induction cs with
  | nil => simp at h
  | cons c cs ih =>
    have hp : padOf cfg .p58 ≠ some c := by simp [padOf]
    by_cases hc : indexOf cfg .p58 c = none ∧ ¬ Skipped cfg o c
    · simp [positionalValues, classOf_invalid hp hc.1 hc.2]
    · have ih := ih (by
        obtain ⟨x, hx, hn⟩ := h
        rcases List.mem_cons.1 hx with rfl | hx
        · exact absurd hn hc
        · exact ⟨x, hx, hn⟩)
      rw [positionalValues, ih]
      cases hcl : classOf cfg .p58 o c with
      | sym v => rfl
      | skip => rfl
      | pad => rfl
      | invalid => rfl

/-- The payload of values with k leading zeros (43_positional.md R254). -/
theorem positionalBytes_split (k : Nat) {vs : List Nat} (h : vs.head? ≠ some 0) :
    positionalBytes (List.replicate k 0 ++ vs) = List.replicate k 0#8 ++ minBE (valDigits 58 vs) := by
  have hz := zlead_replicate_append k 0 h
  simp [positionalBytes, hz]

/-- The digits of a payload with k leading zero bytes (43_positional.md R252). -/
theorem positionalDigits_split (k : Nat) {bs : List Byte} (h : bs.head? ≠ some 0#8) :
    positionalDigits (List.replicate k 0#8 ++ bs) = List.replicate k 0 ++ numeral 58 (valBE bs) := by
  have hz := zlead_replicate_append k 0#8 h
  simp [positionalDigits, hz]

end Sys2Proof.Machine
end

