-- ==== Sys2Proof/Laws/Streams.lean ====
section
/-! SUPPORT. The bodies of the streams on a context within the bounds of 10_state.md R31 to R35: they keep the bounds, and the decoder's fail with format errors only. -/

namespace Sys2Proof.Machine

/-- What the body of a PUT leaves alone. -/
structure SameStream (t u : Context) : Prop where
  valid : u.valid = t.valid
  dir : u.dir = t.dir
  prof : u.prof = t.prof
  opts : u.opts = t.opts
  fault : u.fault = t.fault
  eosf : u.eosf = t.eosf

/-- ENC.PUT's body on a bounded context with a table of the right size succeeds, keeps the bounds of R31 to R34 and
leaves the rest of the context alone. -/
theorem encPutBody_keeps {cfg : Config} {t : Context} (hs : sizeOk cfg (.block t.prof) = true) (hd : t.dir = .encoder)
    (hb : ContextBounds cfg t) (b : Byte) :
    ∃ u us, encPutBody cfg t b = .ok (u, us) ∧ SameStream t u ∧ ContextBounds cfg u := by
  simp only [ContextBounds, hd] at hb
  obtain ⟨hm, ha, hp, hl⟩ := hb
  have hb := b.isLt
  rcases encPutBody_cases hs b with ⟨h1, h⟩ | ⟨h1, g, us, pos, _, _, he, h⟩
  · refine ⟨_, _, h, ⟨rfl, rfl, rfl, rfl, rfl, rfl⟩, ?_⟩
    simp only [ContextBounds, hd]
    refine ⟨by omega, ?_, hp, hl⟩
    rw [pow_succ]; omega
  · refine ⟨_, _, h, ⟨rfl, rfl, rfl, rfl, rfl, rfl⟩, ?_⟩
    simp only [ContextBounds, hd]
    refine ⟨bytesPerBlock_pos _, by simp, hp, ?_⟩
    have := emitGroup_pos_le cfg t.prof t.opts t.linePos g
    rwa [he] at this

/-- ENC.EOS's body on such a context succeeds and leaves nothing held. -/
theorem encEosBody_keeps {cfg : Config} {t : Context} (hs : sizeOk cfg (.block t.prof) = true) (hd : t.dir = .encoder)
    (hb : ContextBounds cfg t) :
    ∃ u us, encEosBody cfg t = .ok (u, us) ∧ u.valid = t.valid ∧ u.dir = t.dir ∧ u.prof = t.prof ∧ u.opts = t.opts ∧
      u.fault = t.fault ∧ u.eosf = true ∧ u.mod = 0 ∧ u.acc = 0 ∧ u.padRun = 0 ∧ ContextBounds cfg u := by
  simp only [ContextBounds, hd] at hb
  obtain ⟨hm, ha, hp, hl⟩ := hb
  rcases encEosBody_cases hs hm with ⟨h1, h⟩ | ⟨h1, g, us, pos, _, he, h⟩
  · refine ⟨_, _, h, rfl, rfl, rfl, rfl, rfl, rfl, rfl, rfl, hp, ?_⟩
    simp only [ContextBounds, hd]
    exact ⟨bytesPerBlock_pos _, by simp, hp, hl⟩
  · refine ⟨_, _, h, rfl, rfl, rfl, rfl, rfl, rfl, rfl, rfl, hp, ?_⟩
    simp only [ContextBounds, hd]
    refine ⟨bytesPerBlock_pos _, by simp, hp, ?_⟩
    have := emitGroup_pos_le cfg t.prof t.opts t.linePos g
    rwa [he] at this

/-- DEC.PUT's body on a bounded context succeeds within the bounds of R31 to R33, or fails with a format error. -/
theorem decPutBody_keeps {cfg : Config} {t : Context} (hd : t.dir = .decoder) (hb : ContextBounds cfg t) (c : CharUnit) :
    (∃ u bs, decPutBody cfg t c = .ok (u, bs) ∧ SameStream t u ∧ ContextBounds cfg u) ∨
    ∃ e k, decPutBody cfg t c = .error (.format e, k) ∧ SameStream t k := by
  have hb' := hb
  simp only [ContextBounds, hd] at hb
  obtain ⟨hm, ha, hl, hp⟩ := hb
  have hS := symbolsPerBlock_pos t.prof
  rcases decPutBody_cases cfg t c with h | ⟨hr, h0, hn, h⟩ | ⟨bs, h0, h1, _, h⟩ | ⟨v, hv, h0, h1, h⟩ | ⟨v, bs, hv, h0, h1, _, h⟩ |
    ⟨e, k, h, h1, h2, h3, h4, h5, h6, h7⟩
  · exact .inl ⟨_, _, h, ⟨rfl, rfl, rfl, rfl, rfl, rfl⟩, hb'⟩
  · refine .inl ⟨_, _, h, ⟨rfl, rfl, rfl, rfl, rfl, rfl⟩, ?_⟩
    simp only [ContextBounds, hd]
    exact ⟨hm, ha, hl, .inr ⟨by omega, by omega, h0, hr⟩⟩
  · refine .inl ⟨_, _, h, ⟨rfl, rfl, rfl, rfl, rfl, rfl⟩, ?_⟩
    simp only [ContextBounds, hd]
    exact ⟨hS, by simp, hl, .inl trivial⟩
  · refine .inl ⟨_, _, h, ⟨rfl, rfl, rfl, rfl, rfl, rfl⟩, ?_⟩
    simp only [ContextBounds, hd]
    refine ⟨by omega, ?_, hl, .inl h0⟩
    rw [pow_succ]
    calc t.acc * blockRadix t.prof + v < t.acc * blockRadix t.prof + blockRadix t.prof := by omega
      _ = (t.acc + 1) * blockRadix t.prof := by ring
      _ ≤ blockRadix t.prof ^ t.mod * blockRadix t.prof := Nat.mul_le_mul_right _ ha
  · refine .inl ⟨_, _, h, ⟨rfl, rfl, rfl, rfl, rfl, rfl⟩, ?_⟩
    simp only [ContextBounds, hd]
    exact ⟨hS, by simp, hl, .inl h0⟩
  · exact .inr ⟨e, k, h, ⟨h1, h2, h3, h4, h6, h5⟩⟩

/-- DEC.EOS's body on such a context leaves nothing held, or fails with a format error and leaves it alone. -/
theorem decEosBody_keeps {cfg : Config} {t : Context} (hd : t.dir = .decoder) (hb : ContextBounds cfg t) :
    (∃ u bs, decEosBody t = .ok (u, bs) ∧ u = { t with acc := 0, mod := 0, padRun := 0, eosf := true } ∧ ContextBounds cfg u) ∨
    ∃ e, decEosBody t = .error (.format e, t) := by
  simp only [ContextBounds, hd] at hb
  obtain ⟨hm, ha, hl, hp⟩ := hb
  have hS := symbolsPerBlock_pos t.prof
  have key : ContextBounds cfg { t with acc := 0, mod := 0, padRun := 0, eosf := true } := by
    simp only [ContextBounds, hd]
    exact ⟨hS, by simp, hl, .inl trivial⟩
  rcases decEosBody_cases t with ⟨h1, _⟩ | ⟨_, h⟩ | ⟨_, _, _, h⟩ | ⟨bs, _, _, _, _, h⟩ | ⟨e, _, _, _, _, h⟩
  · omega
  · exact .inl ⟨_, _, h, rfl, key⟩
  · exact .inr ⟨_, h⟩
  · exact .inl ⟨_, _, h, rfl, key⟩
  · exact .inr ⟨_, h⟩

/-- The whole encoder on a bounded context succeeds. -/
theorem encFeed_keeps {cfg : Config} {t : Context} (hs : sizeOk cfg (.block t.prof) = true) (hd : t.dir = .encoder)
    (hb : ContextBounds cfg t) (bs : List Byte) :
    ∃ u us, encFeed cfg t bs = .ok (u, us) ∧ SameStream t u ∧ ContextBounds cfg u := by
  induction bs generalizing t with
  | nil => exact ⟨t, [], rfl, ⟨rfl, rfl, rfl, rfl, rfl, rfl⟩, hb⟩
  | cons b bs ih =>
    obtain ⟨u, us, h, hk, hbu⟩ := encPutBody_keeps hs hd hb b
    obtain ⟨w, vs, h2, hk2, hbw⟩ := ih (t := u) (by rw [hk.prof]; exact hs) (hk.dir.trans hd) hbu
    refine ⟨w, us ++ vs, by simp only [encFeed, h, h2], ⟨?_, ?_, ?_, ?_, ?_, ?_⟩, hbw⟩
    · exact hk2.valid.trans hk.valid
    · exact hk2.dir.trans hk.dir
    · exact hk2.prof.trans hk.prof
    · exact hk2.opts.trans hk.opts
    · exact hk2.fault.trans hk.fault
    · exact hk2.eosf.trans hk.eosf

/-- The whole decoder on a bounded context succeeds within the bounds or fails with a format error. -/
theorem decFeed_keeps {cfg : Config} {t : Context} (hd : t.dir = .decoder) (hb : ContextBounds cfg t) (cs : List CharUnit) :
    (∃ u bs, decFeed cfg t cs = .ok (u, bs) ∧ SameStream t u ∧ ContextBounds cfg u) ∨
    ∃ e k, decFeed cfg t cs = .error (.format e, k) := by
  induction cs generalizing t with
  | nil => exact .inl ⟨t, [], rfl, ⟨rfl, rfl, rfl, rfl, rfl, rfl⟩, hb⟩
  | cons c cs ih =>
    rcases decPutBody_keeps hd hb c with ⟨u, us, h, hk, hbu⟩ | ⟨e, k, h, _⟩
    · rcases ih (t := u) (hk.dir.trans hd) hbu with ⟨w, vs, h2, hk2, hbw⟩ | ⟨e, k, h2⟩
      · refine .inl ⟨w, us ++ vs, by simp only [decFeed, h, h2], ⟨?_, ?_, ?_, ?_, ?_, ?_⟩, hbw⟩
        · exact hk2.valid.trans hk.valid
        · exact hk2.dir.trans hk.dir
        · exact hk2.prof.trans hk.prof
        · exact hk2.opts.trans hk.opts
        · exact hk2.fault.trans hk.fault
        · exact hk2.eosf.trans hk.eosf
      · exact .inr ⟨e, k, by simp only [decFeed, h, h2]⟩
    · exact .inr ⟨e, k, by simp only [decFeed, h]⟩

/-- A new context is within the bounds. -/
theorem freshContext_bounds (cfg : Config) (d : Direction) (p : BlockProfile) (o : Options) :
    ContextBounds cfg (freshContext d p o) := by
  cases d
  · exact ⟨bytesPerBlock_pos p, by simp [freshContext], rfl, Nat.zero_le _⟩
  · exact ⟨symbolsPerBlock_pos p, by simp [freshContext], rfl, .inl rfl⟩

/-- BLK.ENC's encoding succeeds with a table of the right size. -/
theorem blockEncode_defined {cfg : Config} {p : BlockProfile} (hs : sizeOk cfg (.block p) = true) (o : Options) (bs : List Byte) :
    ∃ us, blockEncode cfg p o bs = .ok us := by
  obtain ⟨t, us, h, hk, hb⟩ := encFeed_keeps (t := freshContext .encoder p o) hs rfl (freshContext_bounds ..) bs
  obtain ⟨u, vs, h2, _⟩ := encEosBody_keeps (t := t) (by rw [hk.prof]; exact hs) hk.dir hb
  exact ⟨us ++ vs, by simp only [blockEncode, h, h2]⟩

/-- The general decoder fails with format errors only. -/
theorem generalDecode_error {cfg : Config} {p : BlockProfile} {o : Options} {cs : List CharUnit} {e : Err}
    (h : generalDecode cfg p o cs = .error e) : ∃ f, e = .format f := by
  simp only [generalDecode] at h
  rcases decFeed_keeps (cfg := cfg) (t := freshContext .decoder p o) rfl (freshContext_bounds ..) cs with ⟨u, bs, h1, hk, hb⟩ | ⟨f, k, h1⟩
  · rcases decEosBody_keeps (hk.dir) hb with ⟨w, ds, h2, _⟩ | ⟨f, h2⟩
    · simp only [h1, h2] at h; cases h
    · simp only [h1, h2] at h; cases h; exact ⟨f, rfl⟩
  · simp only [h1] at h; cases h; exact ⟨f, rfl⟩

/-- BLK.DEC's decoding fails with format errors only. -/
theorem blockDecodeUnits_error {cfg : Config} {p : BlockProfile} {o : Options} {cs : List CharUnit} {e : Err}
    (h : blockDecodeUnits cfg p o cs = .error e) : ∃ f, e = .format f := by
  simp only [blockDecodeUnits] at h
  split at h
  · cases hf : fastDecode cs <;> rw [hf] at h <;> cases h; exact ⟨_, rfl⟩
  · split at h
    · cases h
    · rename_i he; cases h; exact generalDecode_error he

end Sys2Proof.Machine
end

