-- ==== Sys2Proof/Tests/Slice0.lean ====
section
/-! SUPPORT. Small tests: command words, one step of each command on the vectors of 95_test_vectors.md, and for every statement with hypotheses a concrete case that meets them. -/

namespace Sys2Proof.Tests

open Sys2Proof Sys2Proof.Machine

/-- A configuration of the default tables with the widths of 95_test_vectors.md's wrapped vectors, a short IN and a
window away from 0. -/
def smallConfig : Config :=
  { defaultConfig with width16 := 4, width64 := 4, width24 := 7, maxIn := 8, base := 0x100 }

/-- Power-on with IN loaded. -/
def loaded (us : List CharUnit) : State := { State.powerOn smallConfig with inp := us }

/-- Power-on with a streaming context. -/
def streaming (t : Context) : State := { State.powerOn smallConfig with ctx := t }

/-- Power-on with ARG set. -/
def asking (n : Nat) : State := { State.powerOn smallConfig with arg := BitVec.ofNat 32 n }

/-- Power-on with host actions pending. -/
def hosted (as : List HostAction) : State := { State.powerOn smallConfig with host := as, out := [0x41#16, 0x42#16] }

/-- The state after an outcome; power-on where the machine stopped. -/
def after (r : Host.Outcome State Fault Refusal) : State :=
  match r with
  | .next t => t
  | .fault _ => State.reset
  | .refused _ => State.reset

/-- OUT, LASTERR and ABSENT after an outcome. -/
def seen (r : Host.Outcome State Fault Refusal) : Option (List CharUnit × BitVec 8 × Bool) :=
  match r with
  | .next t => some (t.out, t.lastErr, t.absent)
  | .fault _ => none
  | .refused _ => none

/-- A table of the wrong size: one symbol short (40_alphabet.md R143). -/
def shortTable (a : Alphabet) : Alphabet := { a with symbols := a.symbols.dropLast }

/-! ### Well-formedness (30_encoding.md R105, R111) -/

theorem test_reserved_profile_ill_formed :
    ∀ i ∈ [Instr.ctxEnc 0 4, .ctxDec 0 4, .blkEnc 0 4, .blkDec 0 4, .blkTryDec 0 4, .posEnc 0 4, .posDec 0 4, .posTryDec 0 4,
      .capMaxChar 0 4, .capMaxByte 0 4, .txtPad 0 4, .txtUnpad 0 15], i.wellFormed = false := by decide

theorem test_named_profile_well_formed :
    ∀ i ∈ [Instr.ctxEnc 0 3, .blkDec 0xFF 0, .posEnc 0 3, .txtUnpad 0 2, .nop, .encPut 0xFF, .decPut 0xFFFF],
      i.wellFormed = true := by decide

/-! ### Words written out from the formats and the opcode map (30_encoding.md R100 to R107; 95_test_vectors.md 2.1) -/

theorem test_decode_nop : decode 0b00000000000000000000000000000000#32 = .ok .nop := by decide
theorem test_decode_ctxEnc : decode 0b00000001001000100000000000000010#32 = .ok (.ctxEnc 0x22#8 2#4) := by decide
theorem test_decode_ctxDec : decode 0b00000010000011000000000000000010#32 = .ok (.ctxDec 0x0C#8 2#4) := by decide
theorem test_decode_encPut : decode 0b00010000000000000000000001001101#32 = .ok (.encPut 0x4D#8) := by decide
theorem test_decode_encEos : decode 0b00010001000000000000000000000000#32 = .ok .encEos := by decide
theorem test_decode_decPut : decode 0b00100000000000001111111111111111#32 = .ok (.decPut 0xFFFF#16) := by decide
theorem test_decode_decEos : decode 0b00100001000000000000000000000000#32 = .ok .decEos := by decide
theorem test_decode_blkEnc : decode 0b00110000000000000000000000000010#32 = .ok (.blkEnc 0#8 2#4) := by decide
theorem test_decode_blkDec : decode 0b00110001000001010000000000000001#32 = .ok (.blkDec 0x05#8 1#4) := by decide
theorem test_decode_blkTryDec : decode 0b00110010000010000000000000000000#32 = .ok (.blkTryDec 0x08#8 0#4) := by decide
theorem test_decode_hexFDec : decode 0b00111000000000000000000000000000#32 = .ok .hexFDec := by decide
theorem test_decode_hexTryFDec : decode 0b00111001000000000000000000000000#32 = .ok .hexTryFDec := by decide
theorem test_decode_posEnc : decode 0b01000000010000000000000000000011#32 = .ok (.posEnc 0x40#8 3#4) := by decide
theorem test_decode_posDec : decode 0b01000001000000000000000000000011#32 = .ok (.posDec 0#8 3#4) := by decide
theorem test_decode_posTryDec : decode 0b01000010010010000000000000000011#32 = .ok (.posTryDec 0x48#8 3#4) := by decide
theorem test_decode_capMaxChar : decode 0b01010000001100000000000000000001#32 = .ok (.capMaxChar 0x30#8 1#4) := by decide
theorem test_decode_capMaxByte : decode 0b01010001000000000000000000000010#32 = .ok (.capMaxByte 0#8 2#4) := by decide
theorem test_decode_txtPad : decode 0b01100000000000000000000000000001#32 = .ok (.txtPad 0#8 1#4) := by decide
theorem test_decode_txtUnpad : decode 0b01100001000000000000000000000010#32 = .ok (.txtUnpad 0#8 2#4) := by decide
theorem test_decode_srst : decode 0b11111111000000000000000000000000#32 = .ok .srst := by decide

/-- Illegal words of 95_test_vectors.md 2.1: reserved opcodes, non-zero fields (30_encoding.md R108). -/
theorem test_reserved_opcodes :
    [0x03000000#32, 0x12000000#32, 0x22000000#32, 0x33000000#32, 0x43000000#32, 0x52000000#32, 0x62000000#32,
      0xFE000000#32].all (fun w => decodeTableWord 32 w.toNat == none) = true := by decide

theorem test_nonzero_fields :
    [0x00000001#32, 0x00010000#32, 0x10010000#32, 0x10000100#32, 0x2001005A#32, 0x11000001#32, 0x38000001#32,
      0xFF000001#32, 0x01000010#32, 0x30000100#32, 0x4000F003#32].all (fun w => decodeTableWord 32 w.toNat == none) = true := by
  decide

/-! ### One step of each command -/

theorem test_nop_clears_report :
    exec .nop { loaded [0x41#16] with lastErr := 0x15#8, absent := true, arg := 21#32 } =
      .next { loaded [0x41#16] with arg := 21#32 } := rfl

theorem test_srst_keeps_out :
    seen (exec .srst { loaded [] with out := [0x41#16], lastErr := 0x21#8, absent := true }) = some ([0x41#16], 0#8, false) := rfl

theorem test_srst_status : statusWord (after (exec .srst (streaming (freshContext .decoder .p24 0xFF#8)))) = 0#32 := rfl

theorem test_ctxEnc_status : statusWord (after (exec (.ctxEnc 0x22#8 2#4) (loaded []))) = 0x00002221#32 := by decide

theorem test_ctxEnc_p58 : seen (exec (.ctxEnc 0#8 3#4) (loaded [])) = some ([], 0x12#8, false) := by decide

theorem test_ctxDec_status : statusWord (after (exec (.ctxDec 0x01#8 1#4) (loaded []))) = 0x00000119#32 := by decide

/-- The byte that completes "Man" (W3). -/
theorem test_encPut_block :
    seen (exec (.encPut 0x6E#8) (streaming ⟨true, .encoder, .p64, 0#8, 0x4D61, 2, 0, 0, false, none⟩)) =
      some (textUnits "TWFu", 0#8, false) := by decide

theorem test_encPut_wrong_direction :
    seen (exec (.encPut 0#8) (streaming (freshContext .decoder .p24 0#8))) = some ([], 0x16#8, false) := by decide

/-- A P24 partial block is right-aligned: 2 bytes, 4 symbols, 3 padding characters. -/
theorem test_encEos_p24 :
    seen (exec .encEos (streaming ⟨true, .encoder, .p24, 0#8, 0xFFFF, 2, 0, 0, false, none⟩)) =
      some (textUnits "B8R7===", 0#8, false) := by decide

/-- A P64 partial block is left-aligned; the group that fills its line is followed by NEWLINE. -/
theorem test_encEos_wraps :
    seen (exec .encEos (streaming ⟨true, .encoder, .p64, 0x30#8, 0x4D61, 2, 0, 3, false, none⟩)) =
      some (textUnits " TWE=\n", 0#8, false) := by decide

/-- The last symbol of "YYYYYYY": the value does not fit 4 bytes; Relax drops the excess. -/
theorem test_decPut_p24_excess :
    seen (exec (.decPut 0x59#16) (streaming ⟨true, .decoder, .p24, 0#8, 24 ^ 6 - 1, 6, 0, 0, false, none⟩)) =
      some ([], 0x28#8, false) := by decide

theorem test_decPut_p24_relax :
    seen (exec (.decPut 0x79#16) (streaming ⟨true, .decoder, .p24, 0x04#8, 24 ^ 6 - 1, 6, 0, 0, false, none⟩)) =
      some ([0x11#16, 0x5F#16, 0xFF#16, 0xFF#16], 0#8, false) := by decide

/-- "TR": the low 4 bits of 'R' are not zero. -/
theorem test_decEos_insignificant :
    statusWord (after (exec .decEos (streaming ⟨true, .decoder, .p64, 0#8, 19 * 64 + 17, 2, 0, 0, false, none⟩))) =
      0x0000001C#32 := by decide

theorem test_decEos_flushes :
    seen (exec .decEos (streaming ⟨true, .decoder, .p64, 0#8, 19 * 64 + 16, 2, 0, 0, false, none⟩)) =
      some ([0x4D#16], 0#8, false) := by decide

theorem test_blkEnc_wrap_indent :
    seen (exec (.blkEnc 0x30#8 0#4) (loaded [0xDE#16, 0xAD#16, 0xBE#16, 0xEF#16, 0x01#16])) =
      some (textUnits "DE AD\nBE EF\n01", 0#8, false) := by decide

theorem test_blkEnc_bad_operand : seen (exec (.blkEnc 0#8 1#4) (loaded [0x100#16])) = some ([], 0x17#8, false) := by decide

theorem test_blkDec_two_blocks :
    seen (exec (.blkDec 0x01#8 1#4) (loaded (textUnits "TQ==TWFu"))) =
      some ([0x4D#16, 0x4D#16, 0x61#16, 0x6E#16], 0#8, false) := by decide

theorem test_blkDec_skips_padding :
    seen (exec (.blkDec 0#8 1#4) (loaded (textUnits "TQ==TWFu"))) = some ([], 0x28#8, false) := by decide

theorem test_blkTryDec_absent : seen (exec (.blkTryDec 0#8 1#4) (loaded (textUnits "TW!u"))) = some ([], 0#8, true) := by decide

theorem test_hexFDec_mixed_case :
    seen (exec .hexFDec (loaded (textUnits "0AfF"))) = some ([0x0A#16, 0xFF#16], 0#8, false) := by decide

/-- The length is checked before the characters. -/
theorem test_hexFDec_odd : seen (exec .hexFDec (loaded (textUnits "0 f"))) = some ([], 0x22#8, false) := by decide

theorem test_hexTryFDec_absent : seen (exec .hexTryFDec (loaded (textUnits "0g"))) = some ([], 0#8, true) := by decide

theorem test_posEnc_leading_zeros :
    seen (exec (.posEnc 0#8 3#4) (loaded [0#16, 0#16, 0#16, 0#16, 1#16])) = some (textUnits "11112", 0#8, false) := by decide

/-- The tag of the empty sequence. -/
theorem test_posEnc_checksum :
    seen (exec (.posEnc 0x40#8 3#4) (loaded [])) = some (textUnits "3QJmnh", 0#8, false) := by decide +kernel

theorem test_posDec_leading_zeros :
    seen (exec (.posDec 0#8 3#4) (loaded (textUnits "1 1"))) = some ([0#16, 0#16], 0#8, false) := by decide

theorem test_posDec_short : seen (exec (.posDec 0x40#8 3#4) (loaded (textUnits "111"))) = some ([], 0x24#8, false) := by decide

theorem test_posTryDec_checksum :
    seen (exec (.posTryDec 0x40#8 3#4) (loaded (textUnits "BXvDbh"))) = some ([], 0#8, true) := by decide +kernel

theorem test_posTryDec_profile : seen (exec (.posTryDec 0#8 2#4) (loaded [])) = some ([], 0x13#8, false) := by decide

theorem test_capMaxChar_wide :
    (after (exec (.capMaxChar 0#8 2#4) (asking 0xFFFFFFFF))).res = 0x00000001C0000000#64 := by decide

theorem test_capMaxChar_p58 : (after (exec (.capMaxChar 0x40#8 3#4) (asking 5))).res = 13#64 := by decide

theorem test_capMaxByte : (after (exec (.capMaxByte 0#8 2#4) (asking 0xFFFFFFFF))).res = 0x92492492#64 := by decide

theorem test_txtPad_counts_symbols :
    seen (exec (.txtPad 0#8 1#4) (loaded (textUnits "TQ \n"))) = some (textUnits "TQ \n==", 0#8, false) := by decide

theorem test_txtUnpad_suffix_only :
    seen (exec (.txtUnpad 0#8 1#4) (loaded (textUnits "TQ==\n"))) = some (textUnits "TQ==\n", 0#8, false) := by decide

/-! ### Configurations (40_alphabet.md R142, R143) -/

theorem test_default_config_ok : configOk defaultConfig = true := by decide +kernel

theorem test_small_config_ok : configOk smallConfig = true := by decide +kernel

/-- Symbols come before synonyms (notes/assumptions/6.md), and a synonym whose value is not below the radix is not found,
the model's choice (notes/assumptions/16.md). -/
theorem test_synonym_lookup :
    let cfg := { defaultConfig with alpha58 := { defaultAlpha58 with synonyms := [(0x30#16, 0), (0x31#16, 5), (0x4F#16, 58)] } }
    indexOf cfg .p58 0x30#16 = some 0 ∧ indexOf cfg .p58 0x31#16 = some 0 ∧ indexOf cfg .p58 0x4F#16 = none := by decide

/-! ### For every statement with hypotheses, states and operands that meet them -/

/-- A configuration whose P16 table has a symbol twice, and whose P64 padding is a symbol. -/
def badConfig : Config :=
  { smallConfig with alpha16 := ⟨textUnits "0123456789ABCDEA", true, []⟩, pad64 := 0x41#16 }

/-- A configuration whose tables are all one symbol short. -/
def shortConfig : Config :=
  { smallConfig with alpha16 := shortTable defaultAlpha16, alpha64 := shortTable defaultAlpha64, alpha24 := shortTable defaultAlpha24, alpha58 := shortTable defaultAlpha58 }

/-- A P64 decoder context holding m symbols of value a. -/
def dec64 (o : Options) (a m pad : Nat) : State := streaming ⟨true, .decoder, .p64, o, a, m, pad, 0, false, none⟩

/-- A decoder context of profile q holding m symbols of value a. -/
def decOf (q : BlockProfile) (o : Options) (a m pad : Nat) : State := streaming ⟨true, .decoder, q, o, a, m, pad, 0, false, none⟩

/-- An encoder context of profile q holding r bytes of value a. -/
def encOf (q : BlockProfile) (o : Options) (a r pos : Nat) : State := streaming ⟨true, .encoder, q, o, a, r, 0, pos, false, none⟩

theorem test_EncodeInvertsDecode : decode 0x61FF000F#32 = .ok (.txtUnpad 0xFF#8 15#4) := by decide

/-- The boundaries of each format's zero fields. -/
theorem test_IllegalWordsRejected :
    (LegalWord 0xFF000000#32 ∧ LegalWord 0x100000FF#32 ∧ LegalWord 0x2000FFFF#32 ∧ LegalWord 0x61FF000F#32) ∧
    ¬ LegalWord 0xFF000001#32 ∧ ¬ LegalWord 0x10000100#32 ∧ ¬ LegalWord 0x20010000#32 ∧ ¬ LegalWord 0x61000010#32 ∧
    ¬ LegalWord 0x62000000#32 := by
  refine ⟨⟨?_, ?_, ?_, ?_⟩, ?_, ?_, ?_, ?_, ?_⟩ <;> unfold LegalWord <;> decide

theorem test_StepRunsDecodedCommand :
    (hosted [.busWrite 0x100 4 0xFF000000#32]).host = .busWrite smallConfig.base 4 0xFF000000#32 :: [] ∧
    decode 0xFF000000#32 = .ok .srst ∧ decode 0xFF000001#32 = .error .nonzeroField := by decide

theorem test_FetchedWordRuns : configOk State.reset.cfg = true := test_default_config_ok

theorem test_EngineWaits : configOk State.reset.cfg = true ∧ State.reset.host = [] := ⟨test_default_config_ok, rfl⟩

/-- Each host action at the boundary of its range: IN of exactly MAX_IN units, all of OUT discarded, the first and the
last register that ignore a write. -/
theorem test_HostActionEffects :
    configOk smallConfig = true ∧ (List.replicate 8 0x41#16).length ≤ smallConfig.maxIn ∧
    (hosted []).out = [] ++ [0x41#16, 0x42#16] ∧ (0x08 ≤ 0x08 ∧ 0x08 % 4 = 0) ∧ 0x3C ≤ 0x3C ∧ 0x3C % 4 = 0 :=
  ⟨test_small_config_ok, by decide, rfl, by decide, by decide, by decide⟩

theorem test_RegisterReads :
    configOk smallConfig = true ∧ (hosted [.busRead 0x118 4]).host = .busRead (smallConfig.base + 0x18) 4 :: [] ∧
    busTarget smallConfig 0x100 4 = .register 0 ∧ busTarget smallConfig 0x13C 4 = .register 0x3C :=
  ⟨test_small_config_ok, by decide, by decide, by decide⟩

/-- A narrow access, a misaligned one, one that straddles the window's start; the nearest accesses outside. -/
theorem test_BadBusAccessStops :
    busTarget smallConfig 0x100 1 = .illegal ∧ busTarget smallConfig 0x102 4 = .illegal ∧
    busTarget smallConfig 0xFE 4 = .illegal ∧ busTarget smallConfig 0x13C 8 = .illegal ∧
    busTarget smallConfig 0xFC 4 = .outside ∧ busTarget smallConfig 0x140 4 = .outside := by decide

theorem test_IllFormedAlphabetRefused :
    symbolAt badConfig (.block .p16) 15 = some 0x41#16 ∧ indexOf badConfig (.block .p16) 0x41#16 ≠ some 15 ∧
    padOf badConfig (.block .p64) = some 0x41#16 ∧ indexOf badConfig (.block .p64) 0x41#16 ≠ none := by decide

/-- P64 padding that is the 65th symbol of its table. -/
def padSymbolConfig : Config :=
  { smallConfig with alpha64 := { defaultAlpha64 with symbols := defaultAlpha64.symbols ++ [0x3D#16] } }

/-- P64 padding that is a synonym of no radix value. -/
def padSynonymConfig : Config := { smallConfig with alpha64 := { defaultAlpha64 with synonyms := [(0x3D#16, 64)] } }

/-- The padding character is an entry of the table although lookup answers no value for it; the step is refused. -/
theorem test_IllFormedAlphabetRefused_pad :
    [padSymbolConfig, padSynonymConfig].all (fun cfg => padOf cfg (.block .p64) == some 0x3D#16 &&
      indexOf cfg (.block .p64) 0x3D#16 == none && !padNoSymbol cfg (.block .p64)) = true ∧
    0x3D#16 ∈ padSymbolConfig.alpha64.symbols ∧ (0x3D#16, 64) ∈ padSynonymConfig.alpha64.synonyms ∧
    sameChar padSynonymConfig.alpha64 0x3D#16 0x3D#16 = true := by decide +kernel

theorem test_LegalActionsComplete :
    LegalAction (hosted []) (.loadIn (List.replicate 8 0#16)) ∧ LegalAction (hosted []) (.busWrite 0x100 4 0#32) ∧
    LegalAction (hosted []) (.busRead 0x13C 4) ∧ LegalAction (hosted []) .readOut ∧
    LegalAction (hosted []) (.discardOut 2) := by unfold LegalAction; decide

/-- ABSENT is set by a TRY command. -/
theorem test_CommandsWriteOnlyTheirOwn :
    (after (exec .hexTryFDec (loaded [0x30#16]))).absent = true ∧ writesRes .hexTryFDec = false ∧
    usesContext .hexTryFDec = false := by decide

theorem test_ConfigErrorsChangeNothing :
    seen (issue 0x40000002#32 (loaded [])) = some ([], 0x13#8, false) ∧ classConfig 0x13#8 := by
  unfold classConfig; decide

/-- An error of the stream, an error of another command, absence. -/
theorem test_ErrorsEmitNothing :
    (after (exec (.decPut 0x21#16) (dec64 0#8 0 0 0))).ctx.fault = some .invalidChar ∧
    (after (exec .hexFDec (loaded [0x30#16]))).lastErr = 0x22#8 ∧ classFormat 0x22#8 ∧
    (after (exec .hexTryFDec (loaded [0x30#16]))).absent = true := by unfold classFormat; decide

theorem test_ProfileChecks :
    3 < (4#4 : ProfCode).toNat ∧ 3 ≤ (3#4 : ProfCode).toNat ∧ (2#4 : ProfCode) ≠ 3#4 ∧
    (∀ q, (alphabetOf shortConfig (.block q)).symbols.length ≠ blockRadix q) ∧ shortConfig.alpha58.symbols.length ≠ 58 := by
  refine ⟨by decide, by decide, by decide, fun q => ?_, by decide⟩
  cases q <;> decide

theorem test_StreamChecks :
    State.reset.ctx.valid = false ∧ (dec64 0#8 0 0 0).ctx.dir ≠ .encoder ∧
    (streaming { freshContext .decoder .p64 0#8 with fault := some .padPosition }).ctx.fault = some .padPosition ∧
    (streaming { freshContext .encoder .p64 0#8 with eosf := true }).ctx.eosf = true := by decide

theorem test_block_tables_sized : ∀ q, (alphabetOf smallConfig (.block q)).symbols.length = blockRadix q := by
  intro q; cases q <;> decide

theorem test_p58_table_sized : smallConfig.alpha58.symbols.length = 58 := by decide

theorem test_ContextCreation : (alphabetOf smallConfig (.block .p24)).symbols.length = blockRadix .p24 :=
  test_block_tables_sized .p24

theorem test_NopOnlyClearsReport : (0x00FFFFFF#32).toNat / 2 ^ 24 = 0 ∧ 0x00FFFFFF#32 ≠ 0#32 := by decide

theorem test_SoftReset :
    (0xFF000001#32).toNat / 2 ^ 24 = 0xFF ∧ 0xFF000001#32 ≠ 0xFF000000#32 ∧
    (after (exec .srst (dec64 0#8 0 0 0))).ctx.valid = false := ⟨by decide, by decide, rfl⟩

theorem test_PowerOnReset : seen (exec (.encPut 0x4D#8) State.reset) = some ([], 0x14#8, false) := by decide

theorem test_EncPutAccumulates :
    Open .encoder (encOf .p24 0#8 0 2 0) ∧ (encOf .p24 0#8 0 2 0).ctx.mod + 1 < bytesPerBlock .p24 :=
  ⟨⟨rfl, rfl, rfl, rfl⟩, by decide⟩

/-- The group that reaches the line width exactly. -/
theorem test_EncPutEmitsBlock :
    Open .encoder (encOf .p64 0x10#8 0x4D61 2 0) ∧ (encOf .p64 0x10#8 0x4D61 2 0).ctx.mod + 1 = bytesPerBlock .p64 ∧
    SpellsValue smallConfig .p64 4 (0x4D61 * 256 + 0x6E) (textUnits "TWFu") ∧
    EmitsGroup smallConfig (encOf .p64 0x10#8 0x4D61 2 0).ctx (textUnits "TWFu") (textUnits "TWFu\n") 0 := by
  refine ⟨⟨rfl, rfl, rfl, rfl⟩, by decide, ⟨[19, 22, 5, 46], by decide, by decide, by decide, by decide⟩, ?_⟩
  unfold EmitsGroup; decide

/-- Every row of the table of partial blocks is met by an open encoder. -/
theorem test_EncEosFlushes :
    (∀ row ∈ partialSymbols, Open .encoder (encOf row.1 0#8 0 row.2.1 0) ∧ padOf smallConfig (.block row.1) = some 0x3D#16) ∧
    SpellsValue smallConfig .p24 2 0xFF (textUnits "H7") ∧
    EmitsGroup smallConfig (encOf .p24 0#8 0xFF 1 0).ctx (textUnits "H7" ++ List.replicate 5 0x3D#16)
      (textUnits "H7=====") 7 := by
  refine ⟨fun row h => ⟨⟨rfl, rfl, rfl, rfl⟩, ?_⟩, ⟨[10, 15], by decide, by decide, by decide, by decide⟩, ?_⟩
  · revert row; decide
  · unfold EmitsGroup; decide

theorem test_EncEosFlushes_empty : Open .encoder (encOf .p16 0#8 0 0 0) ∧ (encOf .p16 0#8 0 0 0).ctx.mod = 0 :=
  ⟨⟨rfl, rfl, rfl, rfl⟩, rfl⟩

theorem test_BlockDigits : 2 ^ 32 - 1 < 256 ^ bytesPerBlock .p24 ∧ digits 24 7 (2 ^ 32 - 1) = [22, 11, 9, 9, 4, 10, 15] := by decide

theorem test_BlkEncEqualsStream :
    (loaded [0x4D#16, 0xFF#16]).inp = [0x4D#8, 0xFF#8].map (BitVec.zeroExtend 16) ∧
    (alphabetOf smallConfig (.block .p64)).symbols.length = blockRadix .p64 := ⟨by decide, test_block_tables_sized .p64⟩

theorem test_BadOperandRaised : ∃ u ∈ (loaded [0x41#16, 0x100#16]).inp, 0xFF < u.toNat := ⟨0x100#16, by decide, by decide⟩

theorem test_EncoderOutputLength :
    (∀ q, (alphabetOf smallConfig (.block q)).symbols.length = blockRadix q) ∧ has 0x02#8 .unpad = true ∧
    has 0#8 .unpad = false ∧ has 0x0F#8 .wrap = false ∧ has 0x0F#8 .indent = false :=
  ⟨test_block_tables_sized, by decide, by decide, by decide, by decide⟩

theorem test_BlockRoundTrip :
    configOk smallConfig = true ∧ (∀ q, (alphabetOf smallConfig (.block q)).symbols.length = blockRadix q) ∧
    (∀ c, c ∈ smallConfig.newline ∨ c = 0x20#16 →
      indexOf smallConfig (.block .p24) c = none ∧ padOf smallConfig (.block .p24) ≠ some c) ∧
    ¬ (has 0x35#8 .padding = true ∧ BlockProfile.p24 ≠ .p16 ∧ has 0x35#8 .unpad = true) := by
  refine ⟨test_small_config_ok, test_block_tables_sized, fun c h => ?_, by decide⟩
  rcases h with h | rfl
  · rw [List.mem_singleton.1 h]; decide +kernel
  · decide +kernel

theorem test_DecPutAccumulates :
    Open .decoder (decOf .p24 0#8 0 5 0) ∧ padOf smallConfig (.block .p24) ≠ some 0x59#16 ∧
    indexOf smallConfig (.block .p24) 0x59#16 = some 23 ∧ 5 + 1 < symbolsPerBlock .p24 :=
  ⟨⟨rfl, rfl, rfl, rfl⟩, by decide, by decide, by decide⟩

/-- The greatest value that fits a block and the least that does not. -/
theorem test_DecPutWritesBlock :
    Open .decoder (decOf .p24 0x04#8 178956970 6 0) ∧ 178956970 * 24 + 15 < 256 ^ bytesPerBlock .p24 ∧
    2 ^ 32 ≤ 178956970 * 24 + 16 ∧ indexOf smallConfig (.block .p24) 0x37#16 = some 15 ∧
    indexOf smallConfig (.block .p24) 0x50#16 = some 16 ∧ has 0x04#8 .relax = true ∧ has 0#8 .relax = false :=
  ⟨⟨rfl, rfl, rfl, rfl⟩, by decide, by decide, by decide, by decide, by decide, by decide⟩

/-- Padding that is not asked for, a character that is skipped, one that is not. -/
theorem test_DecPutOtherCharacters :
    Open .decoder (dec64 0#8 0 0 0) ∧ padOf smallConfig (.block .p64) = some 0x3D#16 ∧
    indexOf smallConfig (.block .p64) 0x2D#16 = none ∧ Skipped smallConfig 0x04#8 0x2D#16 ∧
    ¬ Skipped smallConfig 0x0C#8 0x2D#16 := by
  refine ⟨⟨rfl, rfl, rfl, rfl⟩, by decide, by decide, ?_, ?_⟩ <;> unfold Skipped <;> decide

theorem test_PaddingPosition :
    Open .decoder (dec64 0x01#8 0 0 0) ∧ Open .decoder (dec64 0x01#8 19 2 0) ∧ Open .decoder (dec64 0x01#8 19 2 1) ∧
    padOf smallConfig (.block .p64) = some 0x3D#16 ∧ 2 + 0 + 1 < symbolsPerBlock .p64 ∧
    indexOf smallConfig (.block .p64) 0x41#16 ≠ none :=
  ⟨⟨rfl, rfl, rfl, rfl⟩, ⟨rfl, rfl, rfl, rfl⟩, ⟨rfl, rfl, rfl, rfl⟩, by decide, by decide, by decide⟩

/-- A canonical count without and with insignificant bits, and a count that is not canonical. -/
theorem test_PaddingRunFlushes :
    Open .decoder (dec64 0x01#8 0 2 1) ∧ has 0x01#8 .padding = true ∧
    (BlockProfile.p64, 2, 1, true) ∈ partialRows ∧ (BlockProfile.p64, 1, 0, false) ∈ partialRows ∧
    (2 + 1 + 1 = symbolsPerBlock .p64 ∧ 1 + 2 + 1 = symbolsPerBlock .p64) ∧ 64 ^ 2 - 1 < blockRadix .p64 ^ 2 ∧
    (partialValue .p64 2 1 (255 * 16)).2 = 0 ∧ (partialValue .p64 2 1 (255 * 16 + 1)).2 ≠ 0 :=
  ⟨⟨rfl, rfl, rfl, rfl⟩, by decide, by decide, by decide, by decide, by decide, by decide, by decide⟩

theorem test_DecEosFlushes :
    Open .decoder (decOf .p24 0#8 255 2 0) ∧ Open .decoder (decOf .p16 0x01#8 15 1 0) ∧
    (BlockProfile.p24, 2, 1, true) ∈ partialRows ∧ (BlockProfile.p16, 1, 0, false) ∈ partialRows ∧
    (partialValue .p24 2 1 255).2 = 0 ∧ (partialValue .p24 2 1 256).2 ≠ 0 ∧ 256 < blockRadix .p24 ^ 2 ∧
    has 0x01#8 .padding = true ∧ has 0#8 .padding = false ∧ (decOf .p24 0#8 0 0 0).ctx.mod = 0 :=
  ⟨⟨rfl, rfl, rfl, rfl⟩, ⟨rfl, rfl, rfl, rfl⟩, by decide, by decide, by decide, by decide, by decide, by decide, by decide, rfl⟩

/-- A stream that ends well and one that fails. -/
theorem test_BlkDecEqualsStream :
    fastEligible smallConfig .p64 0#8 = false ∧ fastEligible smallConfig .p16 0#8 = false ∧
    (generalDecode smallConfig .p64 0#8 (textUnits "TQ")).isOk = true ∧
    (generalDecode smallConfig .p64 0#8 (textUnits "TR")).isOk = false := by decide

theorem test_TryConvertsFormatErrors :
    classFormat (after (exec (.blkDec 0#8 1#4) (loaded (textUnits "T")))).lastErr ∧
    ¬ classFormat (after (exec (.posDec 0#8 2#4) (loaded (textUnits "T")))).lastErr ∧
    ¬ classFormat (after (exec .hexFDec (loaded (textUnits "ff")))).lastErr := by unfold classFormat; decide

/-- Two pairs, "fF" and "09". -/
def hexPairs : List ((CharUnit × CharUnit) × (Fin 16 × Fin 16)) :=
  [((0x66#16, 0x46#16), (15, 15)), ((0x30#16, 0x39#16), (0, 9))]

theorem test_HexDecodes :
    (∀ q ∈ hexPairs, hexval q.1.1 = some q.2.1.val ∧ hexval q.1.2 = some q.2.2.val) ∧
    (loaded [0x66#16, 0x46#16, 0x30#16, 0x39#16]).inp = hexPairs.flatMap (fun q => [q.1.1, q.1.2]) := by
  refine ⟨fun q h => ?_, by decide⟩
  rcases List.mem_cons.1 h with rfl | h
  · decide
  · rw [List.mem_singleton.1 h]; decide

/-- The neighbours of the three ranges are no digits. -/
theorem test_HexErrors :
    (loaded [0x30#16]).inp.length % 2 = 1 ∧ (loaded [0x30#16, 0x67#16]).inp.length % 2 = 0 ∧
    [0x2F#16, 0x3A#16, 0x40#16, 0x47#16, 0x60#16, 0x67#16].all (fun c => hexval c == none) = true := by decide

theorem test_FastPathEquivalence :
    fastEligible smallConfig .p16 0x88#8 = true ∧ (loaded [0x66#16, 0x46#16, 0x61#16]).inp.length % 2 = 1 ∧
    [0x66#16, 0x46#16, 0x61#16].all (fun c => (indexOf smallConfig (.block .p16) c).isSome) = true := by decide +kernel

theorem test_PositionalRoundTrip :
    configOk smallConfig = true ∧ smallConfig.alpha58.symbols.length = 58 ∧
    (loaded [0#16, 0xFF#16]).inp = [0#8, 0xFF#8].map (BitVec.zeroExtend 16) :=
  ⟨test_small_config_ok, test_p58_table_sized, by decide⟩

theorem test_LeadingZeroPreservation :
    has 0xBF#8 .checksum = false ∧ [0x01#8, 0x00#8].head? ≠ some 0#8 ∧ ([] : List Byte).head? ≠ some 0#8 ∧
    (loaded [0#16, 0#16, 1#16, 0#16]).inp = (List.replicate 2 0#8 ++ [1#8, 0#8]).map (BitVec.zeroExtend 16) := by decide

theorem test_PositionalOutputLength :
    [0#8, 58#8] = List.replicate 1 0#8 ++ [58#8] ∧ has 0#8 .checksum = false ∧
    valBE [58#8] < 58 ^ 2 ∧ (∀ i < 2, 58 ^ i ≤ valBE [58#8]) := by decide

/-- With Checksum the payload of the empty sequence is its 4 tag bytes, which take 6 symbols. -/
theorem test_PositionalOutputLength_checksum :
    has 0x40#8 .checksum = true ∧
    [] ++ (digestBytes (hashWith .sha256 (digestBytes (hashWith .sha256 [])))).take 4 =
      List.replicate 0 0#8 ++ [0x5D#8, 0xF6#8, 0xE0#8, 0xE2#8] ∧
    valBE [0x5D#8, 0xF6#8, 0xE0#8, 0xE2#8] < 58 ^ 6 ∧
    (∀ i < 6, 58 ^ i ≤ valBE [0x5D#8, 0xF6#8, 0xE0#8, 0xE2#8]) := by decide +kernel

/-- "3QJmnh" converts to the 4 tag bytes of the empty sequence, "111" to 3 bytes, "1111" to 4 bytes that are no tag. -/
theorem test_ChecksumVerified :
    has 0x40#8 .checksum = true ∧ 0x40#8 &&& 0xBF#8 = 0#8 ∧
    seen (exec (.posDec 0#8 3#4) (loaded (textUnits "111"))) = some ([0#16, 0#16, 0#16], 0#8, false) ∧
    seen (exec (.posDec 0#8 3#4) (loaded (textUnits "3QJmnh"))) = some ([0x5D#16, 0xF6#16, 0xE0#16, 0xE2#16], 0#8, false) ∧
    seen (exec (.posDec 0#8 3#4) (loaded (textUnits "1111"))) = some ([0#16, 0#16, 0#16, 0#16], 0#8, false) := by
  decide +kernel

theorem test_checksumTag_empty : checksumTag .sha256 [] = [0x5D#8, 0xF6#8, 0xE0#8, 0xE2#8] := by decide +kernel

theorem test_PositionalFiltering :
    (indexOf smallConfig .p58 0x30#16 = none ∧ ¬ Skipped smallConfig 0#8 0x30#16) ∧
    indexOf smallConfig .p58 0x7A#16 = some 57 ∧ Skipped smallConfig 0#8 0x20#16 ∧ Skipped smallConfig 0x18#8 0x0A#16 := by
  refine ⟨⟨by decide +kernel, ?_⟩, by decide +kernel, ?_, ?_⟩ <;> unfold Skipped <;> decide

/-- A P58 table with '0' and 'O' as synonyms of '1' and 'Z'. -/
def synonymConfig : Config := { smallConfig with alpha58 := { defaultAlpha58 with synonyms := [(0x30#16, 0), (0x4F#16, 32)] } }

/-- A text that POS.ENC never writes, with synonyms for a leading zero and for a digit. -/
theorem test_PositionalFiltering_values :
    (textUnits "0 OZ").filterMap (indexOf synonymConfig .p58) = List.replicate 1 0 ++ [32, 32] ∧
    ([32, 32] : List Nat).head? ≠ some 0 ∧ has 0#8 .checksum = false ∧ indexOf synonymConfig .p58 0x20#16 = none := by
  decide +kernel

theorem test_MaxCharResult :
    smallConfig.newline.length < 2 ^ 29 ∧ (∀ q, (alphabetOf smallConfig (.block q)).symbols.length = blockRadix q) ∧
    smallConfig.alpha58.symbols.length = 58 := ⟨by decide, test_block_tables_sized, test_p58_table_sized⟩

theorem test_MaxByteResult : (after (exec (.capMaxByte 0xFF#8 3#4) (asking 0xFFFFFFFF))).res = 0xFFFFFFFF#64 := by decide

theorem test_MaxCharSound :
    configOk smallConfig = true ∧ smallConfig.newline.length < 2 ^ 29 ∧
    (asking 2).arg = BitVec.ofNat 32 [0x4D#8, 0x61#8].length ∧ [0x4D#8, 0x61#8].length < 2 ^ 32 :=
  ⟨test_small_config_ok, by decide, by decide, by decide⟩

theorem test_MaxByteSound :
    (after (exec (.blkDec 0x04#8 2#4) (loaded (textUnits "ZZZZZ")))).lastErr = 0#8 ∧
    (after (exec (.posDec 0#8 3#4) (loaded (textUnits "1111")))).lastErr = 0#8 ∧
    (asking 5).arg = BitVec.ofNat 32 (textUnits "ZZZZZ").length := by decide

theorem test_PaddingText :
    padOf smallConfig (.block .p64) = some 0x3D#16 ∧ (alphabetOf smallConfig (.block .p64)).symbols.length = blockRadix .p64 ∧
    (loaded (textUnits "TQ==")).inp = textUnits "TQ" ++ List.replicate 2 0x3D#16 ∧
    (textUnits "TQ").getLast? ≠ some 0x3D#16 ∧ ([] : List CharUnit).getLast? ≠ some 0x3D#16 := by decide

theorem test_PaddingIdempotent :
    seen (exec (.txtPad 0#8 1#4) (loaded (textUnits "TQ"))) = some (textUnits "TQ==", 0#8, false) ∧
    seen (exec (.txtUnpad 0#8 1#4) (loaded (textUnits "===="))) = some ([], 0#8, false) := by decide

/-- A state in the middle of a stream meets the invariant, and its next command gives a next state. -/
theorem test_StepKeepsInvariant :
    Inv (dec64 0x01#8 (19 * 64 + 16) 2 1) ∧
    seen (exec (.decPut 0x3D#16) (dec64 0x01#8 (19 * 64 + 16) 2 1)) = some ([0x4D#16], 0#8, false) := by
  refine ⟨⟨⟨fun _ => by decide, fun _ h => (h rfl).elim, fun _ _ => ?_, fun _ h => (nomatch h)⟩, .inl rfl,
    fun h => (nomatch h), by decide⟩, by decide⟩
  exact ⟨by decide, by decide, rfl, .inr (by decide)⟩

/-- A modulus out of range, which no run reaches. -/
theorem test_InternalErrorsUnreachable :
    Open .encoder (encOf .p64 0#8 0 3 0) ∧ bytesPerBlock .p64 ≤ 3 ∧ Open .decoder (decOf .p24 0#8 0 7 0) ∧
    symbolsPerBlock .p24 ≤ 7 ∧ (∃ d ∈ [23, 24], radixOf (.block .p24) ≤ d) :=
  ⟨⟨rfl, rfl, rfl, rfl⟩, by decide, ⟨rfl, rfl, rfl, rfl⟩, by decide, 24, by decide, by decide⟩

/-- A run from reset: one command, which raises C_NO_CONTEXT. -/
theorem test_InternalErrorsUnreachable_run :
    Sys2Proof.core.run 1 { State.powerOn smallConfig with host := [.busWrite 0x100 4 0x1000004D#32] } =
      .next { State.powerOn smallConfig with lastErr := 0x14#8, pc := 1 } := by
  have h : step { State.powerOn smallConfig with host := [.busWrite 0x100 4 0x1000004D#32] } =
      .next { State.powerOn smallConfig with lastErr := 0x14#8, pc := 1 } := if_pos test_small_config_ok
  simp only [Host.Core.run, Sys2Proof.core, h]

theorem test_ConfigurationImmutable :
    step (hosted [.loadIn [0x30#16]]) = .next { hosted [] with inp := [0x30#16] } := if_pos test_small_config_ok

theorem test_ContextNotRead :
    usesContext (.blkEnc 0#8 1#4) = false ∧ seen (exec (.blkEnc 0#8 1#4) (dec64 0#8 19 1 0)) = some ([], 0#8, false) := by decide

theorem test_BusEndianIrrelevant :
    seen (exec .hexFDec { loaded (textUnits "ff") with cfg := { smallConfig with busEndian := .big } }) =
      some ([0xFF#16], 0#8, false) := by decide

/-- Options values that differ in every flag a command does not read, for each row of R112's table. -/
theorem test_UnreadFlagsHaveNoEffect :
    SameFlags [.unpad, .wrap, .indent] 0x10#8 0xDD#8 ∧ SameFlags [.relax, .pure, .wrap, .indent] 0x3D#8 0xFF#8 ∧
    has 0x3D#8 .padding = has 0xFF#8 .padding ∧ SameFlags [.relax, .pure, .wrap, .indent] 0x04#8 0xC7#8 ∧
    SameFlags [.checksum] 0x40#8 0xFF#8 := by unfold SameFlags; decide

/-- A stream under options that differ in flags ENC.PUT does not read. -/
theorem test_UnreadFlagsHaveNoEffect_stream :
    seen (exec (.encPut 0x6E#8) (encOf .p64 0x10#8 0x4D61 2 0)) = seen (exec (.encPut 0x6E#8) (encOf .p64 0xDD#8 0x4D61 2 0)) ∧
    seen (exec (.encPut 0x6E#8) (encOf .p64 0x10#8 0x4D61 2 0)) = some (textUnits "TWFu\n", 0#8, false) := by decide

end Sys2Proof.Tests
end

section
/-! SUPPORT. What one step can do, said once: the host's next action on the state without it, and where each bus access leads (10_state.md R40, R44; 20_memory.md R78, R82). -/

namespace Sys2Proof.Machine

/-- A step under a well-formed configuration performs the first of the host's remaining actions (R82). -/
theorem step_eq_perform {s : State} {a : HostAction} {rest : List HostAction} (hc : configOk s.cfg = true)
    (hh : s.host = a :: rest) : step s = perform a { s with host := rest } := by
  have hp : s.popHost = { s with host := rest } := by simp [State.popHost, hh]
  simp only [step, hc, hh, hp, if_true]

/-- An access that touches the window and is not one aligned word of it (R44). -/
theorem busTarget_illegal {cfg : Config} {addr width : Nat} (hlo : cfg.base < addr + width)
    (hhi : addr < cfg.base + 64) (hw : ¬ (width = 4 ∧ cfg.base ≤ addr ∧ (addr - cfg.base) % 4 = 0)) :
    busTarget cfg addr width = .illegal := by
  have hin : ¬ (addr + width ≤ cfg.base ∨ cfg.base + windowSize ≤ addr) := by simp only [windowSize]; omega
  rw [busTarget, if_neg hin, if_neg hw]

/-- An access that touches no byte of the window (notes/assumptions/9.md). -/
theorem busTarget_outside {cfg : Config} {addr width : Nat}
    (h : addr + width ≤ cfg.base ∨ cfg.base + 64 ≤ addr) : busTarget cfg addr width = .outside := by
  have hout : addr + width ≤ cfg.base ∨ cfg.base + windowSize ≤ addr := h
  rw [busTarget, if_pos hout]

/-- A write of a word to CMD issues it and counts one command (R41, R78). -/
theorem step_cmdWrite {s : State} {w : RegWord} {rest : List HostAction} (hc : configOk s.cfg = true)
    (hh : s.host = .busWrite (s.cfg.base + cmdOffset) 4 w :: rest) :
    step s = issue w { s with host := rest, pc := s.pc + 1 } := by
  have ht : busTarget s.cfg (s.cfg.base + cmdOffset) 4 = .register cmdOffset := busTarget_register (by decide) (by decide)
  rw [step_eq_perform hc hh]
  simp only [perform, hostWrite, ht, if_true]
  rfl

/-- A read of a register of the window returns its value and has no other effect (R40, R44). -/
theorem step_registerRead {s : State} {off : Nat} {rest : List HostAction} (hc : configOk s.cfg = true)
    (hh : s.host = .busRead (s.cfg.base + off) 4 :: rest) (hlt : off < 64) (h4 : off % 4 = 0) :
    step s = .next { s with busData := readRegister s off, host := rest } := by
  rw [step_eq_perform hc hh]
  simp only [perform, hostRead, busTarget_register hlt h4]
  rfl

theorem issue_ok {w : RegWord} {i : Instr} (h : decode w = .ok i) (s : State) : issue w s = exec i s := by
  simp only [issue, h]

theorem issue_error {w : RegWord} {e : DecodeError} (h : decode w = .error e) (s : State) :
    issue w s = .next (raised s 0x15#8) := by
  simp only [issue, h]
  rfl

/-- What a step can do to a state: wait, perform one host action other than a command, run a command, or reject a
word. -/
inductive StepAnswer (s : State) : State → Prop
  | waits : StepAnswer s s
  | loadIn (us : List CharUnit) (h : us.length ≤ s.cfg.maxIn) : StepAnswer s (s.popHost.setIn us)
  | readOut : StepAnswer s (s.popHost.setOutView s.out)
  | discardOut (n : Nat) : StepAnswer s (s.popHost.dropOut n)
  | registerRead (v : RegWord) : StepAnswer s (s.popHost.setBusData v)
  | argWrite (v : RegWord) : StepAnswer s (s.popHost.setArg v)
  | ignoredWrite : StepAnswer s s.popHost
  | command (i : Instr) (t : State) (h : exec i s.popHost.bumpPc = .next t) : StepAnswer s t
  | rejected (c : BitVec 8) (h : c = configCode .illegalCommand) : StepAnswer s (raised s.popHost.bumpPc c)

theorem issue_answer {w : RegWord} {s t : State} (h : issue w s.popHost.bumpPc = .next t) : StepAnswer s t := by
  cases hd : decode w with
  | ok i => exact .command i t (by rwa [issue_ok hd] at h)
  | error e =>
    rw [issue_error hd] at h
    cases h
    exact .rejected _ rfl

theorem writeRegister_answer (s : State) (off : Nat) (v : RegWord) : StepAnswer s (writeRegister s.popHost off v) := by
  unfold writeRegister
  split
  · exact .argWrite v
  · exact .ignoredWrite

/-- One host action that gives a next state (R82). -/
theorem perform_answer {a : HostAction} {s t : State} (h : perform a s.popHost = .next t) : StepAnswer s t := by
  cases a with
  | loadIn us =>
    simp only [perform, hostLoadIn] at h
    split at h
    next hle => cases h; exact .loadIn us hle
    next => cases h
  | busWrite addr width w =>
    simp only [perform, hostWrite] at h
    split at h
    next => cases h
    next => cases h
    next off _ =>
      split at h
      next => exact issue_answer h
      next => cases h; exact writeRegister_answer s off w
  | busRead addr width =>
    simp only [perform, hostRead] at h
    split at h
    next => cases h
    next => cases h
    next => cases h; exact .registerRead _
  | readOut => cases h; exact .readOut
  | discardOut n =>
    simp only [perform, hostDiscardOut] at h
    split at h
    next => cases h; exact .discardOut n
    next => cases h

/-- Every step that gives a next state does one of the things `StepAnswer` names. -/
theorem step_answer {s t : State} (h : step s = .next t) : StepAnswer s t := by
  unfold step at h
  split at h
  next =>
    split at h
    next => cases h; exact .waits
    next => exact perform_answer h
  next => cases h

end Sys2Proof.Machine
end

section
/-! SUPPORT. The word of a command decodes to that command (30_encoding.md R100 to R107). -/

namespace Sys2Proof

theorem opcField_encodeF0 (c : BitVec 8) : opcField (encodeF0 c) = c := by
  have h := encodeF0_toNat c
  apply BitVec.eq_of_toNat_eq; rw [opcField_toNat]; omega

theorem opcField_encodeFB (c : BitVec 8) (b : Byte) : opcField (encodeFB c b) = c := by
  have h := encodeFB_toNat c b
  have hb := b.isLt
  apply BitVec.eq_of_toNat_eq; rw [opcField_toNat]; omega

theorem opcField_encodeFC (c : BitVec 8) (u : CharUnit) : opcField (encodeFC c u) = c := by
  have h := encodeFC_toNat c u
  have hu := u.isLt
  apply BitVec.eq_of_toNat_eq; rw [opcField_toNat]; omega

theorem opcField_encodeFP (c : BitVec 8) (o : Options) (p : ProfCode) : opcField (encodeFP c o p) = c := by
  have h := encodeFP_toNat c o p
  have ho := o.isLt
  have hp := p.isLt
  apply BitVec.eq_of_toNat_eq; rw [opcField_toNat]; omega

/-- Decoding the word of a command gives the command back: the opcode picks the row of the map, the row's format
its operands. -/
theorem decode_encode (i : Instr) : decode (encode i) = .ok i := by
  cases i with
  | nop | encEos | decEos | hexFDec | hexTryFDec | srst =>
    simp only [encode, decode, opcField_encodeF0]
    exact decodeF0_encode ..
  | encPut b =>
    simp only [encode, decode, opcField_encodeFB]
    exact decodeFB_encode ..
  | decPut c =>
    simp only [encode, decode, opcField_encodeFC]
    exact decodeFC_encode ..
  | ctxEnc o p | ctxDec o p | blkEnc o p | blkDec o p | blkTryDec o p | posEnc o p | posDec o p | posTryDec o p
  | capMaxChar o p | capMaxByte o p | txtPad o p | txtUnpad o p =>
    simp only [encode, decode, opcField_encodeFP]
    exact decodeFP_encode ..

/-- A table word of all 32 bits is the word itself (30_encoding.md R109). -/
theorem tableWord_toNat (w : RegWord) : tableWord 32 w.toNat = w := by
  rw [tableWord, Nat.mod_eq_of_lt w.isLt, BitVec.ofNat_toNat, BitVec.setWidth_eq]

end Sys2Proof
end

section
/-! SUPPORT. What a command leaves unchanged, from the answers of its body (`exec_answer`): IN, the configuration and the host's side by every command, the rest but by those that own it (10_state.md R42, R43, R46; 20_memory.md R70, R71). -/

namespace Sys2Proof.Machine

/-- The commands that store a fault use the context. -/
theorem usesContext_of_isDecoderCommand {i : Instr} (h : isDecoderCommand i) : usesContext i = true := by
  rcases h with ⟨c, rfl⟩ | rfl <;> rfl

/-- IN, the configuration and the host's side stay, whatever the body answers. -/
theorem BodyAnswer.environment_kept {i : Instr} {s : State} {r : BodyResult} (h : BodyAnswer i s r) :
    (finish r).inp = s.inp ∧ (finish r).cfg = s.cfg ∧ (finish r).host = s.host ∧ (finish r).pc = s.pc ∧
      (finish r).busData = s.busData ∧ (finish r).outView = s.outView := by
  cases h <;> exact ⟨rfl, rfl, rfl, rfl, rfl, rfl⟩

/-- OUT only grows: two answers append to it, the others leave it (20_memory.md R71). -/
theorem BodyAnswer.out_grows {i : Instr} {s : State} {r : BodyResult} (h : BodyAnswer i s r) :
    ∃ us, (finish r).out = s.out ++ us := by
  cases h with
  | append us => exact ⟨us, rfl⟩
  | context t us => exact ⟨us, rfl⟩
  | config | internal | format | stored | absence | quiet | created | result | reset =>
    exact ⟨[], (List.append_nil _).symm⟩

/-- ARG, and the model's count of free contexts, are SRST's alone to write (10_state.md R42). -/
theorem BodyAnswer.arg_kept {i : Instr} {s : State} {r : BodyResult} (h : BodyAnswer i s r) (hi : i ≠ .srst) :
    (finish r).arg = s.arg ∧ (finish r).freeCount = s.freeCount := by
  cases h with
  | reset he => exact absurd he hi
  | config | internal | format | stored | absence | quiet | append | context | created | result => exact ⟨rfl, rfl⟩

/-- RES is written by the capacity commands and SRST alone (10_state.md R46). -/
theorem BodyAnswer.res_kept {i : Instr} {s : State} {r : BodyResult} (h : BodyAnswer i s r) (hi : writesRes i = false) :
    (finish r).res = s.res := by
  cases h with
  | reset he => subst he; cases hi
  | result v hw => rw [hw] at hi; cases hi
  | config | internal | format | stored | absence | quiet | append | context | created => rfl

/-- The context is written by the context commands alone. -/
theorem BodyAnswer.ctx_kept {i : Instr} {s : State} {r : BodyResult} (h : BodyAnswer i s r) (hi : usesContext i = false) :
    (finish r).ctx = s.ctx := by
  cases h with
  | reset he => subst he; cases hi
  | stored e t hd => rw [usesContext_of_isDecoderCommand hd] at hi; cases hi
  | context t us hu => rw [hu] at hi; cases hi
  | created t hu => rw [hu] at hi; cases hi
  | config | internal | format | absence | quiet | append | result => rfl

/-- ABSENT, cleared before the body, is set by a TRY command's absence alone, which is reported as success
(10_state.md R43, 46_control.md R322). -/
theorem BodyAnswer.try_of_absent {i : Instr} {s : State} {r : BodyResult} (h : BodyAnswer i (s.setAbsent false) r)
    (ha : (finish r).absent = true) : isTry i = true ∧ (finish r).lastErr = 0#8 := by
  cases h with
  | absence ht => exact ⟨ht, rfl⟩
  | config | internal | format | stored | quiet | append | context | created | result | reset => cases ha

/-- Every command keeps IN and the configuration, and never reports absence together with an error. -/
theorem exec_environment_kept {i : Instr} {s t : State} (h : exec i s = .next t) :
    t.inp = s.inp ∧ t.cfg = s.cfg ∧ (t.absent = true → t.lastErr = successCode) := by
  obtain ⟨r, ha, he⟩ := exec_answer i s
  obtain rfl : finish r = t := by rw [he] at h; cases h; rfl
  obtain ⟨hinp, hcfg, -⟩ := ha.environment_kept
  exact ⟨hinp, hcfg, fun hb => (ha.try_of_absent hb).2⟩

end Sys2Proof.Machine
end

section
/-! SUPPORT. STATUS as arithmetic: each field at its weight, each below its range (10_state.md R37, R43). -/

namespace Sys2Proof.Machine

/-- STATUS.DIR as the host reads it. -/
def statusDir (t : Context) : BitVec 1 := if t.valid then dirBit t.dir else 0#1

/-- STATUS.PROF as the host reads it. -/
def statusProf (t : Context) : ProfCode := if t.valid then blockCode t.prof else 0#4

/-- STATUS.OPTS as the host reads it. -/
def statusOpts (t : Context) : Options := if t.valid then t.opts else 0#8

/-- STATUS is the sum of its fields at their weights, the reserved bits 0 (R43). -/
theorem statusWord_toNat (s : State) : (statusWord s).toNat =
    (BitVec.ofBool s.absent).toNat * 2 ^ 16 + (statusOpts s.ctx).toNat * 2 ^ 8 + (statusProf s.ctx).toNat * 2 ^ 4 +
      (statusDir s.ctx).toNat * 2 ^ 3 + (stateCode (ctxState s.ctx)).toNat := by
  have h : (statusWord s).toNat = (((((0#15 ++ BitVec.ofBool s.absent : BitVec (15 + 1)) ++ statusOpts s.ctx :
      BitVec (15 + 1 + 8)) ++ statusProf s.ctx : BitVec (15 + 1 + 8 + 4)) ++ statusDir s.ctx :
      BitVec (15 + 1 + 8 + 4 + 1)) ++ stateCode (ctxState s.ctx)).toNat := rfl
  have h0 : (0#15).toNat = 0 := rfl
  rw [h, append_toNat, append_toNat, append_toNat, append_toNat, append_toNat, h0]
  omega

/-- Each field of STATUS, read off the word (R43). -/
theorem statusWord_fields (s : State) :
    (statusWord s).toNat % 2 ^ 3 = (stateCode (ctxState s.ctx)).toNat ∧
    (statusWord s).toNat / 2 ^ 3 % 2 = (statusDir s.ctx).toNat ∧
    (statusWord s).toNat / 2 ^ 4 % 2 ^ 4 = (statusProf s.ctx).toNat ∧
    (statusWord s).toNat / 2 ^ 8 % 2 ^ 8 = (statusOpts s.ctx).toNat ∧
    (statusWord s).toNat / 2 ^ 16 = (BitVec.ofBool s.absent).toNat := by
  have h := statusWord_toNat s
  have hState := (stateCode (ctxState s.ctx)).isLt
  have hDir := (statusDir s.ctx).isLt
  have hProf := (statusProf s.ctx).isLt
  have hOpts := (statusOpts s.ctx).isLt
  refine ⟨?_, ?_, ?_, ?_, ?_⟩ <;> omega

/-- With no context and no absence STATUS reads 0 (R43, R50). -/
theorem statusWord_noContext {s : State} (hv : s.ctx.valid = false) (ha : s.absent = false) : statusWord s = 0#32 := by
  apply BitVec.eq_of_toNat_eq
  simp [statusWord_toNat, statusOpts, statusProf, statusDir, ctxState, stateCode, hv, ha]

/-- The value of STATUS.STATE by the fields of the context, in the order of R37. -/
theorem stateCode_ctxState (t : Context) : (stateCode (ctxState t)).toNat =
    if t.valid = false then 0 else if t.fault ≠ none then 4 else if t.eosf = true then 3
    else if 0 < t.mod ∨ 0 < t.padRun then 2 else 1 := by
  unfold ctxState
  cases hv : t.valid with
  | false => rfl
  | true =>
    cases hf : t.fault with
    | some e => rfl
    | none =>
      cases he : t.eosf with
      | true => rfl
      | false => by_cases hp : 0 < t.mod ∨ 0 < t.padRun <;> simp [hp, stateCode]

theorem statusDir_toNat (t : Context) :
    (statusDir t).toNat = if t.valid = true ∧ t.dir = .decoder then 1 else 0 := by
  unfold statusDir
  cases t.valid <;> cases t.dir <;> rfl

theorem statusProf_toNat (t : Context) : (statusProf t).toNat =
    if t.valid = false then 0 else (blockCode t.prof).toNat := by
  unfold statusProf
  cases t.valid <;> rfl

theorem statusOpts_toNat (t : Context) :
    (statusOpts t).toNat = if t.valid = true then t.opts.toNat else 0 := by
  unfold statusOpts
  cases t.valid <;> rfl

theorem absentBit_toNat (b : Bool) : (BitVec.ofBool b).toNat = if b = true then 1 else 0 := by
  cases b <;> rfl

end Sys2Proof.Machine
end

section
/-! SUPPORT. The checks of a PUT or EOS, the creation of a context, and the register map, as the statements name them. -/

namespace Sys2Proof.Machine

/-- Without a context a PUT or EOS raises C_NO_CONTEXT (60_exceptions.md R344 item 2). -/
theorem runCommand_noContext {s : State} (h : s.ctx.valid = false) (d : Direction) (body : State → BodyResult) :
    runCommand s (fun s => withContext d s body) = raised s 0x14#8 := by
  simp only [runCommand, withContext, State.setAbsent_ctx, h]
  rfl

/-- Making a context of a profile whose table has the right size succeeds (30_encoding.md R110, 10_state.md R51). -/
theorem runCommand_create {s : State} {q : BlockProfile} (d : Direction) (o : Options)
    (hs : sizeOk s.cfg (.block q) = true) :
    runCommand s (fun s => withProfile (servedStreaming (blockCode q)) Profile.block s
      (fun q => .success (s.setCtx (freshContext d q o)))) = { quiet s with ctx := freshContext d q o } := by
  have hs' : sizeOk (s.setAbsent false).cfg (.block q) = true := hs
  simp only [runCommand, servedStreaming_blockCode, withProfile_ok hs']
  rfl

/-- The register window as a table of offsets and the values read there (10_state.md R40). -/
def registerMap (s : State) : List (Nat × RegWord) :=
  [(0x00, 0#32), (0x04, s.arg), (0x08, statusWord s), (0x0C, s.lastErr.zeroExtend 32),
    (0x10, s.res.extractLsb' 0 32), (0x14, s.res.extractLsb' 32 32), (0x18, 0x424E5801#32), (0x1C, 0#32), (0x20, 0#32),
    (0x24, 0#32), (0x28, 0#32), (0x2C, 0#32), (0x30, 0#32), (0x34, 0#32), (0x38, 0#32), (0x3C, 0#32)]

/-- Every offset of the map is an aligned one of the window, and reading it returns the map's value. -/
theorem readRegister_of_mem {s : State} {off : Nat} {v : RegWord} (h : (off, v) ∈ registerMap s) :
    off < 64 ∧ off % 4 = 0 ∧ readRegister s off = v := by
  have hall : ∀ e ∈ registerMap s, e.1 < 64 ∧ e.1 % 4 = 0 ∧ readRegister s e.1 = e.2 := by
    simp only [registerMap, List.forall_mem_cons]
    refine ⟨?_, ?_, ?_, ?_, ?_, ?_, ?_, ?_, ?_, ?_, ?_, ?_, ?_, ?_, ?_, ?_, by simp⟩ <;>
      exact ⟨by decide, by decide, rfl⟩
  exact hall _ h

end Sys2Proof.Machine
end

section
/-! SUPPORT. The invariant of the machine: what each context the streams can leave satisfies, and which answers of a body keep it (10_state.md R31 to R35, 60_exceptions.md R341, R343). -/

namespace Sys2Proof.Machine

/-- Without a context there is nothing to bound. -/
theorem contextInv_of_invalid {cfg : Config} {t : Context} (h : t.valid = false) : ContextInv cfg t := by
  constructor <;> intro hv <;> rw [h] at hv <;> cases hv

theorem contextInv_freshContext {cfg : Config} {q : BlockProfile} (hs : sizeOk cfg (.block q) = true) (d : Direction)
    (o : Options) : ContextInv cfg (freshContext d q o) where
  sized _ := hs
  faultDecoder _ hf := absurd rfl hf
  bounds _ _ := freshContext_bounds cfg d q o
  flushed _ he := nomatch he

/-- A PUT that keeps the bounds of an open stream keeps its invariant. -/
theorem contextInv_of_sameStream {cfg : Config} {t u : Context} (hs : sizeOk cfg (.block t.prof) = true)
    (hf : t.fault = none) (he : t.eosf = false) (hu : SameStream t u) (hb : ContextBounds cfg u) : ContextInv cfg u where
  sized _ := by rw [hu.prof]; exact hs
  faultDecoder _ hn := absurd (hu.fault.trans hf) hn
  bounds _ _ := hb
  flushed _ hn := by rw [hu.eosf, he] at hn; cases hn

/-- An end of stream that leaves nothing held keeps the invariant. -/
theorem contextInv_of_flushed {cfg : Config} {u : Context} (hs : sizeOk cfg (.block u.prof) = true)
    (hf : u.fault = none) (hb : ContextBounds cfg u) (hm : u.mod = 0) (ha : u.acc = 0) (hp : u.padRun = 0) :
    ContextInv cfg u where
  sized _ := hs
  faultDecoder _ hn := absurd hf hn
  bounds _ _ := hb
  flushed _ _ := ⟨hm, ha, hp⟩

/-- A format error stored in an open decoder keeps the invariant: no bound is asked of a failed context. -/
theorem contextInv_of_stored {cfg : Config} {t k : Context} (e : FormatError) (hs : sizeOk cfg (.block t.prof) = true)
    (hd : t.dir = .decoder) (he : t.eosf = false) (hk : SameStream t k) :
    ContextInv cfg { k with fault := some e } where
  sized _ := by rw [← hk.prof] at hs; exact hs
  faultDecoder _ _ := ⟨hk.dir.trans hd, hk.eosf.trans he⟩
  bounds _ hn := nomatch hn
  flushed _ hn := by
    have hf : k.eosf = true := hn
    rw [hk.eosf, he] at hf; cases hf

/-- An answer of a body that keeps the context's invariant and raises no internal error. -/
def KeepsContext (cfg : Config) : BodyResult → Prop
  | .success t => ContextInv cfg t.ctx
  | .absence t => ContextInv cfg t.ctx
  | .raise e t => ContextInv cfg t.ctx ∧ ∀ k, e ≠ .internal k

/-- Such an answer is reported with a good context and a code of classes 0x0 to 0x2. -/
theorem KeepsContext.finish_good {cfg : Config} {r : BodyResult} (h : KeepsContext cfg r) :
    ContextInv cfg (finish r).ctx ∧ Reported (finish r).lastErr := by
  cases r with
  | success t => exact ⟨h, .inl rfl⟩
  | absence t => exact ⟨h, .inl rfl⟩
  | raise e t =>
    obtain ⟨hc, hn⟩ := h
    refine ⟨hc, ?_⟩
    cases e with
    | config e => exact .inr (.inl ⟨e, rfl⟩)
    | format e => exact .inr (.inr ⟨e, rfl⟩)
    | internal e => exact absurd rfl (hn e)

theorem keepsContext_config {cfg : Config} {t : State} (h : ContextInv cfg t.ctx) (e : ConfigError) :
    KeepsContext cfg (.raise (.config e) t) := ⟨h, fun _ hn => nomatch hn⟩

theorem keepsContext_format {cfg : Config} {t : State} (h : ContextInv cfg t.ctx) (e : FormatError) :
    KeepsContext cfg (.raise (.format e) t) := ⟨h, fun _ hn => nomatch hn⟩

/-- A body behind the checks of an FP command runs with a table of the right size. -/
theorem withProfile_keepsContext {α : Type} {s : State} {served : Except ConfigError α} {f : α → Profile}
    {body : α → BodyResult} (hi : ContextInv s.cfg s.ctx)
    (h : ∀ a, sizeOk s.cfg (f a) = true → KeepsContext s.cfg (body a)) :
    KeepsContext s.cfg (withProfile served f s body) := by
  rcases withProfile_cases served f s body with ⟨e, _, h1⟩ | ⟨a, _, _, h1⟩ | ⟨a, _, hs, h1⟩ <;> rw [h1]
  · exact keepsContext_config hi e
  · exact keepsContext_config hi _
  · exact h a hs

/-- A body behind the checks of a PUT or EOS runs on an open stream. -/
theorem withContext_keepsContext {s : State} {d : Direction} {body : State → BodyResult} (hi : ContextInv s.cfg s.ctx)
    (h : Open d s → KeepsContext s.cfg (body s)) : KeepsContext s.cfg (withContext d s body) := by
  rcases withContext_cases d s body with ⟨_, h1⟩ | ⟨_, _, h1⟩ | ⟨e, _, _, _, h1⟩ | ⟨_, _, _, _, h1⟩ | ⟨ho, h1⟩ <;> rw [h1]
  · exact keepsContext_config hi _
  · exact keepsContext_config hi _
  · exact keepsContext_format hi e
  · exact hi
  · exact h ho

/-- The end of a whole-buffer command leaves the context; it raises what its encoding or decoding raised. -/
theorem commit_keepsContext {s : State} {r : Except Err (List CharUnit)} (hi : ContextInv s.cfg s.ctx)
    (hr : ∀ k, r ≠ .error (.internal k)) : KeepsContext s.cfg (commit s r) := by
  cases r with
  | ok us => exact hi
  | error e => exact ⟨hi, fun k hk => hr k (by rw [hk])⟩

theorem commitTry_keepsContext {s : State} {r : Except Err (List CharUnit)} (hi : ContextInv s.cfg s.ctx)
    (hr : ∀ k, r ≠ .error (.internal k)) : KeepsContext s.cfg (commitTry s r) := by
  rcases r with (e | e | k) | us
  · exact keepsContext_config hi e
  · exact hi
  · exact absurd rfl (hr k)
  · exact hi

end Sys2Proof.Machine
end

section
/-! SUPPORT. No whole-buffer conversion meets an internal error once its table's size was checked (60_exceptions.md R343). -/

namespace Sys2Proof.Machine

theorem unitsToBytes_error {us : List CharUnit} {e : Err} (h : unitsToBytes us = .error e) :
    e = .config .badOperand := by
  unfold unitsToBytes at h
  split at h <;> cases h
  rfl

theorem asBuffer_ne_internal (r : Except FormatError (List Byte)) (k : InternalError) :
    asBuffer r ≠ .error (.internal k) := by
  cases r <;> simp [asBuffer]

theorem blockEncodeUnits_ne_internal {cfg : Config} {p : BlockProfile} (hs : sizeOk cfg (.block p) = true) (o : Options)
    (us : List CharUnit) (k : InternalError) : blockEncodeUnits cfg p o us ≠ .error (.internal k) := by
  unfold blockEncodeUnits
  cases hu : unitsToBytes us with
  | error e => rw [unitsToBytes_error hu]; simp
  | ok bs =>
    obtain ⟨vs, hv⟩ := blockEncode_defined hs o bs
    simp [hv]

theorem blockDecodeUnits_ne_internal (cfg : Config) (p : BlockProfile) (o : Options) (cs : List CharUnit)
    (k : InternalError) : blockDecodeUnits cfg p o cs ≠ .error (.internal k) := by
  intro h
  obtain ⟨f, hf⟩ := blockDecodeUnits_error h
  cases hf

theorem positionalEncodeUnits_ne_internal {cfg : Config} (hs : sizeOk cfg .p58 = true) (o : Options)
    (us : List CharUnit) (k : InternalError) : positionalEncodeUnits cfg o us ≠ .error (.internal k) := by
  unfold positionalEncodeUnits
  cases hu : unitsToBytes us with
  | error e => rw [unitsToBytes_error hu]; simp
  | ok bs =>
    obtain ⟨vs, hv, -⟩ := positionalEncode_defined hs o bs
    simp [hv]

theorem positionalDecodeUnits_ne_internal (cfg : Config) (o : Options) (cs : List CharUnit) (k : InternalError) :
    positionalDecodeUnits cfg o cs ≠ .error (.internal k) := by
  unfold positionalDecodeUnits
  cases positionalDecode cfg o cs <;> simp

end Sys2Proof.Machine
end

section
/-! SUPPORT. Every command keeps the invariant: the four stream commands by the bounds their bodies keep, the others because they make a new context, discard it or leave it. -/

namespace Sys2Proof.Machine

/-- ENC.PUT on an open stream. -/
theorem encPut_keepsContext {s : State} (hi : ContextInv s.cfg s.ctx) (ho : Open .encoder s) (b : Byte) :
    KeepsContext s.cfg (encStream s (encPutBody s.cfg s.ctx b)) := by
  have hs := hi.sized ho.valid
  obtain ⟨u, us, hu, hk, hb⟩ := encPutBody_keeps hs ho.dir (hi.bounds ho.valid ho.fault) b
  rw [hu]
  exact contextInv_of_sameStream hs ho.fault ho.eosf hk hb

/-- ENC.EOS on an open stream. -/
theorem encEos_keepsContext {s : State} (hi : ContextInv s.cfg s.ctx) (ho : Open .encoder s) :
    KeepsContext s.cfg (encStream s (encEosBody s.cfg s.ctx)) := by
  have hs := hi.sized ho.valid
  obtain ⟨u, us, hu, -, -, hprof, -, hfault, -, hmod, hacc, hpad, hb⟩ :=
    encEosBody_keeps hs ho.dir (hi.bounds ho.valid ho.fault)
  have hs' : sizeOk s.cfg (.block u.prof) = true := by rw [hprof]; exact hs
  rw [hu]
  exact contextInv_of_flushed hs' (hfault.trans ho.fault) hb hmod hacc hpad

/-- DEC.PUT on an open stream: within the bounds, or a stored format error. -/
theorem decPut_keepsContext {s : State} (hi : ContextInv s.cfg s.ctx) (ho : Open .decoder s) (c : CharUnit) :
    KeepsContext s.cfg (decStream s (decPutBody s.cfg s.ctx c)) := by
  have hs := hi.sized ho.valid
  rcases decPutBody_keeps ho.dir (hi.bounds ho.valid ho.fault) c with ⟨u, bs, hu, hk, hb⟩ | ⟨e, k, hu, hk⟩ <;> rw [hu]
  · exact contextInv_of_sameStream hs ho.fault ho.eosf hk hb
  · exact keepsContext_format (contextInv_of_stored e hs ho.dir ho.eosf hk) e

/-- DEC.EOS on an open stream: nothing held, or a stored format error. -/
theorem decEos_keepsContext {s : State} (hi : ContextInv s.cfg s.ctx) (ho : Open .decoder s) :
    KeepsContext s.cfg (decStream s (decEosBody s.ctx)) := by
  have hs := hi.sized ho.valid
  rcases decEosBody_keeps ho.dir (hi.bounds ho.valid ho.fault) with ⟨u, bs, hu, rfl, hb⟩ | ⟨e, hu⟩ <;> rw [hu]
  · exact contextInv_of_flushed hs ho.fault hb rfl rfl rfl
  · exact keepsContext_format (contextInv_of_stored e hs ho.dir ho.eosf ⟨rfl, rfl, rfl, rfl, rfl, rfl⟩) e

/-- Every command answers, on a context within its invariant, in a way that keeps the invariant and without an
internal error (60_exceptions.md R343). -/
theorem exec_keepsContext (i : Instr) {s : State} (h : ContextInv s.cfg s.ctx) :
    ∃ r, exec i s = .next (finish r) ∧ KeepsContext s.cfg r := by
  have hi : ContextInv (s.setAbsent false).cfg (s.setAbsent false).ctx := h
  suffices hr : ∃ r, exec i s = .next (finish r) ∧ KeepsContext (s.setAbsent false).cfg r from hr
  cases i with
  | nop => exact ⟨_, rfl, hi⟩
  | srst => exact ⟨_, rfl, contextInv_of_invalid rfl⟩
  | ctxEnc o p => exact ⟨_, rfl, withProfile_keepsContext hi fun q hs => contextInv_freshContext hs .encoder o⟩
  | ctxDec o p => exact ⟨_, rfl, withProfile_keepsContext hi fun q hs => contextInv_freshContext hs .decoder o⟩
  | encPut b => exact ⟨_, rfl, withContext_keepsContext hi fun ho => encPut_keepsContext hi ho b⟩
  | encEos => exact ⟨_, rfl, withContext_keepsContext hi fun ho => encEos_keepsContext hi ho⟩
  | decPut c => exact ⟨_, rfl, withContext_keepsContext hi fun ho => decPut_keepsContext hi ho c⟩
  | decEos => exact ⟨_, rfl, withContext_keepsContext hi fun ho => decEos_keepsContext hi ho⟩
  | blkEnc o p =>
    exact ⟨_, rfl, withProfile_keepsContext hi fun q hs =>
      commit_keepsContext hi (blockEncodeUnits_ne_internal hs o _)⟩
  | blkDec o p =>
    exact ⟨_, rfl, withProfile_keepsContext hi fun q _ =>
      commit_keepsContext hi (blockDecodeUnits_ne_internal _ q o _)⟩
  | blkTryDec o p =>
    exact ⟨_, rfl, withProfile_keepsContext hi fun q _ =>
      commitTry_keepsContext hi (blockDecodeUnits_ne_internal _ q o _)⟩
  | hexFDec => exact ⟨_, rfl, commit_keepsContext hi (asBuffer_ne_internal _)⟩
  | hexTryFDec => exact ⟨_, rfl, commitTry_keepsContext hi (asBuffer_ne_internal _)⟩
  | posEnc o p =>
    exact ⟨_, rfl, withProfile_keepsContext hi fun _ hs =>
      commit_keepsContext hi (positionalEncodeUnits_ne_internal hs o _)⟩
  | posDec o p =>
    exact ⟨_, rfl, withProfile_keepsContext hi fun _ _ =>
      commit_keepsContext hi (positionalDecodeUnits_ne_internal _ o _)⟩
  | posTryDec o p =>
    exact ⟨_, rfl, withProfile_keepsContext hi fun _ _ =>
      commitTry_keepsContext hi (positionalDecodeUnits_ne_internal _ o _)⟩
  | capMaxChar o p | capMaxByte o p => exact ⟨_, rfl, withProfile_keepsContext hi fun _ _ => hi⟩
  | txtPad o p | txtUnpad o p => exact ⟨_, rfl, withProfile_keepsContext hi fun _ _ => hi⟩

/-- Every command keeps the invariant of the machine. -/
theorem exec_keeps_inv {i : Instr} {s t : State} (hi : Inv s) (h : exec i s = .next t) : Inv t := by
  obtain ⟨hinp, hcfg, habs⟩ := exec_environment_kept h
  obtain ⟨r, he, hr⟩ := exec_keepsContext i hi.ctx
  obtain rfl : finish r = t := by rw [he] at h; cases h; rfl
  obtain ⟨hctx, herr⟩ := hr.finish_good
  exact ⟨by rw [hcfg]; exact hctx, herr, habs, by rw [hinp, hcfg]; exact hi.input⟩

/-- Every step keeps the invariant: the host's other actions leave the context and the report, and load no more than
`MAX_IN` units (20_memory.md R70). -/
theorem step_keeps_inv {s t : State} (hi : Inv s) (h : step s = .next t) : Inv t := by
  obtain ⟨hctx, herr, habs, hinp⟩ := hi
  cases step_answer h with
  | loadIn us hle => exact ⟨hctx, herr, habs, hle⟩
  | command i t he => exact exec_keeps_inv (s := s.popHost.bumpPc) ⟨hctx, herr, habs, hinp⟩ he
  | rejected c hc => exact ⟨hctx, .inr (.inl ⟨_, hc⟩), (nomatch ·), hinp⟩
  | waits | readOut | discardOut | registerRead | argWrite | ignoredWrite => exact ⟨hctx, herr, habs, hinp⟩

/-- No step writes the configuration (10_state.md R48). -/
theorem step_keeps_cfg {s t : State} (h : step s = .next t) : t.cfg = s.cfg := by
  cases step_answer h with
  | command i t he => exact (exec_environment_kept he).2.1
  | waits | loadIn | readOut | discardOut | registerRead | argWrite | ignoredWrite | rejected => rfl

theorem powerOn_inv (cfg : Config) : Inv (State.powerOn cfg) where
  ctx := contextInv_of_invalid rfl
  err := .inl rfl
  absence h := nomatch h
  input := Nat.zero_le _

end Sys2Proof.Machine
end

section
/-! CERTIFICATES. The statements about the machine's state, its registers and its steps, settled. -/

namespace Sys2Proof.Proofs

open Sys2Proof.Machine

/-- Settles O54: a step is a command, which keeps the context by the bounds of its body, or an action of the host that
leaves the context alone. -/
theorem stepKeepsInvariant : Obligations.StepKeepsInvariant := fun _ _ hi h => step_keeps_inv hi h

/-- Settles O9, offset by offset of the register map. -/
theorem registerReads : Obligations.RegisterReads := by
  intro s rest off v hc hh hm
  obtain ⟨hlt, h4, rfl⟩ := readRegister_of_mem (s := s) hm
  exact step_registerRead hc hh hlt h4

/-- Settles O10, by where the access falls. -/
theorem badBusAccessStops : Obligations.BadBusAccessStops := by
  intro s rest addr width v hc _ hh
  constructor
  · intro hlo hhi hw
    have ht := busTarget_illegal hlo hhi hw
    rcases hh with hh | hh <;> rw [step_eq_perform hc hh] <;> simp only [perform, hostRead, hostWrite, ht]
  · intro hout
    have ht := busTarget_outside hout
    rcases hh with hh | hh <;> rw [step_eq_perform hc hh] <;> simp only [perform, hostRead, hostWrite, ht]

/-- Settles O13, field by field of the word. -/
theorem statusReportsContext : Obligations.StatusReportsContext := by
  intro s
  obtain ⟨hState, hDir, hProf, hOpts, hAbsent⟩ := statusWord_fields s
  refine ⟨hState.trans (stateCode_ctxState _), hDir.trans (statusDir_toNat _), ?_, hOpts.trans (statusOpts_toNat _),
    hAbsent.trans (absentBit_toNat _)⟩
  rw [hProf, statusProf_toNat]
  cases s.ctx.prof <;> rfl

/-- Settles O14, by the answers a command's body can give. -/
theorem commandsWriteOnlyTheirOwn : Obligations.CommandsWriteOnlyTheirOwn := by
  intro i s
  obtain ⟨r, hr, he⟩ := exec_answer i s
  obtain ⟨hinp, hcfg, hhost, hpc, hbus, hview⟩ := hr.environment_kept
  exact ⟨finish r, he, hr.out_grows, hinp, hcfg, hhost, hpc, hbus, hview, hr.arg_kept, hr.res_kept, hr.ctx_kept,
    hr.try_of_absent⟩

/-- Settles O19: the profile is served, the table has its size, and the new context names every field. -/
theorem contextCreation : Obligations.ContextCreation := by
  intro s o q hq
  have hs : sizeOk s.cfg (.block q) = true := (sizeOk_iff _ _).2 hq
  exact ⟨congrArg Host.Outcome.next (runCommand_create .encoder o hs),
    congrArg Host.Outcome.next (runCommand_create .decoder o hs)⟩

/-- Settles O57: no action of the host and no command writes the configuration. -/
theorem configurationImmutable : Obligations.ConfigurationImmutable := fun _ _ h => step_keeps_cfg h

/-- Settles O5: a CMD write issues its word, which decodes or does not. -/
theorem stepRunsDecodedCommand : Obligations.StepRunsDecodedCommand := by
  intro s w rest hc hh
  have hstep := step_cmdWrite hc hh
  exact ⟨fun i hd => hstep.trans (issue_ok hd _), fun e hd => hstep.trans (issue_error hd _)⟩

/-- Settles O6: the word placed is the command's, and it decodes to the command. -/
theorem fetchedWordRuns : Obligations.FetchedWordRuns := by
  intro s i hc
  have hstep := step_cmdWrite (s := s.withFetchWord 32 (encode i).toNat) hc rfl
  rw [tableWord_toNat, issue_ok (decode_encode i)] at hstep
  exact hstep

/-- Settles O22: no context at power-on, so the checks of a PUT or EOS stop at the first. -/
theorem powerOnReset : Obligations.PowerOnReset := by
  refine ⟨rfl, fun cfg => ⟨rfl, rfl, statusWord_noContext rfl rfl, rfl, rfl, rfl, rfl, rfl, ?_⟩⟩
  rintro i (⟨b, rfl⟩ | rfl | ⟨c, rfl⟩ | rfl)
  · exact congrArg Host.Outcome.next (runCommand_noContext rfl .encoder _)
  · exact congrArg Host.Outcome.next (runCommand_noContext rfl .encoder _)
  · exact congrArg Host.Outcome.next (runCommand_noContext rfl .decoder _)
  · exact congrArg Host.Outcome.next (runCommand_noContext rfl .decoder _)

/-- Settles O55: without a context there is nothing to bound, and the registers read success. -/
theorem resetMeetsInvariant : Obligations.ResetMeetsInvariant := ⟨powerOn_inv, powerOn_inv _⟩

end Sys2Proof.Proofs
end

section
/-! SUPPORT. The host's actions other than a command, one by one: loading IN, reading and discarding OUT, register writes (20_memory.md R70, R71, R82; 10_state.md R40, R42). -/

namespace Sys2Proof.Machine

/-- Loading at most `MAX_IN` units replaces IN (R70). -/
theorem step_loadIn {s : State} {us : List CharUnit} {rest : List HostAction} (hc : configOk s.cfg = true)
    (hh : s.host = .loadIn us :: rest) (hle : us.length ≤ s.cfg.maxIn) :
    step s = .next { s with inp := us, host := rest } := by
  rw [step_eq_perform hc hh]
  exact if_pos hle

/-- Reading OUT hands the host its units and has no effect on the engine (R82). -/
theorem step_readOut {s : State} {rest : List HostAction} (hc : configOk s.cfg = true)
    (hh : s.host = .readOut :: rest) : step s = .next { s with outView := s.out, host := rest } := by
  rw [step_eq_perform hc hh]
  rfl

/-- Dropping as many units as a suffix of OUT has leaves what stands before it (R71). -/
theorem dropOut_suffix {s : State} {keep gone : List CharUnit} (h : s.out = keep ++ gone) :
    s.dropOut gone.length = { s with out := keep } := by
  have htake : s.out.take (s.out.length - gone.length) = keep := by
    rw [h, List.length_append, Nat.add_sub_cancel, List.take_left]
  rw [State.dropOut, htake]

/-- Discarding a suffix of OUT leaves the rest of it (R71). -/
theorem step_discardOut {s : State} {keep gone : List CharUnit} {rest : List HostAction} (hc : configOk s.cfg = true)
    (hout : s.out = keep ++ gone) (hh : s.host = .discardOut gone.length :: rest) :
    step s = .next { s with out := keep, host := rest } := by
  have hle : gone.length ≤ s.out.length := by rw [hout, List.length_append]; omega
  have hdrop : ({ s with host := rest } : State).dropOut gone.length = { s with out := keep, host := rest } :=
    dropOut_suffix hout
  rw [step_eq_perform hc hh, ← hdrop]
  exact if_pos hle

/-- A write to a register of the window other than CMD is that register's write (R40, R44). -/
theorem step_registerWrite {s : State} {off : Nat} {v : RegWord} {rest : List HostAction} (hc : configOk s.cfg = true)
    (hh : s.host = .busWrite (s.cfg.base + off) 4 v :: rest) (hcmd : off ≠ cmdOffset) (hlt : off < 64)
    (h4 : off % 4 = 0) : step s = .next (writeRegister { s with host := rest } off v) := by
  rw [step_eq_perform hc hh]
  simp only [perform, hostWrite, busTarget_register hlt h4, if_neg hcmd]

theorem writeRegister_arg (s : State) (v : RegWord) : writeRegister s argOffset v = { s with arg := v } := rfl

/-- A write to a register other than CMD and ARG is ignored (R43, R47; notes/assumptions/9.md). -/
theorem writeRegister_ignored {off : Nat} (h : off ≠ argOffset) (s : State) (v : RegWord) :
    writeRegister s off v = s := if_neg h

end Sys2Proof.Machine
end

section
/-! SUPPORT. BLK.ENC and POS.ENC behind their checks, and the operand they refuse (20_memory.md R70, 41_block_encoder.md R170, 43_positional.md R252). -/

namespace Sys2Proof.Machine

/-- One unit above 0x00FF makes IN no byte sequence (R70). -/
theorem unitsToBytes_badOperand {us : List CharUnit} (h : ∃ u ∈ us, 0xFF < u.toNat) :
    unitsToBytes us = .error (.config .badOperand) := by
  have hany : us.any (fun u => 0xFF < u.toNat) = true := by simpa using h
  rw [unitsToBytes, if_pos hany]

/-- With a table of the right size BLK.ENC reports what the encoding of IN gives (R170). -/
theorem exec_blkEnc_sized {s : State} {q : BlockProfile} (hs : sizeOk s.cfg (.block q) = true) (o : Options) :
    exec (.blkEnc o (blockCode q)) s =
      .next (finish (commit (s.setAbsent false) (blockEncodeUnits s.cfg q o s.inp))) := by
  have hs' : sizeOk (s.setAbsent false).cfg (.block q) = true := hs
  simp only [exec, execBlkEnc, runCommand, servedBlock_blockCode, withProfile_ok hs', State.setAbsent_cfg,
    State.setAbsent_inp]

/-- With a table of the right size POS.ENC reports what the encoding of IN gives (R252). -/
theorem exec_posEnc_sized {s : State} (hs : sizeOk s.cfg .p58 = true) (o : Options) :
    exec (.posEnc o 3#4) s = .next (finish (commit (s.setAbsent false) (positionalEncodeUnits s.cfg o s.inp))) := by
  have hs' : sizeOk (s.setAbsent false).cfg .p58 = true := hs
  simp only [exec, execPosEnc, runCommand, servedPositional_three, withProfile_ok (f := fun _ => Profile.p58) hs',
    State.setAbsent_cfg, State.setAbsent_inp]

end Sys2Proof.Machine
end

section
/-! SUPPORT. What runs the same under the other byte order of the bus (20_memory.md R75): the tables and the conversions do not read it, and the command cycle carries it along. -/

namespace Sys2Proof

/-- The same configuration on a bus of byte order `e`. -/
def Config.withEndian (cfg : Config) (e : Endian) : Config := { cfg with busEndian := e }

end Sys2Proof

namespace Sys2Proof.Machine

/-! An operation that follows no list computes the same by its definition. -/

theorem sizeOk_withEndian (cfg : Config) (e : Endian) : sizeOk (cfg.withEndian e) = sizeOk cfg := rfl

theorem classOf_withEndian (cfg : Config) (e : Endian) : classOf (cfg.withEndian e) = classOf cfg := rfl

theorem encPutBody_withEndian (cfg : Config) (e : Endian) : encPutBody (cfg.withEndian e) = encPutBody cfg := rfl

theorem encEosBody_withEndian (cfg : Config) (e : Endian) : encEosBody (cfg.withEndian e) = encEosBody cfg := rfl

theorem decPutBody_withEndian (cfg : Config) (e : Endian) : decPutBody (cfg.withEndian e) = decPutBody cfg := rfl

theorem fastEligible_withEndian (cfg : Config) (e : Endian) : fastEligible (cfg.withEndian e) = fastEligible cfg := rfl

theorem verifyChecksum_withEndian (cfg : Config) (e : Endian) :
    verifyChecksum (cfg.withEndian e) = verifyChecksum cfg := rfl

/-! The conversions that follow a list do so by its induction. -/

theorem encFeed_withEndian (cfg : Config) (e : Endian) (t : Context) (bs : List Byte) :
    encFeed (cfg.withEndian e) t bs = encFeed cfg t bs := by
  induction bs generalizing t with
  | nil => rfl
  | cons b bs ih => simp only [encFeed, encPutBody_withEndian, ih]

theorem decFeed_withEndian (cfg : Config) (e : Endian) (t : Context) (cs : List CharUnit) :
    decFeed (cfg.withEndian e) t cs = decFeed cfg t cs := by
  induction cs generalizing t with
  | nil => rfl
  | cons c cs ih => simp only [decFeed, decPutBody_withEndian, ih]

theorem positionalValues_withEndian (cfg : Config) (e : Endian) (o : Options) (cs : List CharUnit) :
    positionalValues (cfg.withEndian e) o cs = positionalValues cfg o cs := by
  induction cs with
  | nil => rfl
  | cons c cs ih => simp only [positionalValues, classOf_withEndian, ih]

theorem blockEncodeUnits_withEndian (cfg : Config) (e : Endian) (p : BlockProfile) (o : Options) (us : List CharUnit) :
    blockEncodeUnits (cfg.withEndian e) p o us = blockEncodeUnits cfg p o us := by
  simp only [blockEncodeUnits, blockEncode, encFeed_withEndian, encEosBody_withEndian]

theorem blockDecodeUnits_withEndian (cfg : Config) (e : Endian) (p : BlockProfile) (o : Options) (cs : List CharUnit) :
    blockDecodeUnits (cfg.withEndian e) p o cs = blockDecodeUnits cfg p o cs := by
  simp only [blockDecodeUnits, generalDecode, fastEligible_withEndian, decFeed_withEndian]

theorem positionalDecodeUnits_withEndian (cfg : Config) (e : Endian) (o : Options) (cs : List CharUnit) :
    positionalDecodeUnits (cfg.withEndian e) o cs = positionalDecodeUnits cfg o cs := by
  simp only [positionalDecodeUnits, positionalDecode, positionalValues_withEndian, verifyChecksum_withEndian]

/-- The same machine on a bus of byte order `e`. -/
def State.withEndian (s : State) (e : Endian) : State := { s with cfg := s.cfg.withEndian e }

/-- The same answer of a body on a bus of byte order `e`. -/
def BodyResult.withEndian (r : BodyResult) (e : Endian) : BodyResult :=
  match r with
  | .success s => .success (s.withEndian e)
  | .absence s => .absence (s.withEndian e)
  | .raise k s => .raise k (s.withEndian e)

/-- The body gives the same answer on a bus of either byte order. -/
def EndianBlind (body : State → BodyResult) : Prop :=
  ∀ (s : State) (e : Endian), body (s.withEndian e) = (body s).withEndian e

theorem finish_withEndian (r : BodyResult) (e : Endian) : finish (r.withEndian e) = (finish r).withEndian e := by
  cases r <;> rfl

theorem runCommand_withEndian {body : State → BodyResult} (h : EndianBlind body) (s : State) (e : Endian) :
    runCommand (s.withEndian e) body = (runCommand s body).withEndian e :=
  (congrArg finish (h (s.setAbsent false) e)).trans (finish_withEndian _ e)

/-- The checks of an FP command read the profile code and the table's size. -/
theorem withProfile_endianBlind {α : Type} {served : Except ConfigError α} {f : α → Profile}
    {body : α → State → BodyResult} (h : ∀ a, EndianBlind (body a)) :
    EndianBlind (fun s => withProfile served f s (fun a => body a s)) := by
  intro s e
  cases served with
  | error k => rfl
  | ok a =>
    have hs : sizeOk (s.withEndian e).cfg = sizeOk s.cfg := sizeOk_withEndian s.cfg e
    simp only [withProfile, hs, h a s e]
    split <;> rfl

/-- The checks of a PUT or EOS read the context, which is the same. -/
theorem withContext_endianBlind {d : Direction} {body : State → BodyResult} (h : EndianBlind body) :
    EndianBlind (fun s => withContext d s body) := by
  intro s e
  have hctx : (s.withEndian e).ctx = s.ctx := rfl
  simp only [withContext, hctx, h s e]
  split
  · rfl
  · split
    · rfl
    · split
      · rfl
      · split <;> rfl

theorem commit_endianBlind {r : State → Except Err (List CharUnit)} (h : ∀ s e, r (s.withEndian e) = r s) :
    EndianBlind (fun s => commit s (r s)) := by
  intro s e
  simp only [h s e]
  cases r s <;> rfl

theorem commitTry_endianBlind {r : State → Except Err (List CharUnit)} (h : ∀ s e, r (s.withEndian e) = r s) :
    EndianBlind (fun s => commitTry s (r s)) := by
  intro s e
  simp only [h s e]
  rcases r s with (k | k | k) | us <;> rfl

theorem encStream_endianBlind {r : State → Except Err (Context × List CharUnit)}
    (h : ∀ s e, r (s.withEndian e) = r s) :
    EndianBlind (fun s => encStream s (r s)) := by
  intro s e
  simp only [h s e]
  rcases r s with k | ⟨t, us⟩ <;> rfl

theorem decStream_endianBlind {r : State → DecodeStep} (h : ∀ s e, r (s.withEndian e) = r s) :
    EndianBlind (fun s => decStream s (r s)) := by
  intro s e
  simp only [h s e]
  rcases r s with ⟨k | k | k, t⟩ | ⟨t, bs⟩ <;> rfl

/-- Every command is the command cycle around a body that does not read the byte order of the bus (R75). -/
theorem exec_body_endianBlind (i : Instr) :
    ∃ body, (∀ s, exec i s = .next (runCommand s body)) ∧ EndianBlind body := by
  cases i with
  | nop | srst => exact ⟨_, fun _ => rfl, fun _ _ => rfl⟩
  | ctxEnc o p | ctxDec o p => exact ⟨_, fun _ => rfl, withProfile_endianBlind fun _ _ _ => rfl⟩
  | encPut b | encEos => exact ⟨_, fun _ => rfl, withContext_endianBlind (encStream_endianBlind fun _ _ => rfl)⟩
  | decPut c | decEos => exact ⟨_, fun _ => rfl, withContext_endianBlind (decStream_endianBlind fun _ _ => rfl)⟩
  | blkEnc o p =>
    exact ⟨_, fun _ => rfl, withProfile_endianBlind fun q =>
      commit_endianBlind fun s e => blockEncodeUnits_withEndian s.cfg e q o s.inp⟩
  | blkDec o p =>
    exact ⟨_, fun _ => rfl, withProfile_endianBlind fun q =>
      commit_endianBlind fun s e => blockDecodeUnits_withEndian s.cfg e q o s.inp⟩
  | blkTryDec o p =>
    exact ⟨_, fun _ => rfl, withProfile_endianBlind fun q =>
      commitTry_endianBlind fun s e => blockDecodeUnits_withEndian s.cfg e q o s.inp⟩
  | hexFDec => exact ⟨_, fun _ => rfl, commit_endianBlind fun _ _ => rfl⟩
  | hexTryFDec => exact ⟨_, fun _ => rfl, commitTry_endianBlind fun _ _ => rfl⟩
  | posEnc o p => exact ⟨_, fun _ => rfl, withProfile_endianBlind fun _ => commit_endianBlind fun _ _ => rfl⟩
  | posDec o p =>
    exact ⟨_, fun _ => rfl, withProfile_endianBlind fun _ =>
      commit_endianBlind fun s e => positionalDecodeUnits_withEndian s.cfg e o s.inp⟩
  | posTryDec o p =>
    exact ⟨_, fun _ => rfl, withProfile_endianBlind fun _ =>
      commitTry_endianBlind fun s e => positionalDecodeUnits_withEndian s.cfg e o s.inp⟩
  | capMaxChar o p | capMaxByte o p => exact ⟨_, fun _ => rfl, withProfile_endianBlind fun _ _ _ => rfl⟩
  | txtPad o p | txtUnpad o p =>
    exact ⟨_, fun _ => rfl, withProfile_endianBlind fun _ => commit_endianBlind fun _ _ => rfl⟩

/-- A command does the same on a bus of either byte order (R75). -/
theorem exec_withEndian {i : Instr} {s t : State} (h : exec i s = .next t) (e : Endian) :
    exec i (s.withEndian e) = .next (t.withEndian e) := by
  obtain ⟨body, hexec, hblind⟩ := exec_body_endianBlind i
  obtain rfl : runCommand s body = t := by rw [hexec] at h; cases h; rfl
  rw [hexec, runCommand_withEndian hblind]

end Sys2Proof.Machine
end

section
/-! CERTIFICATES. The statements about the host's side of the machine, IN, OUT and the bus, settled. -/

namespace Sys2Proof.Proofs

open Sys2Proof.Machine

/-- Settles O8, one lemma per host action; the registers beyond ARG ignore a write. -/
theorem hostActionEffects : Obligations.HostActionEffects := by
  intro s rest hc
  refine ⟨fun _ hh hle => step_loadIn hc hh hle, step_readOut hc,
    fun _ _ hout hh => step_discardOut hc hout hh, ?_, ?_⟩
  · intro v hh
    rw [step_registerWrite (off := argOffset) hc hh (by decide) (by decide) (by decide), writeRegister_arg]
  · intro off v hlo hhi h4 hh
    have hcmd : off ≠ cmdOffset := by simp only [cmdOffset]; omega
    have harg : off ≠ argOffset := by simp only [argOffset]; omega
    rw [step_registerWrite hc hh hcmd (by omega) h4, writeRegister_ignored harg]

/-- Settles O28: the units are read as bytes before anything is encoded, and that reading fails. -/
theorem badOperandRaised : Obligations.BadOperandRaised := by
  intro s o hu
  have hbytes := unitsToBytes_badOperand hu
  constructor
  · intro q hq
    rw [exec_blkEnc_sized ((sizeOk_iff _ _).2 hq), blockEncodeUnits, hbytes]
    rfl
  · intro h58
    rw [exec_posEnc_sized ((sizeOk_iff _ _).2 h58), positionalEncodeUnits, hbytes]
    rfl

/-- Settles O59: every command is the command cycle around a body that does not read the byte order. -/
theorem busEndianIrrelevant : Obligations.BusEndianIrrelevant := fun _ _ _ e h => exec_withEndian h e

end Sys2Proof.Proofs
end

section
/-! SUPPORT. The other direction: a word that decodes is the word of its command, and the words of commands are the legal words (30_encoding.md R101 to R104, R107 to R109). -/

namespace Sys2Proof

/-- A field that is zero, as arithmetic. -/
theorem field_eq_zero {w : RegWord} {lo n : Nat} (h : w.extractLsb' lo n = 0) : w.toNat / 2 ^ lo % 2 ^ n = 0 := by
  rw [← field_toNat, h]
  rfl

theorem encode_of_decodeF0 {w : RegWord} {c : BitVec 8} {i j : Instr} (h : decodeF0 w i = .ok j)
    (hi : encode i = encodeF0 c) (hc : (opcField w).toNat = c.toNat) : encode j = w := by
  unfold decodeF0 at h
  split at h
  next hz =>
    cases h
    have hopt := field_eq_zero hz.1
    have hopd := field_eq_zero hz.2
    rw [opcField_toNat] at hc
    apply BitVec.eq_of_toNat_eq
    rw [hi, encodeF0_toNat]
    omega
  next => cases h

theorem encode_of_decodeFB {w : RegWord} {c : BitVec 8} {k : Byte → Instr} {j : Instr} (h : decodeFB w k = .ok j)
    (hk : ∀ b, encode (k b) = encodeFB c b) (hc : (opcField w).toNat = c.toNat) : encode j = w := by
  unfold decodeFB at h
  split at h
  next hz =>
    cases h
    have hopt := field_eq_zero hz.1
    have hopd := field_eq_zero hz.2
    rw [opcField_toNat] at hc
    apply BitVec.eq_of_toNat_eq
    rw [hk, encodeFB_toNat, field_toNat]
    omega
  next => cases h

theorem encode_of_decodeFC {w : RegWord} {c : BitVec 8} {k : CharUnit → Instr} {j : Instr} (h : decodeFC w k = .ok j)
    (hk : ∀ u, encode (k u) = encodeFC c u) (hc : (opcField w).toNat = c.toNat) : encode j = w := by
  unfold decodeFC at h
  split at h
  next hz =>
    cases h
    have hopt := field_eq_zero hz
    rw [opcField_toNat] at hc
    apply BitVec.eq_of_toNat_eq
    rw [hk, encodeFC_toNat, opdField, field_toNat]
    omega
  next => cases h

theorem encode_of_decodeFP {w : RegWord} {c : BitVec 8} {k : Options → ProfCode → Instr} {j : Instr}
    (h : decodeFP w k = .ok j) (hk : ∀ o p, encode (k o p) = encodeFP c o p) (hc : (opcField w).toNat = c.toNat) :
    encode j = w := by
  unfold decodeFP at h
  split at h
  next hz =>
    cases h
    have hopd := field_eq_zero hz
    rw [opcField_toNat] at hc
    apply BitVec.eq_of_toNat_eq
    rw [hk, encodeFP_toNat, optField, field_toNat, field_toNat]
    omega
  next => cases h

/-- A word that decodes is the word of its command: row by row of the opcode map, by the format of the row (R109). -/
theorem encode_of_decode {w : RegWord} {i : Instr} (h : decode w = .ok i) : encode i = w := by
  unfold decode at h
  split at h
  case h_1 hc | h_5 hc | h_7 hc | h_11 hc | h_12 hc | h_20 hc => exact encode_of_decodeF0 h rfl hc
  case h_4 hc => exact encode_of_decodeFB h (fun _ => rfl) hc
  case h_6 hc => exact encode_of_decodeFC h (fun _ => rfl) hc
  case h_2 hc | h_3 hc | h_8 hc | h_9 hc | h_10 hc | h_13 hc | h_14 hc | h_15 hc | h_16 hc | h_17 hc | h_18 hc
      | h_19 hc =>
    exact encode_of_decodeFP h (fun _ _ => rfl) hc
  case h_21 => cases h

/-- The word of a command is legal, whichever the command. -/
theorem legalWord_encode (i : Instr) : LegalWord (encode i) := by
  open Laws in
  cases i with
  | nop => exact EncodedFields.nop
  | ctxEnc o p => exact EncodedFields.ctxEnc o p
  | ctxDec o p => exact EncodedFields.ctxDec o p
  | encPut b => exact EncodedFields.encPut b
  | encEos => exact EncodedFields.encEos
  | decPut c => exact EncodedFields.decPut c
  | decEos => exact EncodedFields.decEos
  | blkEnc o p => exact EncodedFields.blkEnc o p
  | blkDec o p => exact EncodedFields.blkDec o p
  | blkTryDec o p => exact EncodedFields.blkTryDec o p
  | hexFDec => exact EncodedFields.hexFDec
  | hexTryFDec => exact EncodedFields.hexTryFDec
  | posEnc o p => exact EncodedFields.posEnc o p
  | posDec o p => exact EncodedFields.posDec o p
  | posTryDec o p => exact EncodedFields.posTryDec o p
  | capMaxChar o p => exact EncodedFields.capMaxChar o p
  | capMaxByte o p => exact EncodedFields.capMaxByte o p
  | txtPad o p => exact EncodedFields.txtPad o p
  | txtUnpad o p => exact EncodedFields.txtUnpad o p
  | srst => exact EncodedFields.srst

/-- Every F0 opcode is a command's (R101, R107). -/
theorem command_of_opcodeF0 {n : Nat} (h : n ∈ opcodesF0) : ∃ i, encode i = encodeF0 (BitVec.ofNat 8 n) := by
  simp only [opcodesF0, List.mem_cons, List.not_mem_nil, or_false] at h
  rcases h with rfl | rfl | rfl | rfl | rfl | rfl
  exacts [⟨.nop, rfl⟩, ⟨.encEos, rfl⟩, ⟨.decEos, rfl⟩, ⟨.hexFDec, rfl⟩, ⟨.hexTryFDec, rfl⟩, ⟨.srst, rfl⟩]

/-- Every FP opcode is a command's, with any options and any profile code (R104, R107). -/
theorem command_of_opcodeFP {n : Nat} (h : n ∈ opcodesFP) (o : Options) (p : ProfCode) :
    ∃ i, encode i = encodeFP (BitVec.ofNat 8 n) o p := by
  simp only [opcodesFP, List.mem_cons, List.not_mem_nil, or_false] at h
  rcases h with rfl | rfl | rfl | rfl | rfl | rfl | rfl | rfl | rfl | rfl | rfl | rfl
  exacts [⟨.ctxEnc o p, rfl⟩, ⟨.ctxDec o p, rfl⟩, ⟨.blkEnc o p, rfl⟩, ⟨.blkDec o p, rfl⟩, ⟨.blkTryDec o p, rfl⟩,
    ⟨.posEnc o p, rfl⟩, ⟨.posDec o p, rfl⟩, ⟨.posTryDec o p, rfl⟩, ⟨.capMaxChar o p, rfl⟩, ⟨.capMaxByte o p, rfl⟩,
    ⟨.txtPad o p, rfl⟩, ⟨.txtUnpad o p, rfl⟩]

/-- The legal words are the words of the commands: each bit outside the operand fields of the format is fixed. -/
theorem legalWord_iff {w : RegWord} : LegalWord w ↔ ∃ i, encode i = w := by
  refine ⟨?_, fun ⟨i, hi⟩ => hi ▸ legalWord_encode i⟩
  have hw := w.isLt
  rintro (⟨hopc, hz⟩ | ⟨hopc, hz⟩ | ⟨hopc, hz⟩ | ⟨hopc, hz⟩)
  · obtain ⟨i, hi⟩ := command_of_opcodeF0 hopc
    refine ⟨i, hi.trans (BitVec.eq_of_toNat_eq ?_)⟩
    rw [encodeF0_toNat, BitVec.toNat_ofNat]
    omega
  · refine ⟨.encPut (BitVec.ofNat 8 w.toNat), BitVec.eq_of_toNat_eq ?_⟩
    simp only [encode, encodeFB_toNat, BitVec.toNat_ofNat]
    omega
  · refine ⟨.decPut (BitVec.ofNat 16 w.toNat), BitVec.eq_of_toNat_eq ?_⟩
    simp only [encode, encodeFC_toNat, BitVec.toNat_ofNat]
    omega
  · obtain ⟨i, hi⟩ := command_of_opcodeFP hopc (optField w) (w.extractLsb' 0 4)
    refine ⟨i, hi.trans (BitVec.eq_of_toNat_eq ?_)⟩
    rw [encodeFP_toNat, BitVec.toNat_ofNat, optField, field_toNat, field_toNat]
    omega

/-- A word that is not legal does not decode (R108). -/
theorem decode_of_not_legal {w : RegWord} (h : ¬ LegalWord w) : ∃ e, decode w = .error e := by
  cases hd : decode w with
  | ok i => exact absurd (legalWord_iff.2 ⟨i, encode_of_decode hd⟩) h
  | error e => exact ⟨e, rfl⟩

end Sys2Proof
end

section
/-! SUPPORT. The FP commands as the command cycle around their profile and size checks (30_encoding.md R110 steps 3 and 4, 40_alphabet.md R143). -/

namespace Sys2Proof.Machine

/-- The command is the cycle around the checks of R110 steps 3 and 4, for the profiles it serves, and some body. -/
def ChecksProfile {α : Type} (i : Instr) (served : Except ConfigError α) (f : α → Profile) : Prop :=
  ∃ body : State → α → BodyResult, ∀ s, exec i s = .next (runCommand s fun s => withProfile served f s (body s))

/-- A profile the command does not serve is raised as the error that names it (R110 step 3). -/
theorem ChecksProfile.unserved {α : Type} {i : Instr} {served : Except ConfigError α} {f : α → Profile}
    (h : ChecksProfile i served f) {e : ConfigError} (he : served = .error e) (s : State) :
    exec i s = .next (raised s (configCode e)) := by
  obtain ⟨body, hexec⟩ := h
  rw [hexec, he]
  rfl

/-- A table of the wrong size raises C_ALPHABET_SIZE (R110 step 4, R143). -/
theorem ChecksProfile.wrongSize {α : Type} {i : Instr} {served : Except ConfigError α} {f : α → Profile}
    (h : ChecksProfile i served f) {a : α} (ha : served = .ok a) {s : State}
    (hs : (alphabetOf s.cfg (f a)).symbols.length ≠ radixOf (f a)) : exec i s = .next (raised s 0x11#8) := by
  obtain ⟨body, hexec⟩ := h
  have hsize : ¬ sizeOk (s.setAbsent false).cfg (f a) = true := fun hok => hs ((sizeOk_iff _ _).1 hok)
  rw [hexec, ha]
  simp only [runCommand, withProfile, if_neg hsize]
  rfl

/-! The FP commands by the profiles they serve. -/

def streamingCommands (o : Options) (p : ProfCode) : List Instr := [.ctxEnc o p, .ctxDec o p]

def blockCommands (o : Options) (p : ProfCode) : List Instr := [.blkEnc o p, .blkDec o p, .blkTryDec o p]

def positionalCommands (o : Options) (p : ProfCode) : List Instr := [.posEnc o p, .posDec o p, .posTryDec o p]

def anyProfileCommands (o : Options) (p : ProfCode) : List Instr :=
  [.capMaxChar o p, .capMaxByte o p, .txtPad o p, .txtUnpad o p]

theorem streamingCommands_check (o : Options) (p : ProfCode) :
    ∀ i ∈ streamingCommands o p, ChecksProfile i (servedStreaming p) .block := by
  simp only [streamingCommands, List.forall_mem_cons]
  exact ⟨⟨_, fun _ => rfl⟩, ⟨_, fun _ => rfl⟩, List.forall_mem_nil _⟩

theorem blockCommands_check (o : Options) (p : ProfCode) :
    ∀ i ∈ blockCommands o p, ChecksProfile i (servedBlock p) .block := by
  simp only [blockCommands, List.forall_mem_cons]
  exact ⟨⟨_, fun _ => rfl⟩, ⟨_, fun _ => rfl⟩, ⟨_, fun _ => rfl⟩, List.forall_mem_nil _⟩

theorem positionalCommands_check (o : Options) (p : ProfCode) :
    ∀ i ∈ positionalCommands o p, ChecksProfile i (servedPositional p) (fun _ => .p58) := by
  simp only [positionalCommands, List.forall_mem_cons]
  exact ⟨⟨_, fun _ => rfl⟩, ⟨_, fun _ => rfl⟩, ⟨_, fun _ => rfl⟩, List.forall_mem_nil _⟩

theorem anyProfileCommands_check (o : Options) (p : ProfCode) :
    ∀ i ∈ anyProfileCommands o p, ChecksProfile i (servedAny p) id := by
  simp only [anyProfileCommands, List.forall_mem_cons]
  exact ⟨⟨_, fun _ => rfl⟩, ⟨_, fun _ => rfl⟩, ⟨_, fun _ => rfl⟩, ⟨_, fun _ => rfl⟩, List.forall_mem_nil _⟩

/-! The codes each family refuses (R105, R110 step 3). -/

theorem profileOf_reserved {p : ProfCode} (h : 3 < p.toNat) : profileOf p = none := by
  unfold profileOf
  split
  case h_5 => rfl
  all_goals omega

/-- A code that names a profile is that profile's (R105). -/
theorem profileOf_eq_some {p : ProfCode} {q : Profile} (h : profileOf p = some q) : p = profileCode q := by
  unfold profileOf at h
  split at h
  case h_5 => cases h
  all_goals
    next hp =>
      cases h
      exact BitVec.eq_of_toNat_eq hp

theorem servedStreaming_reserved {p : ProfCode} (h : 3 < p.toNat) : servedStreaming p = .error .badProfile := by
  rw [servedStreaming, profileOf_reserved h]

theorem servedAny_reserved {p : ProfCode} (h : 3 < p.toNat) : servedAny p = .error .badProfile := by
  rw [servedAny, profileOf_reserved h]

theorem servedBlock_refused {p : ProfCode} (h : 3 ≤ p.toNat) : servedBlock p = .error .badProfile := by
  unfold servedBlock
  split
  next q hq =>
    obtain rfl := profileOf_eq_some hq
    cases q <;> exact absurd h (by decide)
  all_goals rfl

theorem servedPositional_refused {p : ProfCode} (h : p ≠ 3#4) : servedPositional p = .error .badProfile := by
  unfold servedPositional
  split
  case h_2 hq => exact absurd (profileOf_eq_some hq) h
  all_goals rfl

end Sys2Proof.Machine
end

section
/-! SUPPORT. The options as a parameter of the conversions (30_encoding.md R112): under options that agree on the flags they read the streams do the same and keep the options they have, and the whole-buffer conversions answer the same. -/

namespace Sys2Proof

theorem SameFlags.mono {fs gs : List Machine.Flag} {o o' : Options} (h : SameFlags gs o o') (hs : fs ⊆ gs) :
    SameFlags fs o o' := fun f hf => h f (hs hf)

end Sys2Proof

namespace Sys2Proof.Machine

/-- The same context under other latched options. -/
def Context.withOpts (t : Context) (o : Options) : Context := { t with opts := o }

/-- What an encoder body answers, under other latched options. -/
def encWithOpts (o : Options) : Except Err (Context × List CharUnit) → Except Err (Context × List CharUnit)
  | .ok (t, us) => .ok (t.withOpts o, us)
  | .error e => .error e

/-- What a decoder body answers, under other latched options. -/
def decWithOpts (o : Options) : DecodeStep → DecodeStep
  | .ok (t, bs) => .ok (t.withOpts o, bs)
  | .error (e, t) => .error (e, t.withOpts o)

/-! The encoder reads Unpad, Wrap and Indent. -/

theorem encPutBody_opts {cfg : Config} {t u : Context} {b : Byte} {us : List CharUnit}
    (h : encPutBody cfg t b = .ok (u, us)) : u.opts = t.opts := by
  simp only [encPutBody] at h
  split at h
  · split at h
    · cases h
    · cases h; rfl
  · cases h; rfl

theorem encPutBody_withOpts {cfg : Config} {t : Context} {o : Options} (h : SameFlags [.wrap, .indent] t.opts o)
    (b : Byte) : encPutBody cfg (t.withOpts o) b = encWithOpts o (encPutBody cfg t b) := by
  simp only [encPutBody, Context.withOpts, ← emitGroup_congr h]
  split
  · cases symbolsAt cfg (.block t.prof) (digits (blockRadix t.prof) (symbolsPerBlock t.prof) (t.acc * 256 + b.toNat)) <;>
      rfl
  · rfl

theorem encEosBody_withOpts {cfg : Config} {t : Context} {o : Options} (h : SameFlags [.unpad, .wrap, .indent] t.opts o) :
    encEosBody cfg (t.withOpts o) = encWithOpts o (encEosBody cfg t) := by
  have hgroup : SameFlags [.unpad] t.opts o := h.mono (by simp)
  have hemit : SameFlags [.wrap, .indent] t.opts o := h.mono (by simp)
  simp only [encEosBody, Context.withOpts, ← partialGroup_congr hgroup, ← emitGroup_congr hemit]
  split
  · rfl
  · split
    · cases partialGroup cfg t.prof t.opts t.mod t.acc <;> rfl
    · rfl

theorem encFeed_withOpts {cfg : Config} {t : Context} {o : Options} (h : SameFlags [.unpad, .wrap, .indent] t.opts o)
    (bs : List Byte) : encFeed cfg (t.withOpts o) bs = encWithOpts o (encFeed cfg t bs) ∧
      ∀ u us, encFeed cfg t bs = .ok (u, us) → u.opts = t.opts := by
  induction bs generalizing t with
  | nil => exact ⟨rfl, fun _ _ hu => by cases hu; rfl⟩
  | cons b bs ih =>
    have hemit : SameFlags [.wrap, .indent] t.opts o := h.mono (by simp)
    simp only [encFeed, encPutBody_withOpts hemit b]
    cases hput : encPutBody cfg t b with
    | error e => exact ⟨rfl, fun _ _ hu => by cases hu⟩
    | ok r =>
      obtain ⟨u, us⟩ := r
      have hopts := encPutBody_opts hput
      obtain ⟨hfeed, hkept⟩ := ih (t := u) (by rwa [hopts])
      simp only [encWithOpts, hfeed]
      cases hrest : encFeed cfg u bs with
      | error e => exact ⟨rfl, fun _ _ hu => by cases hu⟩
      | ok r => exact ⟨rfl, fun _ _ hu => by cases hu; exact (hkept _ _ hrest).trans hopts⟩

/-- BLK.ENC's conversion reads Unpad, Wrap and Indent. -/
theorem blockEncodeUnits_congr {cfg : Config} {p : BlockProfile} {o o' : Options} {us : List CharUnit}
    (h : SameFlags [.unpad, .wrap, .indent] o o') : blockEncodeUnits cfg p o us = blockEncodeUnits cfg p o' us := by
  have hencode : ∀ bs, blockEncode cfg p o bs = blockEncode cfg p o' bs := by
    intro bs
    have hfresh : freshContext .encoder p o' = (freshContext .encoder p o).withOpts o' := rfl
    obtain ⟨hfeed, hkept⟩ := encFeed_withOpts (cfg := cfg) (t := freshContext .encoder p o) h bs
    simp only [blockEncode, hfresh, hfeed]
    cases hf : encFeed cfg (freshContext .encoder p o) bs with
    | error e => rfl
    | ok r =>
      obtain ⟨u, us⟩ := r
      have hopts : u.opts = o := hkept u us hf
      simp only [encWithOpts, encEosBody_withOpts (t := u) (by rwa [hopts])]
      cases encEosBody cfg u <;> rfl
  simp only [blockEncodeUnits, hencode]

/-! The block decoder reads Relax, Pure, Wrap and Indent, and Padding but for P16. -/

/-- Options that a block decoder of profile `p` cannot tell apart (R112). -/
structure SameForDecoder (p : BlockProfile) (o o' : Options) : Prop where
  flags : SameFlags [.relax, .pure, .wrap, .indent] o o'
  padding : has o .padding = has o' .padding ∨ p = .p16

theorem SameForDecoder.relax {p : BlockProfile} {o o' : Options} (h : SameForDecoder p o o') :
    SameFlags [.relax] o o' := h.flags.mono (by simp)

theorem decPutBody_opts {cfg : Config} {t u : Context} {c : CharUnit} {bs : List Byte}
    (h : decPutBody cfg t c = .ok (u, bs)) : u.prof = t.prof ∧ u.opts = t.opts := by
  rcases decPutBody_cases cfg t c with h1 | ⟨_, _, _, h1⟩ | ⟨_, _, _, _, h1⟩ | ⟨_, _, _, _, h1⟩ |
    ⟨_, _, _, _, _, _, h1⟩ | ⟨_, _, h1, _⟩ <;> rw [h1] at h <;> cases h <;> exact ⟨rfl, rfl⟩

theorem decPadBody_withOpts {t : Context} {o : Options} (h : SameForDecoder t.prof t.opts o) :
    decPadBody (t.withOpts o) = decWithOpts o (decPadBody t) := by
  simp only [decPadBody, Context.withOpts, ← padReq_congr h.padding, ← partialFlush_congr h.relax]
  split
  · rfl
  · split
    · rfl
    · split
      · cases partialFlush t.prof t.opts t.mod t.acc <;> rfl
      · rfl

theorem decSymBody_withOpts {t : Context} {o : Options} (h : SameForDecoder t.prof t.opts o) (v : Nat) :
    decSymBody (t.withOpts o) v = decWithOpts o (decSymBody t v) := by
  simp only [decSymBody, Context.withOpts, ← fullBlock_congr h.relax]
  split
  · rfl
  · split
    · cases fullBlock t.prof t.opts (t.acc * blockRadix t.prof + v) <;> rfl
    · rfl

theorem decPutBody_withOpts {cfg : Config} {t : Context} {o : Options} (h : SameForDecoder t.prof t.opts o)
    (c : CharUnit) : decPutBody cfg (t.withOpts o) c = decWithOpts o (decPutBody cfg t c) := by
  have hclass : classOf cfg (.block (t.withOpts o).prof) (t.withOpts o).opts c = classOf cfg (.block t.prof) t.opts c :=
    (classOf_congr h.flags).symm
  rw [decPutBody, decPutBody, hclass]
  cases classOf cfg (.block t.prof) t.opts c with
  | pad => exact decPadBody_withOpts h
  | skip => rfl
  | invalid => rfl
  | sym v => exact decSymBody_withOpts h v

theorem decEosBody_withOpts {t : Context} {o : Options} (h : SameForDecoder t.prof t.opts o) :
    decEosBody (t.withOpts o) = decWithOpts o (decEosBody t) := by
  simp only [decEosBody, Context.withOpts, ← padReq_congr h.padding, ← partialFlush_congr h.relax]
  split
  · rfl
  · split
    · split
      · rfl
      · cases partialFlush t.prof t.opts t.mod t.acc <;> rfl
    · rfl

theorem decFeed_withOpts {cfg : Config} {t : Context} {o : Options} (h : SameForDecoder t.prof t.opts o)
    (cs : List CharUnit) : decFeed cfg (t.withOpts o) cs = decWithOpts o (decFeed cfg t cs) ∧
      ∀ u bs, decFeed cfg t cs = .ok (u, bs) → u.prof = t.prof ∧ u.opts = t.opts := by
  induction cs generalizing t with
  | nil => exact ⟨rfl, fun _ _ hu => by cases hu; exact ⟨rfl, rfl⟩⟩
  | cons c cs ih =>
    simp only [decFeed, decPutBody_withOpts h c]
    cases hput : decPutBody cfg t c with
    | error e => exact ⟨rfl, fun _ _ hu => by cases hu⟩
    | ok r =>
      obtain ⟨u, bs⟩ := r
      obtain ⟨hprof, hopts⟩ := decPutBody_opts hput
      obtain ⟨hfeed, hkept⟩ := ih (t := u) (by rwa [hprof, hopts])
      simp only [decWithOpts, hfeed]
      cases hrest : decFeed cfg u cs with
      | error e => exact ⟨rfl, fun _ _ hu => by cases hu⟩
      | ok r =>
        refine ⟨rfl, fun _ _ hu => ?_⟩
        cases hu
        obtain ⟨hprof', hopts'⟩ := hkept _ _ hrest
        exact ⟨hprof'.trans hprof, hopts'.trans hopts⟩

theorem generalDecode_congr {cfg : Config} {p : BlockProfile} {o o' : Options} {cs : List CharUnit}
    (h : SameForDecoder p o o') : generalDecode cfg p o cs = generalDecode cfg p o' cs := by
  have hfresh : freshContext .decoder p o' = (freshContext .decoder p o).withOpts o' := rfl
  obtain ⟨hfeed, hkept⟩ := decFeed_withOpts (cfg := cfg) (t := freshContext .decoder p o) h cs
  simp only [generalDecode, hfresh, hfeed]
  cases hf : decFeed cfg (freshContext .decoder p o) cs with
  | error e => rfl
  | ok r =>
    obtain ⟨u, bs⟩ := r
    obtain ⟨hprof, hopts⟩ : u.prof = p ∧ u.opts = o := hkept u bs hf
    simp only [decWithOpts, decEosBody_withOpts (t := u) (by rwa [hprof, hopts])]
    cases decEosBody u <;> rfl

theorem fastEligible_congr {cfg : Config} {p : BlockProfile} {o o' : Options}
    (h : SameFlags [.relax, .pure, .wrap, .indent] o o') : fastEligible cfg p o = fastEligible cfg p o' := by
  simp only [SameFlags, List.forall_mem_cons] at h
  obtain ⟨hrelax, hpure, hwrap, hindent, _⟩ := h
  simp only [fastEligible, hrelax, hpure, hwrap, hindent]

/-- BLK.DEC's conversion reads the decoder's flags, for the fast-path choice too (45_fastpath.md R300). -/
theorem blockDecodeUnits_congr {cfg : Config} {p : BlockProfile} {o o' : Options} {cs : List CharUnit}
    (h : SameForDecoder p o o') : blockDecodeUnits cfg p o cs = blockDecodeUnits cfg p o' cs := by
  simp only [blockDecodeUnits, fastEligible_congr h.flags, generalDecode_congr h]

/-! The positional codec reads Checksum, and to skip characters Relax, Pure, Wrap and Indent. -/

theorem positionalEncodeUnits_congr {cfg : Config} {o o' : Options} {us : List CharUnit}
    (h : has o .checksum = has o' .checksum) : positionalEncodeUnits cfg o us = positionalEncodeUnits cfg o' us := by
  simp only [positionalEncodeUnits, positionalEncode, checksummed, h]

theorem positionalDecodeUnits_congr {cfg : Config} {o o' : Options} {cs : List CharUnit}
    (h : SameFlags [.relax, .pure, .wrap, .indent] o o') (hc : has o .checksum = has o' .checksum) :
    positionalDecodeUnits cfg o cs = positionalDecodeUnits cfg o' cs := by
  simp only [positionalDecodeUnits, positionalDecode, positionalValues_congr h, hc]

/-! CAP.MAXCHAR reads Unpad, Wrap and Indent for a block profile, Checksum for P58. -/

theorem maxChar_block_congr {cfg : Config} {q : BlockProfile} {o o' : Options} {n : Nat}
    (h : SameFlags [.unpad, .wrap, .indent] o o') : maxChar cfg (.block q) o n = maxChar cfg (.block q) o' n := by
  simp only [SameFlags, List.forall_mem_cons] at h
  obtain ⟨hunpad, hwrap, hindent, _⟩ := h
  have hchars : blockChars q o n = blockChars q o' n := by rw [blockChars, blockChars, hunpad]
  have hwrapEff : wrapEff q o = wrapEff q o' := by rw [wrapEff, wrapEff, hwrap, hindent]
  have hsepEff : sepEff q o = sepEff q o' := by rw [sepEff, sepEff, hindent]
  simp only [maxChar, hchars, hwrapEff, hsepEff]

theorem maxChar_p58_congr {cfg : Config} {o o' : Options} {n : Nat} (h : has o .checksum = has o' .checksum) :
    maxChar cfg .p58 o n = maxChar cfg .p58 o' n := by
  simp only [maxChar, h]

end Sys2Proof.Machine
end

section
/-! SUPPORT. The command cycle under other options (30_encoding.md R112): the operand OPT of the FP commands, and the options latched in the context. -/

namespace Sys2Proof.Machine

/-- Bodies that agree on the profiles served make the same command. -/
theorem runCommand_withProfile_congr {α : Type} {served : Except ConfigError α} {f : α → Profile}
    {body body' : State → α → BodyResult} (h : ∀ s a, served = .ok a → body s a = body' s a) (s : State) :
    runCommand s (fun s => withProfile served f s (body s)) = runCommand s (fun s => withProfile served f s (body' s)) := by
  cases served with
  | error e => rfl
  | ok a => simp only [runCommand, withProfile, h _ a rfl]

theorem servedAny_ok {p : ProfCode} {q : Profile} (h : servedAny p = .ok q) : p = profileCode q := by
  unfold servedAny at h
  split at h
  next hq => cases h; exact profileOf_eq_some hq
  next => cases h

/-- What CTX.ENC and CTX.DEC make (41_block_encoder.md R160, 42_block_decoder.md R200). -/
def createStream (d : Direction) (o : Options) (p : ProfCode) (s : State) : State :=
  runCommand s fun s => withProfile (servedStreaming p) .block s fun q => .success (s.setCtx (freshContext d q o))

theorem exec_ctxEnc (o : Options) (p : ProfCode) (s : State) :
    exec (.ctxEnc o p) s = .next (createStream .encoder o p s) := rfl

theorem exec_ctxDec (o : Options) (p : ProfCode) (s : State) :
    exec (.ctxDec o p) s = .next (createStream .decoder o p s) := rfl

/-- Streams made under two options values differ in the options latched alone. -/
theorem createStream_opts (d : Direction) (o o' : Options) (p : ProfCode) (s : State) :
    createStream d o' p s = { createStream d o p s with
      ctx := (createStream d o p s).ctx.withOpts (createStream d o' p s).ctx.opts } := by
  unfold createStream
  cases servedStreaming p with
  | error e => rfl
  | ok q =>
    simp only [runCommand, withProfile]
    split <;> rfl

/-- The same machine with other options latched in its context. -/
def State.withOpts (s : State) (o : Options) : State := s.setCtx (s.ctx.withOpts o)

/-- The same answer of a body with other options latched. -/
def BodyResult.withOpts (r : BodyResult) (o : Options) : BodyResult :=
  match r with
  | .success s => .success (s.withOpts o)
  | .absence s => .absence (s.withOpts o)
  | .raise e s => .raise e (s.withOpts o)

theorem finish_withOpts (r : BodyResult) (o : Options) : finish (r.withOpts o) = (finish r).withOpts o := by
  cases r <;> rfl

/-- A body that answers the same on the other options makes a command that does. -/
theorem runCommand_withOpts {body : State → BodyResult} {s : State} {o : Options}
    (h : body ((s.setAbsent false).withOpts o) = (body (s.setAbsent false)).withOpts o) :
    runCommand (s.withOpts o) body = (runCommand s body).withOpts o :=
  (congrArg finish h).trans (finish_withOpts _ o)

/-- The checks of a PUT or EOS do not read the options. -/
theorem withContext_withOpts {d : Direction} {body : State → BodyResult} {s : State} {o : Options}
    (h : body (s.withOpts o) = (body s).withOpts o) :
    withContext d (s.withOpts o) body = (withContext d s body).withOpts o := by
  have hvalid : (s.withOpts o).ctx.valid = s.ctx.valid := rfl
  have hdir : (s.withOpts o).ctx.dir = s.ctx.dir := rfl
  have hfault : (s.withOpts o).ctx.fault = s.ctx.fault := rfl
  have heosf : (s.withOpts o).ctx.eosf = s.ctx.eosf := rfl
  simp only [withContext, hvalid, hdir, hfault, heosf, h]
  split
  · rfl
  · split
    · rfl
    · split
      · rfl
      · split <;> rfl

theorem encStream_withOpts (s : State) (o : Options) (r : Except Err (Context × List CharUnit)) :
    encStream (s.withOpts o) (encWithOpts o r) = (encStream s r).withOpts o := by
  rcases r with e | ⟨t, us⟩ <;> rfl

theorem decStream_withOpts (s : State) (o : Options) (r : DecodeStep) :
    decStream (s.withOpts o) (decWithOpts o r) = (decStream s r).withOpts o := by
  rcases r with ⟨e | e | e, t⟩ | ⟨t, bs⟩ <;> rfl

theorem runEncoder_withOpts {body : State → Except Err (Context × List CharUnit)} {s : State} {o : Options}
    (h : body ((s.setAbsent false).withOpts o) = encWithOpts o (body (s.setAbsent false))) :
    runCommand (s.withOpts o) (fun s => withContext .encoder s fun s => encStream s (body s)) =
      (runCommand s fun s => withContext .encoder s fun s => encStream s (body s)).withOpts o :=
  runCommand_withOpts (withContext_withOpts (by rw [h, encStream_withOpts]))

theorem runDecoder_withOpts {body : State → DecodeStep} {s : State} {o : Options}
    (h : body ((s.setAbsent false).withOpts o) = decWithOpts o (body (s.setAbsent false))) :
    runCommand (s.withOpts o) (fun s => withContext .decoder s fun s => decStream s (body s)) =
      (runCommand s fun s => withContext .decoder s fun s => decStream s (body s)).withOpts o :=
  runCommand_withOpts (withContext_withOpts (by rw [h, decStream_withOpts]))

/-- An encoder command does the same under latched options that agree on the encoder's flags. -/
theorem exec_encoder_withOpts {i : Instr} {s t : State} {o : Options} (hi : (∃ b, i = .encPut b) ∨ i = .encEos)
    (h : SameFlags [.unpad, .wrap, .indent] s.ctx.opts o) (ht : exec i s = .next t) :
    exec i (s.withOpts o) = .next (t.withOpts o) := by
  have hemit : SameFlags [.wrap, .indent] s.ctx.opts o := h.mono (by simp)
  rcases hi with ⟨b, rfl⟩ | rfl
  · cases ht
    exact congrArg Host.Outcome.next (runEncoder_withOpts (encPutBody_withOpts (t := s.ctx) hemit b))
  · cases ht
    exact congrArg Host.Outcome.next (runEncoder_withOpts (encEosBody_withOpts (t := s.ctx) h))

/-- A decoder command does the same under latched options that agree on the decoder's flags. -/
theorem exec_decoder_withOpts {i : Instr} {s t : State} {o : Options} (hi : (∃ c, i = .decPut c) ∨ i = .decEos)
    (h : SameForDecoder s.ctx.prof s.ctx.opts o) (ht : exec i s = .next t) :
    exec i (s.withOpts o) = .next (t.withOpts o) := by
  rcases hi with ⟨c, rfl⟩ | rfl
  · cases ht
    exact congrArg Host.Outcome.next (runDecoder_withOpts (decPutBody_withOpts (t := s.ctx) h c))
  · cases ht
    exact congrArg Host.Outcome.next (runDecoder_withOpts (decEosBody_withOpts (t := s.ctx) h))

end Sys2Proof.Machine
end

section
/-! CERTIFICATES. The statements about the encoding of commands and their first checks, settled. -/

namespace Sys2Proof.Proofs

open Sys2Proof.Machine

/-- Settles O1: the opcode picks the row of the map, the row's format gives the operands back. -/
theorem decodeEncodeRoundTrip : Obligations.DecodeEncodeRoundTrip := decode_encode

/-- Settles O2: the fields that a format does not read as operands are zero, so no other word has the command. -/
theorem encodeInvertsDecode : Obligations.EncodeInvertsDecode := fun _ _ h => encode_of_decode h

/-- Settles O3: the legal words are the words of the commands. -/
theorem illegalWordsRejected : Obligations.IllegalWordsRejected := by
  intro w s
  constructor
  · intro hl
    obtain ⟨i, rfl⟩ := legalWord_iff.1 hl
    exact ⟨i, decode_encode i⟩
  · intro hl
    obtain ⟨e, he⟩ := decode_of_not_legal hl
    exact issue_error he s

/-- Settles O4: each word but the two refused ones is the encoding of its command. -/
theorem decodesSpecWords : Obligations.DecodesSpecWords :=
  ⟨decode_encode .nop, decode_encode (.ctxEnc 0x22#8 2#4), decode_encode (.ctxDec 0x0C#8 2#4),
    decode_encode (.encPut 0x4D#8), decode_encode (.decPut 0xFFFF#16), decode_encode (.blkDec 0x05#8 1#4),
    decode_encode .hexTryFDec, decode_encode (.posTryDec 0x48#8 3#4), decode_encode (.capMaxChar 0x30#8 1#4),
    decode_encode (.txtUnpad 0#8 2#4), decode_encode .srst, rfl, rfl⟩

/-- Settles O17, family by family: the checks stop at a code the family refuses, then at a table of the wrong size. -/
theorem profileChecks : Obligations.ProfileChecks := by
  intro s o p
  have hstream := streamingCommands_check o p
  have hblock := blockCommands_check o p
  have hpos := positionalCommands_check o p
  have hany := anyProfileCommands_check o p
  refine ⟨fun i hi => ⟨?_, fun hp => (hstream i hi).unserved (servedStreaming_reserved hp) s⟩,
    fun i hi hp => (hblock i hi).unserved (servedBlock_refused hp) s,
    fun i hi hp => (hpos i hi).unserved (servedPositional_refused hp) s,
    fun i hi hp => (hany i hi).unserved (servedAny_reserved hp) s, ?_, ?_⟩
  · rintro rfl
    exact (hstream i hi).unserved rfl s
  · rintro q rfl hs
    show ∀ i ∈ streamingCommands o _ ++ (blockCommands o _ ++ anyProfileCommands o _), _
    simp only [List.forall_mem_append]
    exact ⟨fun i hi => (hstream i hi).wrongSize (servedStreaming_blockCode q) hs,
      fun i hi => (hblock i hi).wrongSize (servedBlock_blockCode q) hs,
      fun i hi => (hany i hi).wrongSize (servedAny_blockCode q) hs⟩
  · rintro rfl hs
    show ∀ i ∈ positionalCommands o _ ++ anyProfileCommands o _, _
    simp only [List.forall_mem_append]
    exact ⟨fun i hi => (hpos i hi).wrongSize servedPositional_three hs,
      fun i hi => (hany i hi).wrongSize servedAny_three hs⟩

/-- Settles O60, row by row of R112's table: the conversions answer the same under options that agree on the flags they
read, and a stream carries its options along. -/
theorem unreadFlagsHaveNoEffect : Obligations.UnreadFlagsHaveNoEffect := by
  intro s o o' p
  refine ⟨?ctx, fun h => ⟨?enc, ?blkEnc, ?maxCharBlock⟩, fun h => ⟨?dec, ?blkDec, ?posDec⟩,
    fun h => ⟨?posEnc, ?maxChar58⟩, rfl, rfl, rfl⟩
  case ctx =>
    rintro i j (⟨rfl, rfl⟩ | ⟨rfl, rfl⟩)
    · exact ⟨_, _, exec_ctxEnc o p s, exec_ctxEnc o' p s, createStream_opts .encoder o o' p s⟩
    · exact ⟨_, _, exec_ctxDec o p s, exec_ctxDec o' p s, createStream_opts .decoder o o' p s⟩
  case enc => exact fun i t hi ht => exec_encoder_withOpts (s := s.withOpts o) hi h ht
  case blkEnc => simp only [exec, execBlkEnc, blockEncodeUnits_congr h]
  case maxCharBlock =>
    intro hp
    refine congrArg Host.Outcome.next (runCommand_withProfile_congr (fun u q hq => ?_) s)
    cases q with
    | block q => simp only [maxChar_block_congr h]
    | p58 => exact absurd (servedAny_ok hq) hp
  case dec => exact fun i t hpad hi ht => exec_decoder_withOpts (s := s.withOpts o) hi ⟨h, hpad⟩ ht
  case blkDec =>
    intro hpad
    have hdecode : ∀ (u : State) (q : BlockProfile), servedBlock p = .ok q →
        blockDecodeUnits u.cfg q o u.inp = blockDecodeUnits u.cfg q o' u.inp := by
      intro u q hq
      refine blockDecodeUnits_congr ⟨h, hpad.imp id ?_⟩
      rintro rfl
      cases hq
      rfl
    exact ⟨congrArg Host.Outcome.next (runCommand_withProfile_congr (fun u q hq => congrArg (commit u) (hdecode u q hq)) s),
      congrArg Host.Outcome.next (runCommand_withProfile_congr (fun u q hq => congrArg (commitTry u) (hdecode u q hq)) s)⟩
  case posDec =>
    intro hc
    constructor
    · simp only [exec, execPosDec, positionalDecodeUnits_congr h hc]
    · simp only [exec, execPosTryDec, positionalDecodeUnits_congr h hc]
  case posEnc => simp only [exec, execPosEnc, positionalEncodeUnits_congr (h .checksum (by simp))]
  case maxChar58 =>
    rintro rfl
    refine congrArg Host.Outcome.next (runCommand_withProfile_congr (fun u q hq => ?_) s)
    cases hq
    simp only [maxChar_p58_congr (h .checksum (by simp))]

end Sys2Proof.Proofs
end

section
/-! SUPPORT. A configuration outside the contract of R142 has no step, and what the contract says of the padding character. -/

namespace Sys2Proof.Machine

/-- An ill-formed configuration has no step, whatever the host does next (40_alphabet.md R142). -/
theorem step_refused {s : State} (h : ¬ configOk s.cfg = true) : step s = .refused .illFormedConfig := if_neg h

/-- The padding character has no entry in its table, not even one that lookup answers no value for (R142 item 3). -/
theorem tableEntry_pad {cfg : Config} {p : Profile} {c : CharUnit} (h : configOk cfg = true)
    (hc : padOf cfg p = some c) : tableEntry cfg p c = none := by
  have hpad := (((configOk_iff cfg).1 h).1 p (mem_allProfiles p)).2
  simpa [padNoSymbol, hc] using hpad

end Sys2Proof.Machine
end

section
/-! SUPPORT. DEC.PUT on an open decoder: what its body answers is what the command reports (42_block_decoder.md R203), and the body class by class of the character (40_alphabet.md R145). -/

namespace Sys2Proof.Machine

/-- On an open decoder the checks before the body pass (60_exceptions.md R344 item 2). -/
theorem exec_decPut_open {s : State} (ho : Open .decoder s) (c : CharUnit) :
    exec (.decPut c) s = .next (finish (decStream (s.setAbsent false) (decPutBody s.cfg s.ctx c))) :=
  congrArg (Host.Outcome.next ∘ finish) (withContext_open (open_setAbsent ho false))

/-- A body that succeeds leaves its context and appends its bytes to OUT (20_memory.md R72). -/
theorem exec_decPut_ok {s : State} {c : CharUnit} {t : Context} {bs : List Byte} (ho : Open .decoder s)
    (h : decPutBody s.cfg s.ctx c = .ok (t, bs)) :
    exec (.decPut c) s = .next { appended s (bytesToUnits bs) with ctx := t } := by
  rw [exec_decPut_open ho, h]
  rfl

/-- A body that leaves the context and emits nothing leaves only the report. -/
theorem exec_decPut_unchanged {s : State} {c : CharUnit} (ho : Open .decoder s)
    (h : decPutBody s.cfg s.ctx c = .ok (s.ctx, [])) : exec (.decPut c) s = .next (quiet s) := by
  rw [exec_decPut_ok ho h]
  simp [appended, bytesToUnits, quiet, raised]

/-- A body that fails with a format error leaves its context with the error stored and raises it (20_memory.md R73). -/
theorem exec_decPut_fails {s : State} {c : CharUnit} {e : FormatError} {t : Context} (ho : Open .decoder s)
    (h : decPutBody s.cfg s.ctx c = .error (.format e, t)) :
    exec (.decPut c) s = .next { raised s (formatCode e) with ctx := { t with fault := some e } } := by
  rw [exec_decPut_open ho, h]
  rfl

theorem padReq_false {p : BlockProfile} {o : Options} (h : has o .padding = false) : padReq p o = false := by
  simp [padReq, h]

theorem decPutBody_pad {cfg : Config} {t : Context} {c : CharUnit} (h : padOf cfg (.block t.prof) = some c) :
    decPutBody cfg t c = decPadBody t := by
  simp only [decPutBody, classOf_pad h]

/-- A padding character that is not asked for changes nothing (R209). -/
theorem decPadBody_unasked {t : Context} (h : has t.opts .padding = false) : decPadBody t = .ok (t, []) := by
  simp only [decPadBody, padReq_false h, Bool.not_false, if_true]

theorem decPutBody_skip {cfg : Config} {t : Context} {c : CharUnit} (hp : padOf cfg (.block t.prof) ≠ some c)
    (hi : indexOf cfg (.block t.prof) c = none) (hs : Skipped cfg t.opts c) : decPutBody cfg t c = .ok (t, []) := by
  simp only [decPutBody, classOf_skip hp hi hs]

theorem decPutBody_invalid {cfg : Config} {t : Context} {c : CharUnit} (hp : padOf cfg (.block t.prof) ≠ some c)
    (hi : indexOf cfg (.block t.prof) c = none) (hs : ¬ Skipped cfg t.opts c) :
    decPutBody cfg t c = .error (.format .invalidChar, t) := by
  simp only [decPutBody, classOf_invalid hp hi hs]

end Sys2Proof.Machine
end

section
/-! CERTIFICATES. The statements about the alphabets and the classes of characters, settled. -/

namespace Sys2Proof.Proofs

open Sys2Proof.Machine

/-- Settles O11: a configuration with a step has a lookup that inverts its table and padding without an entry, and an
entry the padding character equals would be one. -/
theorem illFormedAlphabetRefused : Obligations.IllFormedAlphabetRefused := by
  intro s p c
  refine ⟨fun v hsym hlookup => step_refused fun hok => hlookup (indexOf_symbolAt hok hsym),
    fun hpad hlookup => step_refused fun hok => hlookup (indexOf_pad hok hpad),
    fun x hpad hsame hentry => step_refused fun hok => ?_⟩
  obtain ⟨hsymbols, hsynonyms⟩ := tableEntry_eq_none_iff.1 (tableEntry_pad hok hpad)
  rcases hentry with hx | ⟨v, hx⟩
  · exact Bool.false_ne_true ((hsymbols x hx).symm.trans hsame)
  · exact Bool.false_ne_true ((hsynonyms (x, v) hx).symm.trans hsame)

/-- Settles O33, class by class of the character: the body leaves the context or fails before it writes. -/
theorem decPutOtherCharacters : Obligations.DecPutOtherCharacters := by
  intro s c ho
  refine ⟨fun hpad hunasked => ?pad, fun hpad hlookup => ⟨fun hskip => ?skip, fun hskip => ?invalid⟩⟩
  case pad => exact exec_decPut_unchanged ho ((decPutBody_pad hpad).trans (decPadBody_unasked hunasked))
  case skip => exact exec_decPut_unchanged ho (decPutBody_skip hpad hlookup hskip)
  case invalid => exact exec_decPut_fails ho (decPutBody_invalid hpad hlookup hskip)

end Sys2Proof.Proofs
end

section
/-! SUPPORT. Which commands neither read nor write the streaming context (41_block_encoder.md R170, 42_block_decoder.md R212, 43_positional.md R250): the command cycle carries any other context along. -/

namespace Sys2Proof.Machine

/-- The same answer of a body with another context. -/
def BodyResult.setCtx (r : BodyResult) (k : Context) : BodyResult :=
  match r with
  | .success s => .success (s.setCtx k)
  | .absence s => .absence (s.setCtx k)
  | .raise e s => .raise e (s.setCtx k)

/-- The body gives the same answer with any other context, and leaves that context alone. -/
def ContextBlind (body : State → BodyResult) : Prop :=
  ∀ (s : State) (k : Context), body (s.setCtx k) = (body s).setCtx k

theorem finish_setCtx (r : BodyResult) (k : Context) : finish (r.setCtx k) = (finish r).setCtx k := by
  cases r <;> rfl

theorem runCommand_setCtx {body : State → BodyResult} (h : ContextBlind body) (s : State) (k : Context) :
    runCommand (s.setCtx k) body = (runCommand s body).setCtx k :=
  (congrArg finish (h (s.setAbsent false) k)).trans (finish_setCtx _ k)

/-- The checks of an FP command read the profile code and the table's size. -/
theorem withProfile_contextBlind {α : Type} {served : Except ConfigError α} {f : α → Profile}
    {body : α → State → BodyResult} (h : ∀ a, ContextBlind (body a)) :
    ContextBlind (fun s => withProfile served f s (fun a => body a s)) := by
  intro s k
  cases served with
  | error e => rfl
  | ok a =>
    simp only [withProfile, State.setCtx_cfg, h a s k]
    split <;> rfl

/-- The end of a whole-buffer command leaves the context, whatever was converted. -/
theorem commit_setCtx (s : State) (k : Context) (r : Except Err (List CharUnit)) :
    commit (s.setCtx k) r = (commit s r).setCtx k := by
  cases r <;> rfl

theorem commitTry_setCtx (s : State) (k : Context) (r : Except Err (List CharUnit)) :
    commitTry (s.setCtx k) r = (commitTry s r).setCtx k := by
  rcases r with (e | e | e) | us <;> rfl

/-- Every command that is not a context command is the command cycle around a body that reads the configuration, IN
and ARG alone. -/
theorem exec_body_contextBlind {i : Instr} (h : usesContext i = false) :
    ∃ body, (∀ s, exec i s = .next (runCommand s body)) ∧ ContextBlind body := by
  cases i with
  | ctxEnc | ctxDec | encPut | encEos | decPut | decEos | srst => cases h
  | nop => exact ⟨_, fun _ => rfl, fun _ _ => rfl⟩
  | capMaxChar o p | capMaxByte o p => exact ⟨_, fun _ => rfl, withProfile_contextBlind fun _ _ _ => rfl⟩
  | hexFDec => exact ⟨_, fun _ => rfl, fun s k => commit_setCtx s k _⟩
  | hexTryFDec => exact ⟨_, fun _ => rfl, fun s k => commitTry_setCtx s k _⟩
  | blkEnc o p | blkDec o p | posEnc o p | posDec o p | txtPad o p | txtUnpad o p =>
    exact ⟨_, fun _ => rfl, withProfile_contextBlind fun _ s k => commit_setCtx s k _⟩
  | blkTryDec o p | posTryDec o p =>
    exact ⟨_, fun _ => rfl, withProfile_contextBlind fun _ s k => commitTry_setCtx s k _⟩

/-- Such a command does the same with any other context and leaves it alone. -/
theorem exec_setCtx {i : Instr} {s t : State} (hi : usesContext i = false) (h : exec i s = .next t) (k : Context) :
    exec i (s.setCtx k) = .next (t.setCtx k) := by
  obtain ⟨body, hexec, hblind⟩ := exec_body_contextBlind hi
  obtain rfl : runCommand s body = t := by rw [hexec] at h; cases h; rfl
  rw [hexec, runCommand_setCtx hblind]

end Sys2Proof.Machine
end

section
/-! SUPPORT. ENC.PUT and ENC.EOS on an open encoder: what the body answers is what the command reports (41_block_encoder.md R162, R165), and the table of R161 as `nsym` computes it. -/

namespace Sys2Proof.Machine

/-- On an open encoder a body that succeeds leaves its context and appends its units to OUT (20_memory.md R72). -/
theorem runEncoder_ok {s : State} {body : State → Except Err (Context × List CharUnit)} {t : Context}
    {us : List CharUnit} (ho : Open .encoder s) (h : body (s.setAbsent false) = .ok (t, us)) :
    runCommand s (fun s => withContext .encoder s (fun s => encStream s (body s))) = { appended s us with ctx := t } := by
  rw [runCommand, withContext_open (open_setAbsent ho false), h]
  rfl

theorem exec_encPut_ok {s : State} {b : Byte} {t : Context} {us : List CharUnit} (ho : Open .encoder s)
    (h : encPutBody s.cfg s.ctx b = .ok (t, us)) : exec (.encPut b) s = .next { appended s us with ctx := t } :=
  congrArg Host.Outcome.next (runEncoder_ok (body := fun s => encPutBody s.cfg s.ctx b) ho h)

theorem exec_encEos_ok {s : State} {t : Context} {us : List CharUnit} (ho : Open .encoder s)
    (h : encEosBody s.cfg s.ctx = .ok (t, us)) : exec .encEos s = .next { appended s us with ctx := t } :=
  congrArg Host.Outcome.next (runEncoder_ok (body := fun s => encEosBody s.cfg s.ctx) ho h)

/-- Appending nothing leaves only the report. -/
theorem appended_nil (s : State) : appended s [] = quiet s := by
  simp [appended, quiet, raised]

/-- Every row of R161's table is a partial block of its profile, `nsym` computes its count, and the count is that of
R171, no more than a block's. -/
theorem partialSymbols_spec {q : BlockProfile} {r n : Nat} (h : (q, r, n) ∈ partialSymbols) :
    0 < r ∧ r < bytesPerBlock q ∧ nsym q r = n ∧ n ≤ symbolsPerBlock q ∧
      n = ceilDiv (r * symbolsPerBlock q) (bytesPerBlock q) := by
  have hall : ∀ e ∈ partialSymbols, 0 < e.2.1 ∧ e.2.1 < bytesPerBlock e.1 ∧ nsym e.1 e.2.1 = e.2.2 ∧
      e.2.2 ≤ symbolsPerBlock e.1 ∧ e.2.2 = ceilDiv (e.2.1 * symbolsPerBlock e.1) (bytesPerBlock e.1) := by decide
  exact hall _ h

/-- R161's table has a row for every partial block. -/
theorem partialSymbols_complete {q : BlockProfile} {r : Nat} (h0 : 0 < r) (hr : r < bytesPerBlock q) :
    (q, r, nsym q r) ∈ partialSymbols := by
  have hall : ∀ r < bytesPerBlock q, 0 < r → (q, r, nsym q r) ∈ partialSymbols := by cases q <;> decide
  exact hall r hr h0

/-- A profile with partial blocks has a padding character (00_scope.md R7). -/
theorem padOf_of_partial {q : BlockProfile} {r n : Nat} (h : (q, r, n) ∈ partialSymbols) (cfg : Config) :
    ∃ c, padOf cfg (.block q) = some c := by
  cases q with
  | p16 => simp [partialSymbols] at h
  | p64 | p24 => exact ⟨_, rfl⟩

/-- What a partial block spells: under P64 its bytes at the top of the 6-bit groups, under P24 their integer (R166). -/
theorem partialDigitsValue_of_row {q : BlockProfile} {r n : Nat} (h : (q, r, n) ∈ partialSymbols) (acc : Nat) :
    partialDigitsValue q n r acc = if q = .p64 then acc * 2 ^ (6 * n - 8 * r) else acc := by
  cases q with
  | p16 => simp [partialSymbols] at h
  | p64 | p24 => rfl

end Sys2Proof.Machine
end

section
/-! SUPPORT. The base-R digits of a number one by one, and for a radix 2^k the k-bit fields of a word (00_scope.md R10, 41_block_encoder.md R163). -/

namespace Sys2Proof.Machine

/-- The digit of weight R^i is the quotient by R^i modulo R. -/
theorem digits_eq_map (r n v : Nat) : digits r n v = (List.range n).reverse.map (fun i => v / r ^ i % r) := by
  induction n generalizing v with
  | zero => rfl
  | succ n ih =>
    have hshift : ∀ i, v / r / r ^ i % r = v / r ^ (i + 1) % r := by
      intro i
      rw [Nat.div_div_eq_div_mul, pow_succ']
    rw [digits_succ, ih, List.range_succ_eq_map]
    simp [hshift, Function.comp_def]

theorem digits_two_pow (k n : Nat) {w : Nat} (a : BitVec w) :
    digits (2 ^ k) n a.toNat = (List.range n).reverse.map (fun i => (a.extractLsb' (k * i) k).toNat) := by
  simp only [digits_eq_map, BitVec.extractLsb'_toNat, Nat.shiftRight_eq_div_pow, pow_mul]

end Sys2Proof.Machine
end

section
/-! SUPPORT. The streaming commands of ENCODE.S run the same bodies as BLK.ENC (41_block_encoder.md R170): the state they pass along, command by command. -/

namespace Sys2Proof.Machine

theorem encPutBody_sameStream {cfg : Config} {t u : Context} {b : Byte} {us : List CharUnit}
    (h : encPutBody cfg t b = .ok (u, us)) : SameStream t u := by
  simp only [encPutBody] at h
  split at h
  · split at h
    · cases h
    · cases h; exact ⟨rfl, rfl, rfl, rfl, rfl, rfl⟩
  · cases h; exact ⟨rfl, rfl, rfl, rfl, rfl, rfl⟩

/-- Feeding a sequence is feeding its first byte, then the others. -/
theorem encFeed_cons_ok {cfg : Config} {t u : Context} {b : Byte} {bs : List Byte} {vs : List CharUnit}
    (h : encFeed cfg t (b :: bs) = .ok (u, vs)) :
    ∃ t1 us us', encPutBody cfg t b = .ok (t1, us) ∧ encFeed cfg t1 bs = .ok (u, us') ∧ vs = us ++ us' := by
  simp only [encFeed] at h
  split at h
  · cases h
  next t1 us hput =>
    split at h
    · cases h
    next t2 us' hfeed =>
      cases h
      exact ⟨t1, us, us', hput, hfeed, rfl⟩

/-- An encoding that succeeds is what the bytes emit, then what the end of stream emits. -/
theorem blockEncode_ok {cfg : Config} {p : BlockProfile} {o : Options} {bs : List Byte} {txt : List CharUnit}
    (h : blockEncode cfg p o bs = .ok txt) :
    ∃ t us u vs, encFeed cfg (freshContext .encoder p o) bs = .ok (t, us) ∧ encEosBody cfg t = .ok (u, vs) ∧
      txt = us ++ vs := by
  simp only [blockEncode] at h
  split at h
  · cases h
  next t us hfeed =>
    split at h
    · cases h
    next u vs heos =>
      cases h
      exact ⟨t, us, u, vs, hfeed, heos, rfl⟩

/-- The machine after stream commands that succeeded on `s`: the context they left, the units they appended. -/
def streamed (s : State) (t : Context) (us : List CharUnit) : State := { appended s us with ctx := t }

theorem streamed_streamed (s : State) (t u : Context) (us vs : List CharUnit) :
    streamed (streamed s t us) u vs = streamed s u (us ++ vs) := by
  simp [streamed, appended, quiet, raised]

theorem open_streamed {s : State} {t u : Context} {d : Direction} {us vs : List CharUnit}
    (ho : Open d (streamed s t us)) (h : SameStream t u) : Open d (streamed s u vs) :=
  ⟨h.valid.trans ho.valid, h.dir.trans ho.dir, h.fault.trans ho.fault, h.eosf.trans ho.eosf⟩

theorem runCommands_cons {i : Instr} {is : List Instr} {s t : State} (h : exec i s = .next t) :
    runCommands (i :: is) s = runCommands is t := by
  simp only [runCommands, h]

/-- One ENC.PUT per byte appends what feeding the bytes emits. -/
theorem runCommands_encPuts {s : State} {t u : Context} {us vs : List CharUnit} {bs : List Byte} (rest : List Instr)
    (ho : Open .encoder (streamed s t us)) (h : encFeed s.cfg t bs = .ok (u, vs)) :
    runCommands (bs.map .encPut ++ rest) (streamed s t us) = runCommands rest (streamed s u (us ++ vs)) ∧
      Open .encoder (streamed s u (us ++ vs)) := by
  induction bs generalizing t us vs with
  | nil =>
    cases h
    rw [List.append_nil]
    exact ⟨rfl, ho⟩
  | cons b bs ih =>
    obtain ⟨t1, us1, us2, hput, hfeed, rfl⟩ := encFeed_cons_ok h
    have hexec : exec (.encPut b) (streamed s t us) = .next (streamed s t1 (us ++ us1)) :=
      (exec_encPut_ok ho hput).trans (congrArg Host.Outcome.next (streamed_streamed s t t1 us us1))
    have ho1 : Open .encoder (streamed s t1 (us ++ us1)) := open_streamed ho (encPutBody_sameStream hput)
    rw [← List.append_assoc, List.map_cons, List.cons_append, runCommands_cons hexec]
    exact ih ho1 hfeed

/-- ENCODE.S appends what the encoding of its bytes gives. -/
theorem runCommands_encodeStream {s : State} {o : Options} {q : BlockProfile} {bs : List Byte} {txt : List CharUnit}
    (hs : sizeOk s.cfg (.block q) = true) (h : blockEncode s.cfg q o bs = .ok txt) :
    ∃ u, runCommands (encodeStream o q bs) s = some (streamed s u txt) := by
  obtain ⟨t, us, u, vs, hfeed, heos, rfl⟩ := blockEncode_ok h
  have hnew : exec (.ctxEnc o (blockCode q)) s = .next (streamed s (freshContext .encoder q o) []) := by
    rw [streamed, appended_nil]
    exact congrArg Host.Outcome.next (runCommand_create .encoder o hs)
  have ho : Open .encoder (streamed s (freshContext .encoder q o) []) := ⟨rfl, rfl, rfl, rfl⟩
  obtain ⟨hputs, ho'⟩ := runCommands_encPuts [.encEos] ho hfeed
  have hend : exec .encEos (streamed s t us) = .next (streamed s u (us ++ vs)) :=
    (exec_encEos_ok ho' heos).trans (congrArg Host.Outcome.next (streamed_streamed s t u us vs))
  refine ⟨u, ?_⟩
  rw [encodeStream, runCommands_cons hnew, hputs]
  exact runCommands_cons hend

/-- BLK.ENC appends what the encoding of its bytes gives. -/
theorem exec_blkEnc_ok {s : State} {o : Options} {q : BlockProfile} {bs : List Byte} {txt : List CharUnit}
    (hs : sizeOk s.cfg (.block q) = true) (hin : s.inp = bytesToUnits bs) (h : blockEncode s.cfg q o bs = .ok txt) :
    exec (.blkEnc o (blockCode q)) s = .next (appended s txt) := by
  rw [exec_blkEnc_sized hs, hin, blockEncodeUnits, unitsToBytes_bytesToUnits]
  simp only [h, commit_ok, finish_success_append]

end Sys2Proof.Machine
end

section
/-! SUPPORT. How many units the encoder emits when it adds no separator and no line break (41_block_encoder.md R171): whole blocks of S, and the partial block's count. -/

namespace Sys2Proof.Machine

theorem SameStream.trans {t u w : Context} (h : SameStream t u) (h' : SameStream u w) : SameStream t w :=
  ⟨h'.valid.trans h.valid, h'.dir.trans h.dir, h'.prof.trans h.prof, h'.opts.trans h.opts, h'.fault.trans h.fault,
    h'.eosf.trans h.eosf⟩

theorem encFeed_sameStream {cfg : Config} {t u : Context} {bs : List Byte} {vs : List CharUnit}
    (h : encFeed cfg t bs = .ok (u, vs)) : SameStream t u := by
  induction bs generalizing t vs with
  | nil => cases h; exact ⟨rfl, rfl, rfl, rfl, rfl, rfl⟩
  | cons b bs ih =>
    obtain ⟨t1, us, us', hput, hfeed, -⟩ := encFeed_cons_ok h
    exact (encPutBody_sameStream hput).trans (ih hfeed)

/-- Without Wrap and Indent a group is emitted as it is. -/
theorem emitGroup_unformatted {cfg : Config} {p : BlockProfile} {o : Options} {n pos : Nat} {g us : List CharUnit}
    (hw : has o .wrap = false) (hi : has o .indent = false) (h : emitGroup cfg p o n g = (us, pos)) : us = g := by
  have hfst : (emitGroup cfg p o n g).1 = g := by simp [emitGroup, sepEff, wrapEff, hw, hi]
  rw [← hfst, h]

/-- Each block completed emits S symbols; the bytes beyond are held. -/
theorem encFeed_length {cfg : Config} {t u : Context} {bs : List Byte} {vs : List CharUnit}
    (hs : sizeOk cfg (.block t.prof) = true) (hw : has t.opts .wrap = false) (hi : has t.opts .indent = false)
    (hm : t.mod < bytesPerBlock t.prof) (h : encFeed cfg t bs = .ok (u, vs)) :
    u.mod = (t.mod + bs.length) % bytesPerBlock t.prof ∧
      vs.length = (t.mod + bs.length) / bytesPerBlock t.prof * symbolsPerBlock t.prof := by
  have hB := bytesPerBlock_pos t.prof
  induction bs generalizing t vs with
  | nil =>
    cases h
    simp [Nat.mod_eq_of_lt hm, Nat.div_eq_of_lt hm]
  | cons b bs ih =>
    obtain ⟨t1, us, us', hput, hfeed, rfl⟩ := encFeed_cons_ok h
    rcases encPutBody_cases hs b with ⟨hshort, hcase⟩ | ⟨hfull, g, gs, pos, -, hg, hemit, hcase⟩
    · rw [hcase] at hput
      cases hput
      have hcount : t.mod + (b :: bs).length = t.mod + 1 + bs.length := by rw [List.length_cons]; omega
      rw [hcount]
      exact ih (t := { t with acc := t.acc * 256 + b.toNat, mod := t.mod + 1 }) hs hw hi
        (Nat.lt_of_le_of_ne hm hshort) hfeed hB
    · rw [hcase] at hput
      cases hput
      have hcount : t.mod + (b :: bs).length = 0 + bs.length + bytesPerBlock t.prof := by rw [List.length_cons]; omega
      obtain ⟨hmod, hlen⟩ := ih (t := { t with acc := 0, mod := 0, linePos := pos }) hs hw hi hB hfeed hB
      rw [hcount, Nat.add_mod_right, Nat.add_div_right _ hB, Nat.succ_mul, List.length_append, hlen,
        emitGroup_unformatted hw hi hemit, hg]
      exact ⟨hmod, Nat.add_comm _ _⟩

/-- A partial group is its data symbols, filled up to S with padding unless Unpad (R166). -/
theorem partialGroup_length {cfg : Config} {p : BlockProfile} {o : Options} {r acc : Nat} {g : List CharUnit}
    (hs : sizeOk cfg (.block p) = true) (h0 : 0 < r) (hr : r < bytesPerBlock p)
    (h : partialGroup cfg p o r acc = .ok g) :
    g.length = if has o .unpad = true then nsym p r else symbolsPerBlock p := by
  have hrow := partialSymbols_complete h0 hr
  obtain ⟨-, -, -, hle, -⟩ := partialSymbols_spec hrow
  obtain ⟨c, hc⟩ := padOf_of_partial hrow cfg
  obtain ⟨ds, hds, hlen⟩ := blockDigits_defined hs (nsym p r) (partialDigitsValue p (nsym p r) r acc)
  rw [partialGroup_eq hds hc] at h
  cases h
  split
  · exact hlen
  · rw [List.length_append, List.length_replicate, hlen, Nat.add_sub_cancel' hle]

/-- End of stream emits the partial group of the bytes held, where there are any. -/
theorem encEosBody_length {cfg : Config} {t u : Context} {vs : List CharUnit}
    (hs : sizeOk cfg (.block t.prof) = true) (hw : has t.opts .wrap = false) (hi : has t.opts .indent = false)
    (hm : t.mod < bytesPerBlock t.prof) (h : encEosBody cfg t = .ok (u, vs)) :
    vs.length = if t.mod = 0 then 0
      else if has t.opts .unpad = true then nsym t.prof t.mod else symbolsPerBlock t.prof := by
  rcases encEosBody_cases hs hm with ⟨h0, hcase⟩ | ⟨h0, g, gs, pos, hg, hemit, hcase⟩
  · rw [hcase] at h
    cases h
    rw [if_pos h0]
    rfl
  · rw [hcase] at h
    cases h
    rw [if_neg h0.ne', emitGroup_unformatted hw hi hemit, partialGroup_length hs h0 hm hg]

/-- The length of an encoding without separators and line breaks. -/
theorem blockEncode_length {cfg : Config} {q : BlockProfile} {o : Options} {bs : List Byte} {txt : List CharUnit}
    (hs : sizeOk cfg (.block q) = true) (hw : has o .wrap = false) (hi : has o .indent = false)
    (h : blockEncode cfg q o bs = .ok txt) :
    txt.length = bs.length / bytesPerBlock q * symbolsPerBlock q +
      if bs.length % bytesPerBlock q = 0 then 0
      else if has o .unpad = true then nsym q (bs.length % bytesPerBlock q) else symbolsPerBlock q := by
  obtain ⟨t, us, u, vs, hfeed, heos, rfl⟩ := blockEncode_ok h
  have hB := bytesPerBlock_pos q
  obtain ⟨hmod, hlen⟩ := encFeed_length (t := freshContext .encoder q o) hs hw hi hB hfeed
  simp only [freshContext, Nat.zero_add] at hmod hlen
  have hprof : t.prof = q := (encFeed_sameStream hfeed).prof
  have hopts : t.opts = o := (encFeed_sameStream hfeed).opts
  subst hprof hopts
  have heosLen := encEosBody_length hs hw hi (hmod ▸ Nat.mod_lt _ hB) heos
  rw [List.length_append, hlen, heosLen, hmod]

/-- The data symbols of a partial block, none where nothing is held, as R171's quotient. -/
theorem partialCount_eq_ceilDiv {q : BlockProfile} {r : Nat} (hr : r < bytesPerBlock q) :
    (if r = 0 then 0 else nsym q r) = ceilDiv (r * symbolsPerBlock q) (bytesPerBlock q) := by
  split
  next h0 =>
    rw [h0, Nat.zero_mul, ceilDiv, Nat.zero_add, Nat.div_eq_of_lt (Nat.sub_lt (bytesPerBlock_pos q) Nat.one_pos)]
  next h0 =>
    obtain ⟨-, -, -, -, hn⟩ := partialSymbols_spec (partialSymbols_complete (Nat.pos_of_ne_zero h0) hr)
    exact hn

/-- The symbols of n bytes without padding (R171) are those of the whole blocks and of the partial one. -/
theorem ceilDiv_blocks {b : Nat} (hb : 0 < b) (n k : Nat) :
    ceilDiv (n * k) b = n / b * k + ceilDiv (n % b * k) b := by
  have hsplit : n * k = b * (n / b * k) + n % b * k := by
    rw [← Nat.mul_assoc, ← Nat.add_mul, Nat.div_add_mod]
  have hsum : n * k + b - 1 = b * (n / b * k) + (n % b * k + b - 1) := by omega
  rw [ceilDiv, ceilDiv, hsum, Nat.mul_add_div hb]

end Sys2Proof.Machine
end

section
/-! CERTIFICATES. The statements about the block encoder and the context it works on, settled. -/

namespace Sys2Proof.Proofs

open Sys2Proof.Machine

/-- Settles O23: the checks pass on an open stream, and the body only folds the byte in. -/
theorem encPutAccumulates : Obligations.EncPutAccumulates := by
  intro s b ho hm
  rw [exec_encPut_ok ho (encPutBody_short (Nat.ne_of_lt hm)), appended_nil]

/-- Settles O24: the symbols that spell the block are those of its digits, and EmitGroup is the rule's. -/
theorem encPutEmitsBlock : Obligations.EncPutEmitsBlock := by
  intro s b g us pos ho hm hspell hemit
  exact exec_encPut_ok ho (encPutBody_full hm (symbolsAt_of_spells hspell) ((emitGroup_iff _ _ _ _ _).1 hemit))

/-- Settles O25: nothing held, or a row of R161's table, whose symbols and padding make the group emitted. -/
theorem encEosFlushes : Obligations.EncEosFlushes := by
  constructor
  · intro s ho hm
    rw [exec_encEos_ok ho (encEosBody_empty hm), appended_nil]
  · rintro s q r n c g us pos ho hrow rfl rfl hpad hspell hemit
    obtain ⟨h0, hlt, hn, -, -⟩ := partialSymbols_spec hrow
    rw [← partialDigitsValue_of_row hrow] at hspell
    subst hn
    exact exec_encEos_ok ho (encEosBody_partial h0 hlt (partialGroup_eq (symbolsAt_of_spells hspell) hpad)
      ((emitGroup_iff _ _ _ _ _).1 hemit))

/-- Settles O26: a block's value fits its S digits, and the digits to a radix 2^k are the word's k-bit fields. -/
theorem blockDigits : Obligations.BlockDigits := by
  refine ⟨fun q a ha => ⟨digits_length _ _ _, digits_lt (blockRadix_pos q) _ _, ?_⟩,
    fun a => digits_two_pow 4 2 a, fun a => digits_two_pow 6 4 a⟩
  exact valDigits_digits_of_lt (lt_of_lt_of_le ha (blockValue_fits q))

/-- Settles O27: the streaming commands and BLK.ENC run the same encoding. -/
theorem blkEncEqualsStream : Obligations.BlkEncEqualsStream := by
  intro s o q bs hq hin
  have hs : sizeOk s.cfg (.block q) = true := (sizeOk_iff _ _).2 hq
  obtain ⟨txt, htxt⟩ := blockEncode_defined hs o bs
  obtain ⟨u, hu⟩ := runCommands_encodeStream hs htxt
  exact ⟨txt, _, hu, rfl, rfl, exec_blkEnc_ok hs hin htxt⟩

/-- Settles O29: the length of the encoding, with the partial block's count by R161's table and the blocks' sum as one
quotient. -/
theorem encoderOutputLength : Obligations.EncoderOutputLength := by
  intro s o q bs hq hin hw hi
  have hs : sizeOk s.cfg (.block q) = true := (sizeOk_iff _ _).2 hq
  have hB := bytesPerBlock_pos q
  obtain ⟨txt, htxt⟩ := blockEncode_defined hs o bs
  have hlen := blockEncode_length hs hw hi htxt
  refine ⟨txt, exec_blkEnc_ok hs hin htxt, fun hu => ?unpadded, fun hu => ?padded⟩
  case padded => simpa [hu] using hlen
  case unpadded =>
    rw [if_pos hu, partialCount_eq_ceilDiv (Nat.mod_lt _ hB)] at hlen
    exact hlen.trans (ceilDiv_blocks hB bs.length (symbolsPerBlock q)).symm

/-- Settles O58: such a command is the command cycle around a body that does not read the context. -/
theorem contextNotRead : Obligations.ContextNotRead := fun _ _ _ k hi h => exec_setCtx hi h k

end Sys2Proof.Proofs
end

section
/-! SUPPORT. DEC.EOS on an open decoder: what its body answers is what the command reports (42_block_decoder.md R208, 20_memory.md R72 and R73). -/

namespace Sys2Proof.Machine

theorem bytesToUnits_nil : bytesToUnits [] = [] := rfl

theorem exec_decEos_open {s : State} (ho : Open .decoder s) :
    exec .decEos s = .next (finish (decStream (s.setAbsent false) (decEosBody s.ctx))) :=
  congrArg (Host.Outcome.next ∘ finish) (withContext_open (open_setAbsent ho false))

theorem exec_decEos_ok {s : State} {t : Context} {bs : List Byte} (ho : Open .decoder s)
    (h : decEosBody s.ctx = .ok (t, bs)) : exec .decEos s = .next { appended s (bytesToUnits bs) with ctx := t } := by
  rw [exec_decEos_open ho, h]
  rfl

theorem exec_decEos_fails {s : State} {e : FormatError} {t : Context} (ho : Open .decoder s)
    (h : decEosBody s.ctx = .error (.format e, t)) :
    exec .decEos s = .next { raised s (formatCode e) with ctx := { t with fault := some e } } := by
  rw [exec_decEos_open ho, h]
  rfl

end Sys2Proof.Machine
end

section
/-! SUPPORT. The bodies of DEC.PUT and DEC.EOS, one equation per outcome of R203, R208 and R210, and the two conversions they call: the flush of a partial block and of a whole one (42_block_decoder.md R206, R207). -/

namespace Sys2Proof.Machine

/-! What DEC.PUT's body leaves alone, whether it succeeds or fails. -/

theorem decPutBody_sameStream {cfg : Config} {t u : Context} {c : CharUnit} {bs : List Byte}
    (h : decPutBody cfg t c = .ok (u, bs)) : SameStream t u := by
  rcases decPutBody_cases cfg t c with h1 | ⟨-, -, -, h1⟩ | ⟨_, -, -, -, h1⟩ | ⟨_, -, -, -, h1⟩ |
      ⟨_, _, -, -, -, -, h1⟩ | ⟨_, _, h1, -⟩ <;>
    rw [h1] at h <;> cases h <;> exact ⟨rfl, rfl, rfl, rfl, rfl, rfl⟩

theorem decPutBody_error_sameStream {cfg : Config} {t k : Context} {c : CharUnit} {e : Err}
    (h : decPutBody cfg t c = .error (e, k)) : SameStream t k := by
  rcases decPutBody_cases cfg t c with h1 | ⟨-, -, -, h1⟩ | ⟨_, -, -, -, h1⟩ | ⟨_, -, -, -, h1⟩ |
      ⟨_, _, -, -, -, -, h1⟩ | ⟨_, _, h1, hvalid, hdir, hprof, hopts, heosf, hfault, -⟩ <;>
    rw [h1] at h <;> cases h
  exact ⟨hvalid, hdir, hprof, hopts, hfault, heosf⟩

/-- The failed context keeps what STATUS reports of it and has not ended (10_state.md R43). -/
theorem exec_decPut_fails_kept {s : State} {c : CharUnit} {e : FormatError} {t : Context} (ho : Open .decoder s)
    (h : decPutBody s.cfg s.ctx c = .error (.format e, t)) :
    ∃ k : Context, k.valid = true ∧ k.dir = .decoder ∧ k.prof = s.ctx.prof ∧ k.opts = s.ctx.opts ∧ k.eosf = false ∧
      k.fault = some e ∧ exec (.decPut c) s = .next { raised s (formatCode e) with ctx := k } := by
  have hkept := decPutBody_error_sameStream h
  exact ⟨{ t with fault := some e }, hkept.valid.trans ho.valid, hkept.dir.trans ho.dir, hkept.prof, hkept.opts,
    hkept.eosf.trans ho.eosf, rfl, exec_decPut_fails ho h⟩

/-! A symbol (R203, R207). -/

theorem decPutBody_sym {cfg : Config} {t : Context} {c : CharUnit} {v : Nat} (hp : padOf cfg (.block t.prof) ≠ some c)
    (hi : indexOf cfg (.block t.prof) c = some v) : decPutBody cfg t c = decSymBody t v := by
  simp only [decPutBody, classOf_sym hp hi]

/-- No data symbol may interrupt a padding run (R210). -/
theorem decSymBody_inRun {t : Context} {v : Nat} (h : 0 < t.padRun) :
    decSymBody t v = .error (.format .padPosition, t) := if_pos h

theorem decSymBody_full_error {t : Context} {v : Nat} {e : FormatError} (hp : t.padRun = 0)
    (hm : t.mod + 1 = symbolsPerBlock t.prof)
    (he : fullBlock t.prof t.opts (t.acc * blockRadix t.prof + v) = .error e) :
    decSymBody t v =
      .error (.format e, { t with acc := t.acc * blockRadix t.prof + v, mod := t.mod + 1 }) := by
  simp [decSymBody, hp, hm, he]

/-- A whole block that fits, or whose excess Relax drops, is written as B bytes; only P24 can have an excess (R207). -/
theorem fullBlock_ok {p : BlockProfile} {o : Options} {a : Nat}
    (h : a < 256 ^ bytesPerBlock p ∨ p = .p24 ∧ has o .relax = true) :
    ∃ bs, fullBlock p o a = .ok bs ∧ bs.length = bytesPerBlock p ∧
      valBE bs = if p = .p24 then a % 2 ^ 32 else a := by
  by_cases hfit : a < 256 ^ bytesPerBlock p
  · refine ⟨_, fullBlock_fits hfit, bytesBE_length _ _, ?_⟩
    rw [valBE_bytesBE, Nat.mod_eq_of_lt hfit]
    split
    next hp => subst hp; exact (Nat.mod_eq_of_lt hfit).symm
    next => rfl
  · obtain ⟨rfl, hrelax⟩ := h.resolve_left hfit
    have hexcess : BlockProfile.p24 = .p24 ∧ 2 ^ 32 ≤ a := ⟨rfl, Nat.not_lt.1 hfit⟩
    refine ⟨_, by rw [fullBlock, if_pos hexcess, if_pos hrelax], bytesBE_length _ _, ?_⟩
    rw [valBE_bytesBE, if_pos rfl]
    exact Nat.mod_mod _ _

theorem fullBlock_excess {o : Options} {a : Nat} (h : 2 ^ 32 ≤ a) (hr : has o .relax = false) :
    fullBlock .p24 o a = .error .insignificant := by
  have hrelax : ¬ has o .relax = true := by rw [hr]; exact Bool.false_ne_true
  rw [fullBlock, if_pos ⟨rfl, h⟩, if_neg hrelax]

/-! A padding character that is asked for (R210). -/

theorem padReq_p16 (o : Options) : padReq .p16 o = false := Bool.and_false _

theorem padReq_of_ne_p16 {p : BlockProfile} {o : Options} (hp : p ≠ .p16) (ho : has o .padding = true) :
    padReq p o = true := by
  cases p with
  | p16 => exact absurd rfl hp
  | p64 | p24 => simp [padReq, ho]

/-- A profile with a padding character takes padding when Padding is set (R201). -/
theorem padReq_of_padOf {cfg : Config} {p : BlockProfile} {o : Options} {c : CharUnit}
    (hc : padOf cfg (.block p) = some c) (ho : has o .padding = true) : padReq p o = true :=
  padReq_of_ne_p16 (by rintro rfl; cases hc) ho

/-- A run needs a data symbol before it. -/
theorem decPadBody_first {t : Context} (hq : padReq t.prof t.opts = true) (hm : t.mod = 0) :
    decPadBody t = .error (.format .padPosition, t) := by
  simp [decPadBody, hq, hm]

theorem decPadBody_counts {t : Context} (hq : padReq t.prof t.opts = true) (hm : 0 < t.mod)
    (hs : t.mod + t.padRun + 1 ≠ symbolsPerBlock t.prof) :
    decPadBody t = .ok ({ t with padRun := t.padRun + 1 }, []) := by
  rw [Nat.add_assoc] at hs
  simp [decPadBody, hq, hm.ne', hs]

theorem decPadBody_flushes {t : Context} {bs : List Byte} (hq : padReq t.prof t.opts = true) (hm : 0 < t.mod)
    (hs : t.mod + t.padRun + 1 = symbolsPerBlock t.prof) (hf : partialFlush t.prof t.opts t.mod t.acc = .ok bs) :
    decPadBody t = .ok ({ t with acc := 0, mod := 0, padRun := 0 }, bs) := by
  rw [Nat.add_assoc] at hs
  simp [decPadBody, hq, hm.ne', hs, hf]

theorem decPadBody_flush_error {t : Context} {e : FormatError} (hq : padReq t.prof t.opts = true) (hm : 0 < t.mod)
    (hs : t.mod + t.padRun + 1 = symbolsPerBlock t.prof) (hf : partialFlush t.prof t.opts t.mod t.acc = .error e) :
    decPadBody t = .error (.format e, { t with padRun := t.padRun + 1 }) := by
  rw [Nat.add_assoc] at hs
  simp [decPadBody, hq, hm.ne', hs, hf]

/-! End of stream (R208). -/

theorem decEosBody_empty {t : Context} (hm : t.mod = 0) :
    decEosBody t = .ok ({ t with acc := 0, mod := 0, padRun := 0, eosf := true }, []) := by
  have hrange : ¬ symbolsPerBlock t.prof ≤ t.mod := by
    have hS := symbolsPerBlock_pos t.prof
    omega
  rw [decEosBody, if_neg hrange, if_neg (by omega)]

theorem decEosBody_missing {t : Context} (h0 : 0 < t.mod) (hm : t.mod < symbolsPerBlock t.prof)
    (hq : padReq t.prof t.opts = true) : decEosBody t = .error (.format .padMissing, t) := by
  rw [decEosBody, if_neg (Nat.not_le.2 hm), if_pos h0, if_pos hq]

theorem decEosBody_flushes {t : Context} {bs : List Byte} (h0 : 0 < t.mod) (hm : t.mod < symbolsPerBlock t.prof)
    (hq : padReq t.prof t.opts = false) (hf : partialFlush t.prof t.opts t.mod t.acc = .ok bs) :
    decEosBody t = .ok ({ t with acc := 0, mod := 0, padRun := 0, eosf := true }, bs) := by
  simp [decEosBody, Nat.not_le.2 hm, h0, hq, hf]

theorem decEosBody_flush_error {t : Context} {e : FormatError} (h0 : 0 < t.mod) (hm : t.mod < symbolsPerBlock t.prof)
    (hq : padReq t.prof t.opts = false) (hf : partialFlush t.prof t.opts t.mod t.acc = .error e) :
    decEosBody t = .error (.format e, t) := by
  simp [decEosBody, Nat.not_le.2 hm, h0, hq, hf]

/-! The flush of a partial block as a row of R205's table gives it (R206). -/

section
variable {q : BlockProfile} {m r acc : Nat} {canon : Bool} {o : Options}

theorem partialFlush_row_ok (hrow : (q, m, r, canon) ∈ partialRows) (hacc : acc < blockRadix q ^ m)
    (h : has o .relax = true ∨ canon = true ∧ (partialValue q m r acc).2 = 0) :
    ∃ bs, partialFlush q o m acc = .ok bs ∧ bs.length = r ∧ valBE bs = (partialValue q m r acc).1 := by
  obtain ⟨hbytes, hcanon, -, -⟩ := nbytes_of_row hrow
  have hsplit := splitPartial_of_row hrow acc
  refine ⟨_, partialFlush_ok (by rwa [hcanon, hsplit]), by rw [bytesBE_length, hbytes], ?_⟩
  rw [valBE_bytesBE, hbytes, hsplit, Nat.mod_eq_of_lt (partialValue_lt hrow hacc)]

theorem partialFlush_row_incomplete (hrow : (q, m, r, canon) ∈ partialRows) (hr : has o .relax = false)
    (hc : canon = false) : partialFlush q o m acc = .error .incomplete := by
  obtain ⟨-, hcanon, -, -⟩ := nbytes_of_row hrow
  exact partialFlush_incomplete hr (hcanon.trans hc)

theorem partialFlush_row_insignificant (hrow : (q, m, r, canon) ∈ partialRows) (hr : has o .relax = false)
    (hc : canon = true) (hi : (partialValue q m r acc).2 ≠ 0) : partialFlush q o m acc = .error .insignificant := by
  obtain ⟨-, hcanon, -, -⟩ := nbytes_of_row hrow
  exact partialFlush_insignificant hr (hcanon.trans hc) (by rwa [splitPartial_of_row hrow])

end

end Sys2Proof.Machine
end

section
/-! SUPPORT. The streaming commands of DECODE.S run the same bodies as the general engine of BLK.DEC (42_block_decoder.md R212): the state they pass along, command by command, up to the first fault. -/

namespace Sys2Proof.Machine

/-- Feeding a sequence is feeding its first character, then the others. -/
theorem decFeed_cons_ok {cfg : Config} {t u : Context} {c : CharUnit} {cs : List CharUnit} {bs : List Byte}
    (h : decFeed cfg t (c :: cs) = .ok (u, bs)) :
    ∃ t1 ds ds', decPutBody cfg t c = .ok (t1, ds) ∧ decFeed cfg t1 cs = .ok (u, ds') ∧ bs = ds ++ ds' := by
  simp only [decFeed] at h
  split at h
  · cases h
  next t1 ds hput =>
    split at h
    · cases h
    next t2 ds' hfeed =>
      cases h
      exact ⟨t1, ds, ds', hput, hfeed, rfl⟩

/-- Feeding fails at the first character or after it. -/
theorem decFeed_cons_error {cfg : Config} {t : Context} {c : CharUnit} {cs : List CharUnit} {x : Err × Context}
    (h : decFeed cfg t (c :: cs) = .error x) :
    decPutBody cfg t c = .error x ∨ ∃ t1 ds, decPutBody cfg t c = .ok (t1, ds) ∧ decFeed cfg t1 cs = .error x := by
  simp only [decFeed] at h
  split at h
  next hput => cases h; exact .inl hput
  next t1 ds hput =>
    split at h
    next hfeed => cases h; exact .inr ⟨t1, ds, hput, hfeed⟩
    next => cases h

theorem generalDecode_of_parts {cfg : Config} {p : BlockProfile} {o : Options} {cs : List CharUnit} {t u : Context}
    {bs ds : List Byte} (hfeed : decFeed cfg (freshContext .decoder p o) cs = .ok (t, bs))
    (heos : decEosBody t = .ok (u, ds)) : generalDecode cfg p o cs = .ok (bs ++ ds) := by
  simp only [generalDecode, hfeed, heos]

/-- A decoding that succeeds is what the characters emit, then what the end of stream emits. -/
theorem generalDecode_ok {cfg : Config} {p : BlockProfile} {o : Options} {cs : List CharUnit} {bs : List Byte}
    (h : generalDecode cfg p o cs = .ok bs) :
    ∃ t ds u ds', decFeed cfg (freshContext .decoder p o) cs = .ok (t, ds) ∧ decEosBody t = .ok (u, ds') ∧
      bs = ds ++ ds' := by
  simp only [generalDecode] at h
  split at h
  · cases h
  next t ds hfeed =>
    split at h
    · cases h
    next u ds' heos =>
      cases h
      exact ⟨t, ds, u, ds', hfeed, heos, rfl⟩

/-- A decoding that fails does so at a character or at the end of stream. -/
theorem generalDecode_error_at {cfg : Config} {p : BlockProfile} {o : Options} {cs : List CharUnit} {e : Err}
    (h : generalDecode cfg p o cs = .error e) :
    (∃ k, decFeed cfg (freshContext .decoder p o) cs = .error (e, k)) ∨
      ∃ t ds k, decFeed cfg (freshContext .decoder p o) cs = .ok (t, ds) ∧ decEosBody t = .error (e, k) := by
  simp only [generalDecode] at h
  split at h
  next x hfeed => cases h; exact .inl ⟨x.2, hfeed⟩
  next t ds hfeed =>
    split at h
    next x heos => cases h; exact .inr ⟨t, ds, x.2, hfeed, heos⟩
    next => cases h

/-- An end of stream that succeeds leaves the context ended and otherwise as R208 says. -/
theorem decEosBody_ok {t u : Context} {bs : List Byte} (h : decEosBody t = .ok (u, bs)) :
    u = { t with acc := 0, mod := 0, padRun := 0, eosf := true } := by
  rcases decEosBody_cases t with ⟨-, h1⟩ | ⟨-, h1⟩ | ⟨-, -, -, h1⟩ | ⟨_, -, -, -, -, h1⟩ | ⟨_, -, -, -, -, h1⟩ <;>
    rw [h1] at h <;> cases h <;> rfl

theorem decEosBody_error_context {t k : Context} {e : Err} (h : decEosBody t = .error (e, k)) : k = t := by
  rcases decEosBody_cases t with ⟨-, h1⟩ | ⟨-, h1⟩ | ⟨-, -, -, h1⟩ | ⟨_, -, -, -, -, h1⟩ | ⟨_, -, -, -, -, h1⟩ <;>
    rw [h1] at h <;> cases h <;> rfl

theorem bytesToUnits_append (bs ds : List Byte) : bytesToUnits (bs ++ ds) = bytesToUnits bs ++ bytesToUnits ds :=
  List.map_append

theorem exec_decPut_streamed {s : State} {t u : Context} {us : List CharUnit} {c : CharUnit} {bs : List Byte}
    (ho : Open .decoder (streamed s t us)) (h : decPutBody s.cfg t c = .ok (u, bs)) :
    exec (.decPut c) (streamed s t us) = .next (streamed s u (us ++ bytesToUnits bs)) :=
  (exec_decPut_ok ho h).trans (congrArg Host.Outcome.next (streamed_streamed s t u us _))

/-- One DEC.PUT per character appends what feeding the characters emits. -/
theorem runCommands_decPuts {s : State} {t u : Context} {us : List CharUnit} {cs : List CharUnit} {bs : List Byte}
    (rest : List Instr) (ho : Open .decoder (streamed s t us)) (h : decFeed s.cfg t cs = .ok (u, bs)) :
    runCommands (cs.map .decPut ++ rest) (streamed s t us) =
        runCommands rest (streamed s u (us ++ bytesToUnits bs)) ∧
      Open .decoder (streamed s u (us ++ bytesToUnits bs)) := by
  induction cs generalizing t us bs with
  | nil =>
    cases h
    rw [bytesToUnits_nil, List.append_nil]
    exact ⟨rfl, ho⟩
  | cons c cs ih =>
    obtain ⟨t1, ds, ds', hput, hfeed, rfl⟩ := decFeed_cons_ok h
    rw [bytesToUnits_append, ← List.append_assoc, List.map_cons, List.cons_append,
      runCommands_cons (exec_decPut_streamed ho hput)]
    exact ih (open_streamed ho (decPutBody_sameStream hput)) hfeed

/-- A decoder that failed with an error and whose last command reported it. -/
structure Failed (e : FormatError) (s : State) : Prop where
  valid : s.ctx.valid = true
  dir : s.ctx.dir = .decoder
  fault : s.ctx.fault = some e
  reported : s.lastErr = formatCode e

/-- A failed decoder raises its stored error again and writes nothing (60_exceptions.md R344 item 2). -/
theorem exec_failed {i : Instr} {s : State} {e : FormatError} (hi : isDecoderCommand i) (h : Failed e s) :
    exec i s = .next (raised s (formatCode e)) ∧ Failed e (raised s (formatCode e)) := by
  refine ⟨?_, h.valid, h.dir, h.fault, rfl⟩
  have hcontext : ∀ body, withContext .decoder (s.setAbsent false) body = .raise (.format e) (s.setAbsent false) := by
    simp [withContext, h.valid, h.dir, h.fault]
  rcases hi with ⟨c, rfl⟩ | rfl <;> exact congrArg (Host.Outcome.next ∘ finish) (hcontext _)

/-- The commands of DECODE.S after a failure leave the failed context and its report. -/
theorem runCommands_failed {s : State} {e : FormatError} (h : Failed e s) (cs : List CharUnit) :
    ∃ u, runCommands (cs.map .decPut ++ [.decEos]) s = some u ∧ Failed e u := by
  induction cs generalizing s with
  | nil =>
    obtain ⟨hexec, hkept⟩ := exec_failed (.inr rfl) h
    exact ⟨_, runCommands_cons hexec, hkept⟩
  | cons c cs ih =>
    obtain ⟨hexec, hkept⟩ := exec_failed (.inl ⟨c, rfl⟩) h
    obtain ⟨u, hu, hf⟩ := ih hkept
    exact ⟨u, (runCommands_cons hexec).trans hu, hf⟩

theorem failed_of_stored {s : State} {t : Context} {e : FormatError} (hv : t.valid = true) (hd : t.dir = .decoder) :
    Failed e { raised s (formatCode e) with ctx := { t with fault := some e } } := ⟨hv, hd, rfl, rfl⟩

/-- DEC.PUT fails where feeding fails, and the commands after it report that error again. -/
theorem runCommands_decPuts_fail {s : State} {t k : Context} {us : List CharUnit} {cs : List CharUnit}
    {e : FormatError} (ho : Open .decoder (streamed s t us)) (h : decFeed s.cfg t cs = .error (.format e, k)) :
    ∃ u, runCommands (cs.map .decPut ++ [.decEos]) (streamed s t us) = some u ∧ Failed e u := by
  induction cs generalizing t us with
  | nil => cases h
  | cons c cs ih =>
    rw [List.map_cons, List.cons_append]
    rcases decFeed_cons_error h with hput | ⟨t1, ds, hput, hfeed⟩
    · have hkept := decPutBody_error_sameStream hput
      rw [runCommands_cons (exec_decPut_fails ho hput)]
      exact runCommands_failed (failed_of_stored (hkept.valid.trans ho.valid) (hkept.dir.trans ho.dir)) cs
    · rw [runCommands_cons (exec_decPut_streamed ho hput)]
      exact ih (open_streamed ho (decPutBody_sameStream hput)) hfeed

/-- CTX.DEC opens a stream on which nothing was appended yet. -/
theorem runCommands_decodeStream {s : State} {q : BlockProfile} (hs : sizeOk s.cfg (.block q) = true) (o : Options)
    (cs : List CharUnit) :
    runCommands (decodeStream o q cs) s =
      runCommands (cs.map .decPut ++ [.decEos]) (streamed s (freshContext .decoder q o) []) := by
  refine runCommands_cons ?_
  rw [streamed, appended_nil]
  exact congrArg Host.Outcome.next (runCommand_create .decoder o hs)

theorem open_freshDecoder (s : State) (q : BlockProfile) (o : Options) :
    Open .decoder (streamed s (freshContext .decoder q o) []) := ⟨rfl, rfl, rfl, rfl⟩

/-- DECODE.S appends what the general engine decodes and ends its stream. -/
theorem decodeStream_ok {s : State} {o : Options} {q : BlockProfile} {cs : List CharUnit} {bs : List Byte}
    (hs : sizeOk s.cfg (.block q) = true) (h : generalDecode s.cfg q o cs = .ok bs) :
    ∃ u, runCommands (decodeStream o q cs) s = some (streamed s u (bytesToUnits bs)) ∧ u.fault = none ∧
      u.eosf = true := by
  obtain ⟨t, ds, u, ds', hfeed, heos, rfl⟩ := generalDecode_ok h
  obtain ⟨hputs, ho⟩ := runCommands_decPuts [.decEos] (open_freshDecoder s q o) hfeed
  have hend := (exec_decEos_ok ho heos).trans (congrArg Host.Outcome.next (streamed_streamed s t u _ _))
  have hu := decEosBody_ok heos
  refine ⟨u, ?_, by rw [hu]; exact ho.fault, by rw [hu]⟩
  rw [runCommands_decodeStream hs, hputs, bytesToUnits_append]
  exact runCommands_cons hend

/-- DECODE.S fails with the error of the general engine. -/
theorem decodeStream_fails {s : State} {o : Options} {q : BlockProfile} {cs : List CharUnit} {e : FormatError}
    (hs : sizeOk s.cfg (.block q) = true) (h : generalDecode s.cfg q o cs = .error (.format e)) :
    ∃ u, runCommands (decodeStream o q cs) s = some u ∧ Failed e u := by
  rw [runCommands_decodeStream hs]
  have ho := open_freshDecoder s q o
  rcases generalDecode_error_at h with ⟨k, hfeed⟩ | ⟨t, ds, k, hfeed, heos⟩
  · exact runCommands_decPuts_fail ho hfeed
  · obtain ⟨hputs, ho'⟩ := runCommands_decPuts [.decEos] ho hfeed
    rw [hputs, runCommands_cons (exec_decEos_fails ho' heos)]
    obtain rfl := decEosBody_error_context heos
    exact ⟨_, rfl, failed_of_stored ho'.valid ho'.dir⟩

end Sys2Proof.Machine
end

section
/-! SUPPORT. BLK.DEC and BLK.TRYDEC behind their checks (42_block_decoder.md R212, R213). -/

namespace Sys2Proof.Machine

/-- With a table of the right size BLK.DEC reports what the decoding of IN gives (R212). -/
theorem exec_blkDec_sized {s : State} {q : BlockProfile} (hs : sizeOk s.cfg (.block q) = true) (o : Options) :
    exec (.blkDec o (blockCode q)) s =
      .next (finish (commit (s.setAbsent false) (blockDecodeUnits s.cfg q o s.inp))) := by
  have hs' : sizeOk (s.setAbsent false).cfg (.block q) = true := hs
  simp only [exec, execBlkDec, runCommand, servedBlock_blockCode, withProfile_ok hs', State.setAbsent_cfg,
    State.setAbsent_inp]

theorem exec_blkTryDec_sized {s : State} {q : BlockProfile} (hs : sizeOk s.cfg (.block q) = true) (o : Options) :
    exec (.blkTryDec o (blockCode q)) s =
      .next (finish (commitTry (s.setAbsent false) (blockDecodeUnits s.cfg q o s.inp))) := by
  have hs' : sizeOk (s.setAbsent false).cfg (.block q) = true := hs
  simp only [exec, execBlkTryDec, runCommand, servedBlock_blockCode, withProfile_ok hs', State.setAbsent_cfg,
    State.setAbsent_inp]

/-- Off the fast path BLK.DEC decodes by the general engine (R212). -/
theorem blockDecodeUnits_general {cfg : Config} {p : BlockProfile} {o : Options} (h : fastEligible cfg p o = false)
    (cs : List CharUnit) : blockDecodeUnits cfg p o cs = (generalDecode cfg p o cs).map bytesToUnits := by
  rw [blockDecodeUnits, h, if_neg Bool.false_ne_true]
  cases generalDecode cfg p o cs <;> rfl

theorem exec_blkDec_general_ok {s : State} {o : Options} {q : BlockProfile} {bs : List Byte}
    (hs : sizeOk s.cfg (.block q) = true) (hf : fastEligible s.cfg q o = false)
    (h : generalDecode s.cfg q o s.inp = .ok bs) :
    exec (.blkDec o (blockCode q)) s = .next (appended s (bytesToUnits bs)) := by
  rw [exec_blkDec_sized hs, blockDecodeUnits_general hf, h]
  rfl

theorem exec_blkDec_general_error {s : State} {o : Options} {q : BlockProfile} {e : FormatError}
    (hs : sizeOk s.cfg (.block q) = true) (hf : fastEligible s.cfg q o = false)
    (h : generalDecode s.cfg q o s.inp = .error (.format e)) :
    exec (.blkDec o (blockCode q)) s = .next (raised s (formatCode e)) := by
  rw [exec_blkDec_sized hs, blockDecodeUnits_general hf, h]
  rfl

end Sys2Proof.Machine
end

section
/-! SUPPORT. The general engine reads an encoded text back (42_block_decoder.md R214): formatting is skipped, the symbols of a whole block give its bytes, a partial block is flushed by its padding or at the end of stream. -/

namespace Sys2Proof.Machine

/-- Feeding a text and then another is feeding both. -/
theorem decFeed_append_ok {cfg : Config} {t u w : Context} {cs cs' : List CharUnit} {bs bs' : List Byte}
    (h : decFeed cfg t cs = .ok (u, bs)) (h' : decFeed cfg u cs' = .ok (w, bs')) :
    decFeed cfg t (cs ++ cs') = .ok (w, bs ++ bs') := by
  induction cs generalizing t bs with
  | nil => cases h; exact h'
  | cons c cs ih =>
    obtain ⟨t1, ds, ds', hput, hfeed, rfl⟩ := decFeed_cons_ok h
    rw [List.cons_append, decFeed, hput]
    simp only [ih hfeed, List.append_assoc]

/-- A text whose characters the body passes over leaves the context. -/
theorem decFeed_ignored {cfg : Config} {t : Context} {cs : List CharUnit}
    (h : ∀ c ∈ cs, decPutBody cfg t c = .ok (t, [])) : decFeed cfg t cs = .ok (t, []) := by
  induction cs with
  | nil => rfl
  | cons c cs ih =>
    obtain ⟨hc, hcs⟩ := List.forall_mem_cons.1 h
    simp only [decFeed, hc, ih hcs, List.append_nil]

/-! Formatting (R167, 40_alphabet.md R144). -/

/-- The characters EmitGroup adds are no data of the profile: the condition of the round-trip law. -/
def FormattingApart (cfg : Config) (p : BlockProfile) : Prop :=
  ∀ c, c ∈ cfg.newline ∨ c = 0x20#16 → indexOf cfg (.block p) c = none ∧ padOf cfg (.block p) ≠ some c

/-- EmitGroup puts formatting around its group, and only under an option that makes a decoder skip it. -/
theorem emitGroup_around (cfg : Config) (p : BlockProfile) (o : Options) (n : Nat) (g : List CharUnit) :
    ∃ before after, (emitGroup cfg p o n g).1 = before ++ g ++ after ∧
      ∀ c ∈ before ++ after, (c ∈ cfg.newline ∨ c = 0x20#16) ∧ (has o .wrap = true ∨ has o .indent = true) := by
  have hsep : sepEff p o = true → has o .indent = true := fun h => (Bool.and_eq_true_iff.1 h).1
  have hwrap : wrapEff p o = true → has o .wrap = true ∨ has o .indent = true := fun h =>
    (Bool.or_eq_true_iff.1 h).imp id fun h => (Bool.and_eq_true_iff.1 h).2
  have hbefore : ∀ c ∈ if sepEff p o && decide (0 < n) then [0x20#16] else [],
      (c ∈ cfg.newline ∨ c = 0x20#16) ∧ (has o .wrap = true ∨ has o .indent = true) := by
    intro c hc
    split at hc
    next h => exact ⟨.inr (List.mem_singleton.1 hc), .inr (hsep (Bool.and_eq_true_iff.1 h).1)⟩
    next => cases hc
  simp only [emitGroup]
  split
  next h =>
    refine ⟨_, cfg.newline, rfl, List.forall_mem_append.2 ⟨hbefore, fun c hc => ⟨.inl hc, ?_⟩⟩⟩
    exact hwrap (Bool.and_eq_true_iff.1 h).1
  next => exact ⟨_, [], (List.append_nil _).symm, List.forall_mem_append.2 ⟨hbefore, List.forall_mem_nil _⟩⟩

theorem decFeed_formatting {cfg : Config} {t : Context} (hfmt : FormattingApart cfg t.prof) {cs : List CharUnit}
    (h : ∀ c ∈ cs, (c ∈ cfg.newline ∨ c = 0x20#16) ∧ (has t.opts .wrap = true ∨ has t.opts .indent = true)) :
    decFeed cfg t cs = .ok (t, []) := by
  refine decFeed_ignored fun c hc => ?_
  obtain ⟨hmem, hasked⟩ := h c hc
  obtain ⟨hlookup, hpad⟩ := hfmt c hmem
  exact decPutBody_skip hpad hlookup (.inl ⟨hasked, hmem⟩)

/-- A new decoder with the encoder's options reads an emitted group as the group. -/
theorem decFeed_emitGroup {cfg : Config} {p : BlockProfile} {o : Options} {u : Context} {n : Nat} {g : List CharUnit}
    {bs : List Byte} (hfmt : FormattingApart cfg p) (hsame : SameStream (freshContext .decoder p o) u)
    (h : decFeed cfg (freshContext .decoder p o) g = .ok (u, bs)) :
    decFeed cfg (freshContext .decoder p o) (emitGroup cfg p o n g).1 = .ok (u, bs) := by
  obtain ⟨before, after, htext, hskip⟩ := emitGroup_around cfg p o n g
  obtain ⟨hbefore, hafter⟩ := List.forall_mem_append.1 hskip
  have hfirst := decFeed_formatting (t := freshContext .decoder p o) hfmt hbefore
  have hlast := decFeed_formatting (t := u) (by rw [hsame.prof]; exact hfmt) (by rw [hsame.opts]; exact hafter)
  have hfeed := decFeed_append_ok (decFeed_append_ok hfirst h) hlast
  rwa [htext, ← List.append_nil bs]

/-! Symbols (R163, R203). -/

theorem decPutBody_symbolAt {cfg : Config} {t : Context} {c : CharUnit} {v : Nat} (hok : configOk cfg = true)
    (hc : symbolAt cfg (.block t.prof) v = some c) : decPutBody cfg t c = decSymBody t v := by
  simp only [decPutBody, classOf_symbolAt hok hc]

/-- Symbols that complete no block are folded in, digit by digit. -/
theorem decFeed_symbols {cfg : Config} {t : Context} {ds : List Nat} {g : List CharUnit} (hok : configOk cfg = true)
    (hg : ds.map (symbolAt cfg (.block t.prof)) = g.map some) (hrun : t.padRun = 0)
    (hm : t.mod + ds.length < symbolsPerBlock t.prof) :
    decFeed cfg t g =
      .ok ({ t with acc := ds.foldl (fun n d => n * blockRadix t.prof + d) t.acc, mod := t.mod + ds.length }, []) := by
  induction ds generalizing t g with
  | nil =>
    obtain rfl : g = [] := List.map_eq_nil_iff.1 hg.symm
    rfl
  | cons d ds ih =>
    obtain ⟨c, g', rfl, hc, hg'⟩ := List.map_eq_cons_iff.1 hg.symm
    rw [List.length_cons] at hm
    have hput : decPutBody cfg t c = .ok ({ t with acc := t.acc * blockRadix t.prof + d, mod := t.mod + 1 }, []) :=
      (decPutBody_symbolAt hok hc.symm).trans (decSymBody_short hrun (by omega))
    have hfeed := ih (t := { t with acc := t.acc * blockRadix t.prof + d, mod := t.mod + 1 }) hg'.symm hrun
      (by simp only; omega)
    simp only [decFeed, hput, hfeed, List.nil_append, List.foldl_cons, List.length_cons]
    rw [Nat.add_assoc, Nat.add_comm 1]

/-- A decoder that holds n symbols of value v. -/
def partialDecoder (p : BlockProfile) (o : Options) (n v : Nat) : Context :=
  { freshContext .decoder p o with acc := v, mod := n }

/-- The digits of a value, fewer than a block's, leave the value in ACC. -/
theorem decFeed_partialSymbols {cfg : Config} {p : BlockProfile} {o : Options} {n v : Nat} {g : List CharUnit}
    (hok : configOk cfg = true) (hg : symbolsAt cfg (.block p) (digits (blockRadix p) n v) = .ok g)
    (hn : n < symbolsPerBlock p) (hv : v < blockRadix p ^ n) :
    decFeed cfg (freshContext .decoder p o) g = .ok (partialDecoder p o n v, []) := by
  have hlen := digits_length (blockRadix p) n v
  have hval : (digits (blockRadix p) n v).foldl (fun n d => n * blockRadix p + d) 0 = v := valDigits_digits_of_lt hv
  have hfeed := decFeed_symbols (t := freshContext .decoder p o) hok (symbolsAt_iff.1 hg) rfl
    (by simpa [freshContext] using hn)
  simpa [partialDecoder, freshContext, hlen, hval] using hfeed

/-- The S symbols of a block give its bytes and leave nothing held. -/
theorem decFeed_block {cfg : Config} {p : BlockProfile} {o : Options} {v : Nat} {g : List CharUnit}
    (hok : configOk cfg = true)
    (hg : symbolsAt cfg (.block p) (digits (blockRadix p) (symbolsPerBlock p) v) = .ok g)
    (hv : v < 256 ^ bytesPerBlock p) :
    decFeed cfg (freshContext .decoder p o) g = .ok (freshContext .decoder p o, bytesBE (bytesPerBlock p) v) := by
  obtain ⟨n, hn⟩ := Nat.exists_eq_succ_of_ne_zero (symbolsPerBlock_pos p).ne'
  have hfits := lt_of_lt_of_le hv (blockValue_fits p)
  rw [hn, pow_succ] at hfits
  rw [hn, digits_succ, symbolsAt_iff, List.map_append] at hg
  obtain ⟨g1, g2, rfl, hg1, hg2⟩ := List.map_eq_append_iff.1 hg.symm
  obtain ⟨c, rfl, hc⟩ : ∃ c, g2 = [c] ∧ symbolAt cfg (.block p) (v % blockRadix p) = some c := by
    rw [List.map_singleton, List.map_eq_singleton_iff] at hg2
    obtain ⟨c, hc, hsym⟩ := hg2
    exact ⟨c, hc, hsym.symm⟩
  have hfirst := decFeed_partialSymbols (o := o) hok (symbolsAt_iff.2 hg1.symm) (by omega)
    (Nat.div_lt_of_lt_mul (by rwa [Nat.mul_comm] at hfits))
  refine decFeed_append_ok (bs := []) (bs' := bytesBE (bytesPerBlock p) v) hfirst ?_
  have hput : decPutBody cfg (partialDecoder p o n (v / blockRadix p)) c =
      .ok (freshContext .decoder p o, bytesBE (bytesPerBlock p) v) := by
    rw [decPutBody_symbolAt hok hc]
    refine decSymBody_full rfl hn.symm ?_
    show fullBlock p o (v / blockRadix p * blockRadix p + v % blockRadix p) = _
    rw [Nat.div_add_mod']
    exact fullBlock_fits hv
  simp only [decFeed, hput, List.append_nil]

end Sys2Proof.Machine
end

section
/-! SUPPORT. The partial final block read back: what the encoder spells the decoder flushes, by its padding or at the end of stream (42_block_decoder.md R205, R206, R210). -/

namespace Sys2Proof.Machine

/-- The counts of R161's table are the canonical ones of R205's. -/
theorem partialRows_of_partialSymbols {q : BlockProfile} {r n : Nat} (h : (q, r, n) ∈ partialSymbols) :
    (q, n, r, true) ∈ partialRows := by
  have hall : ∀ e ∈ partialSymbols, (e.1, e.2.2, e.2.1, true) ∈ partialRows := by decide
  exact hall _ h

/-- A partial block's value fits its symbols (R166). -/
theorem partialDigitsValue_lt {q : BlockProfile} {r n acc : Nat} (h : (q, r, n) ∈ partialSymbols)
    (hacc : acc < 256 ^ r) : partialDigitsValue q n r acc < blockRadix q ^ n := by
  have hfits : partialDigitsValue q n r (256 ^ r) ≤ blockRadix q ^ n := by
    have hall : ∀ e ∈ partialSymbols, partialDigitsValue e.1 e.2.2 e.2.1 (256 ^ e.2.1) ≤ blockRadix e.1 ^ e.2.2 := by
      decide
    exact hall _ h
  refine lt_of_lt_of_le ?_ hfits
  cases q with
  | p24 => exact hacc
  | p16 | p64 => exact Nat.mul_lt_mul_of_pos_right hacc (Nat.two_pow_pos _)

/-- Splitting what a partial block spells gives the bytes' value and nothing insignificant (R206). -/
theorem partialValue_partialDigitsValue {q : BlockProfile} {r n acc : Nat} (hacc : acc < 256 ^ r) :
    partialValue q n r (partialDigitsValue q n r acc) = (acc, 0) := by
  cases q with
  | p24 => exact Prod.ext (Nat.mod_eq_of_lt hacc) (Nat.div_eq_of_lt hacc)
  | p16 | p64 => exact Prod.ext (Nat.mul_div_cancel _ (Nat.two_pow_pos _)) (Nat.mul_mod_left _ _)

/-- The flush of a partial block gives back the bytes the encoder spelled, whatever the options. -/
theorem partialFlush_partialDigitsValue {q : BlockProfile} {r n acc : Nat} (o : Options)
    (h : (q, r, n) ∈ partialSymbols) (hacc : acc < 256 ^ r) :
    partialFlush q o n (partialDigitsValue q n r acc) = .ok (bytesBE r acc) := by
  have hrow := partialRows_of_partialSymbols h
  obtain ⟨hbytes, hcanon, -, -⟩ := nbytes_of_row hrow
  have hsplit := (splitPartial_of_row hrow _).trans (partialValue_partialDigitsValue (q := q) (n := n) hacc)
  have hflush := partialFlush_ok (o := o) (.inr ⟨hcanon, congrArg Prod.snd hsplit⟩)
  rwa [hbytes, hsplit] at hflush

/-- Padding that is asked for is counted, and its last character flushes the block. -/
theorem decFeed_padding {cfg : Config} {t : Context} {c : CharUnit} {j : Nat} {bs : List Byte}
    (hc : padOf cfg (.block t.prof) = some c) (hq : padReq t.prof t.opts = true) (hm : 0 < t.mod) (hj : 0 < j)
    (hfull : t.mod + t.padRun + j = symbolsPerBlock t.prof)
    (hflush : partialFlush t.prof t.opts t.mod t.acc = .ok bs) :
    decFeed cfg t (List.replicate j c) = .ok ({ t with acc := 0, mod := 0, padRun := 0 }, bs) := by
  induction j generalizing t with
  | zero => exact absurd hj (lt_irrefl 0)
  | succ j ih =>
    rcases Nat.eq_zero_or_pos j with rfl | hj'
    · have hput := (decPutBody_pad hc).trans (decPadBody_flushes hq hm hfull hflush)
      simp only [List.replicate_succ, List.replicate_zero, decFeed, hput, List.append_nil]
    · have hput := (decPutBody_pad hc).trans (decPadBody_counts hq hm (by omega))
      have hfeed := ih (t := { t with padRun := t.padRun + 1 }) hc hq hm hj' (by rw [← hfull]; simp only; omega) hflush
      simp only [List.replicate_succ, decFeed, hput, hfeed, List.nil_append]

theorem decFeed_padding_unasked {cfg : Config} {t : Context} {c : CharUnit}
    (hc : padOf cfg (.block t.prof) = some c) (ho : has t.opts .padding = false) (j : Nat) :
    decFeed cfg t (List.replicate j c) = .ok (t, []) :=
  decFeed_ignored fun x hx => by
    rw [List.eq_of_mem_replicate hx]
    exact (decPutBody_pad hc).trans (decPadBody_unasked ho)

/-- The texts that the encoder ends a partial block with: its symbols, with their padding unless Unpad (R166). -/
theorem partialGroup_ok {cfg : Config} {p : BlockProfile} {o : Options} {r acc : Nat} {g : List CharUnit} {c : CharUnit}
    (hs : sizeOk cfg (.block p) = true) (hc : padOf cfg (.block p) = some c) (h : partialGroup cfg p o r acc = .ok g) :
    ∃ ds, symbolsAt cfg (.block p) (digits (blockRadix p) (nsym p r) (partialDigitsValue p (nsym p r) r acc)) = .ok ds ∧
      g = if has o .unpad = true then ds else ds ++ List.replicate (symbolsPerBlock p - nsym p r) c := by
  obtain ⟨ds, hds, -⟩ := blockDigits_defined hs (nsym p r) (partialDigitsValue p (nsym p r) r acc)
  rw [partialGroup_eq hds hc] at h
  cases h
  exact ⟨ds, hds, rfl⟩

/-- A decoder from `t` on takes the text, then its end of stream, and gives the bytes. -/
def Finishes (cfg : Config) (t : Context) (cs : List CharUnit) (bs : List Byte) : Prop :=
  ∃ u w ds ds', decFeed cfg t cs = .ok (u, ds) ∧ SameStream t u ∧ decEosBody u = .ok (w, ds') ∧ bs = ds ++ ds'

/-- The partial group finishes a decoder that was not asked for padding the encoder left out. -/
theorem finishes_partialGroup {cfg : Config} {p : BlockProfile} {o : Options} {r acc : Nat} {g : List CharUnit}
    (hok : configOk cfg = true) (hs : sizeOk cfg (.block p) = true) (h0 : 0 < r) (hr : r < bytesPerBlock p)
    (hacc : acc < 256 ^ r) (hpad : ¬ (has o .padding = true ∧ has o .unpad = true))
    (hg : partialGroup cfg p o r acc = .ok g) : Finishes cfg (freshContext .decoder p o) g (bytesBE r acc) := by
  have hrow := partialSymbols_complete h0 hr
  obtain ⟨c, hc⟩ := padOf_of_partial hrow cfg
  obtain ⟨-, -, hn0, hn⟩ := nbytes_of_row (partialRows_of_partialSymbols hrow)
  obtain ⟨ds, hds, hgroup⟩ := partialGroup_ok hs hc hg
  have hlt := partialDigitsValue_lt hrow hacc
  have hflush := partialFlush_partialDigitsValue o hrow hacc
  generalize partialDigitsValue p (nsym p r) r acc = v at hds hlt hflush
  have hsymbols := decFeed_partialSymbols (o := o) hok hds hn hlt
  cases hasked : has o .padding with
  | true =>
    have hunpad : ¬ has o .unpad = true := fun hu => hpad ⟨hasked, hu⟩
    rw [if_neg hunpad] at hgroup
    have hrun := decFeed_padding (t := partialDecoder p o (nsym p r) v) hc (padReq_of_padOf hc hasked) hn0
      (Nat.sub_pos_of_lt hn) (Nat.add_sub_cancel' hn.le) hflush
    refine ⟨freshContext .decoder p o, _, bytesBE r acc, [], ?_, ⟨rfl, rfl, rfl, rfl, rfl, rfl⟩, decEosBody_empty rfl,
      (List.append_nil _).symm⟩
    rw [hgroup]
    exact decFeed_append_ok hsymbols hrun
  | false =>
    refine ⟨partialDecoder p o (nsym p r) v, _, [], bytesBE r acc, ?_, ⟨rfl, rfl, rfl, rfl, rfl, rfl⟩,
      decEosBody_flushes hn0 hn (padReq_false hasked) hflush, rfl⟩
    have hrun := decFeed_padding_unasked (t := partialDecoder p o (nsym p r) v) hc hasked
    rw [hgroup]
    split
    · exact hsymbols
    · exact decFeed_append_ok hsymbols (hrun _)

end Sys2Proof.Machine
end

section
/-! SUPPORT. The whole text read back: a decoder follows the encoder block by block (42_block_decoder.md R214). -/

namespace Sys2Proof.Machine

/-- The encoder holds these bytes of a block it has not completed. -/
structure HoldsBytes (t : Context) (held : List Byte) : Prop where
  mod : t.mod = held.length
  acc : t.acc = valBE held

theorem HoldsBytes.acc_lt {t : Context} {held : List Byte} (h : HoldsBytes t held) : t.acc < 256 ^ t.mod := by
  rw [h.acc, h.mod]
  exact valBE_lt held

theorem HoldsBytes.bytesBE {t : Context} {held : List Byte} (h : HoldsBytes t held) : bytesBE t.mod t.acc = held := by
  rw [h.acc, h.mod]
  exact bytesBE_valBE held

/-- A byte folded in is held after the others (R162). -/
theorem HoldsBytes.push {t u : Context} {held : List Byte} {b : Byte} (h : HoldsBytes t held) (hm : u.mod = t.mod + 1)
    (ha : u.acc = t.acc * 256 + b.toNat) : HoldsBytes u (held ++ [b]) where
  mod := by rw [hm, h.mod, List.length_append, List.length_singleton]
  acc := by
    rw [ha, h.acc, valBE, valBE, List.map_append, List.map_singleton, valDigits_append_singleton]

/-- A decoder that reads what the encoder emitted gives the bytes of the completed blocks and holds nothing. -/
theorem decFeed_encFeed {cfg : Config} {t u : Context} {held bs : List Byte} {us : List CharUnit}
    (hok : configOk cfg = true) (hs : sizeOk cfg (.block t.prof) = true) (hfmt : FormattingApart cfg t.prof)
    (hheld : HoldsBytes t held) (hm : t.mod < bytesPerBlock t.prof) (h : encFeed cfg t bs = .ok (u, us)) :
    ∃ out held', held ++ bs = out ++ held' ∧ HoldsBytes u held' ∧ u.mod < bytesPerBlock t.prof ∧
      decFeed cfg (freshContext .decoder t.prof t.opts) us = .ok (freshContext .decoder t.prof t.opts, out) := by
  induction bs generalizing t held us with
  | nil =>
    cases h
    exact ⟨[], held, List.append_nil _, hheld, hm, rfl⟩
  | cons b bs ih =>
    obtain ⟨t1, us1, us2, hput, hfeed, rfl⟩ := encFeed_cons_ok h
    rcases encPutBody_cases hs b with ⟨hshort, hcase⟩ | ⟨hfull, g, gs, pos, hg, -, hemit, hcase⟩
    · rw [hcase] at hput
      cases hput
      obtain ⟨out, held', hsplit, hrest⟩ :=
        ih (t := { t with acc := t.acc * 256 + b.toNat, mod := t.mod + 1 }) hs hfmt (hheld.push rfl rfl)
          (Nat.lt_of_le_of_ne hm hshort) hfeed
      exact ⟨out, held', by rw [← hsplit, List.append_assoc, List.singleton_append], hrest⟩
    · rw [hcase] at hput
      cases hput
      obtain ⟨out, held', hsplit, hheld', hm', hrest⟩ :=
        ih (t := { t with acc := 0, mod := 0, linePos := pos }) (held := []) hs hfmt ⟨rfl, rfl⟩ (bytesPerBlock_pos _) hfeed
      have hblock := hheld.push (u := { t with acc := t.acc * 256 + b.toNat, mod := t.mod + 1 }) rfl rfl
      have hlt := hblock.acc_lt
      have hbytes := hblock.bytesBE
      simp only [hfull] at hlt hbytes
      have hdecoded := decFeed_emitGroup (n := t.linePos) hfmt ⟨rfl, rfl, rfl, rfl, rfl, rfl⟩
        (decFeed_block (o := t.opts) hok hg hlt)
      refine ⟨held ++ [b] ++ out, held', ?_, hheld', hm', ?_⟩
      · rw [List.append_assoc, List.append_assoc, ← hsplit]
        rfl
      · rw [← hbytes]
        rw [hemit] at hdecoded
        exact decFeed_append_ok hdecoded hrest

/-- The end of the encoder's stream finishes the decoder with the bytes held. -/
theorem finishes_encEosBody {cfg : Config} {t u : Context} {held : List Byte} {us : List CharUnit}
    (hok : configOk cfg = true) (hs : sizeOk cfg (.block t.prof) = true) (hfmt : FormattingApart cfg t.prof)
    (hpad : ¬ (has t.opts .padding = true ∧ t.prof ≠ .p16 ∧ has t.opts .unpad = true)) (hheld : HoldsBytes t held)
    (hm : t.mod < bytesPerBlock t.prof) (h : encEosBody cfg t = .ok (u, us)) :
    Finishes cfg (freshContext .decoder t.prof t.opts) us held := by
  rcases encEosBody_cases hs hm with ⟨h0, hcase⟩ | ⟨h0, g, gs, pos, hg, hemit, hcase⟩
  · rw [hcase] at h
    cases h
    obtain rfl : held = [] := List.length_eq_zero_iff.1 (hheld.mod ▸ h0)
    exact ⟨_, _, [], [], rfl, ⟨rfl, rfl, rfl, rfl, rfl, rfl⟩, decEosBody_empty rfl, rfl⟩
  · rw [hcase] at h
    cases h
    have hp16 : t.prof ≠ .p16 := by
      intro hp
      rw [hp] at hm
      exact absurd hm (Nat.not_lt.2 h0)
    obtain ⟨v, w, ds, ds', hfeed, hsame, heos, hout⟩ :=
      finishes_partialGroup hok hs h0 hm hheld.acc_lt (fun ⟨hasked, hunpad⟩ => hpad ⟨hasked, hp16, hunpad⟩) hg
    have hdecoded := decFeed_emitGroup (n := t.linePos) hfmt hsame hfeed
    rw [hemit] at hdecoded
    exact ⟨v, w, ds, ds', hdecoded, hsame, heos, hheld.bytesBE.symm.trans hout⟩

/-- The general engine gives back the bytes of an encoding (R214). -/
theorem generalDecode_blockEncode {cfg : Config} {p : BlockProfile} {o : Options} {bs : List Byte}
    {txt : List CharUnit} (hok : configOk cfg = true) (hs : sizeOk cfg (.block p) = true)
    (hfmt : FormattingApart cfg p) (hpad : ¬ (has o .padding = true ∧ p ≠ .p16 ∧ has o .unpad = true))
    (h : blockEncode cfg p o bs = .ok txt) : generalDecode cfg p o txt = .ok bs := by
  obtain ⟨t, us, u, vs, hfeed, heos, rfl⟩ := blockEncode_ok h
  obtain ⟨out, held, hsplit, hheld, hm, hdecoded⟩ :=
    decFeed_encFeed (t := freshContext .encoder p o) (held := []) hok hs hfmt ⟨rfl, rfl⟩ (bytesPerBlock_pos p) hfeed
  have hsame := encFeed_sameStream hfeed
  obtain rfl : t.prof = p := hsame.prof
  obtain rfl : t.opts = o := hsame.opts
  obtain ⟨v, w, ds, ds', hend, -, hdecEos, rfl⟩ := finishes_encEosBody hok hs hfmt hpad hheld hm heos
  obtain rfl : bs = out ++ (ds ++ ds') := hsplit
  rw [← List.append_assoc]
  exact generalDecode_of_parts (decFeed_append_ok hdecoded hend) hdecEos

end Sys2Proof.Machine
end

section
/-! SUPPORT. The fast path reads an unformatted P16 text back (45_fastpath.md R301, R304). -/

namespace Sys2Proof.Machine

/-- The symbols of the default table are the digits `hexval` reads. -/
theorem hexval_symbolAt {cfg : Config} {d : Nat} {c : CharUnit} (ha : alphabetOf cfg (.block .p16) = defaultAlpha16)
    (h : symbolAt cfg (.block .p16) d = some c) : hexval c = some d := by
  have hall : ∀ d < 16, defaultAlpha16.symbols[d]?.bind hexval = some d := by decide
  have hd : d < radixOf (.block .p16) := symbolAt_lt h
  rw [symbolAt, if_pos hd, ha] at h
  have hval := hall d hd
  rwa [h, Option.bind_some] at hval

/-- The pair of symbols of a byte is read as that byte. -/
theorem fastPairs_byte {cfg : Config} {b : Byte} {g : List CharUnit} (ha : alphabetOf cfg (.block .p16) = defaultAlpha16)
    (hg : symbolsAt cfg (.block .p16) (digits 16 2 b.toNat) = .ok g) {rest : List CharUnit} {bs : List Byte}
    (hrest : fastPairs rest = .ok bs) : fastPairs (g ++ rest) = .ok (b :: bs) := by
  have hsymbols : [b.toNat / 16 % 16, b.toNat % 16].map (symbolAt cfg (.block .p16)) = g.map some :=
    symbolsAt_iff.1 hg
  obtain ⟨c1, g1, rfl, h1, hg1⟩ := List.map_eq_cons_iff.1 hsymbols.symm
  obtain ⟨c2, g2, rfl, h2, hg2⟩ := List.map_eq_cons_iff.1 hg1
  obtain rfl : g2 = [] := List.map_eq_nil_iff.1 hg2
  have hvalue : b.toNat / 16 % 16 * 16 + b.toNat % 16 = b.toNat := by
    have hb := b.isLt
    omega
  simp only [List.cons_append, List.nil_append, fastPairs, hexval_symbolAt ha h1.symm, hexval_symbolAt ha h2.symm,
    hrest, hvalue, BitVec.ofNat_toNat, BitVec.setWidth_eq]

/-- Every byte of a P16 stream is a block, and without formatting its text is the pairs of the bytes. -/
theorem fastPairs_encFeed {cfg : Config} {t u : Context} {bs : List Byte} {us : List CharUnit}
    (ha : alphabetOf cfg (.block .p16) = defaultAlpha16) (hs : sizeOk cfg (.block t.prof) = true) (hp : t.prof = .p16)
    (hw : has t.opts .wrap = false) (hi : has t.opts .indent = false) (hacc : t.acc = 0) (hm : t.mod = 0)
    (h : encFeed cfg t bs = .ok (u, us)) : u.mod = 0 ∧ fastPairs us = .ok bs := by
  induction bs generalizing t us with
  | nil => cases h; exact ⟨hm, rfl⟩
  | cons b bs ih =>
    obtain ⟨t1, us1, us2, hput, hfeed, rfl⟩ := encFeed_cons_ok h
    rcases encPutBody_cases hs b with ⟨hshort, -⟩ | ⟨-, g, gs, pos, hg, -, hemit, hcase⟩
    · exact absurd (by rw [hm, hp]; rfl) hshort
    · rw [hcase] at hput
      cases hput
      obtain ⟨hmod, hpairs⟩ := ih (t := { t with acc := 0, mod := 0, linePos := pos }) hs hp hw hi rfl rfl hfeed
      obtain rfl := emitGroup_unformatted hw hi hemit
      rw [hp, hacc, Nat.zero_mul, Nat.zero_add] at hg
      exact ⟨hmod, fastPairs_byte ha hg hpairs⟩

/-- What the fast path asks of the table and the options (R300). -/
theorem fastEligible_spec {cfg : Config} {p : BlockProfile} {o : Options} (h : fastEligible cfg p o = true) :
    p = .p16 ∧ alphabetOf cfg (.block .p16) = defaultAlpha16 ∧ has o .pure = true ∧ has o .relax = false ∧
      has o .wrap = false ∧ has o .indent = false := by
  simpa [fastEligible, and_assoc] using h

/-- The fast path gives back the bytes of an encoding it serves. -/
theorem fastDecode_blockEncode {cfg : Config} {p : BlockProfile} {o : Options} {bs : List Byte} {txt : List CharUnit}
    (hs : sizeOk cfg (.block p) = true) (hf : fastEligible cfg p o = true) (h : blockEncode cfg p o bs = .ok txt) :
    fastDecode txt = .ok bs := by
  obtain ⟨rfl, ha, -, -, hw, hi⟩ := fastEligible_spec hf
  have hlen := blockEncode_length hs hw hi h
  obtain ⟨t, us, u, vs, hfeed, heos, rfl⟩ := blockEncode_ok h
  obtain ⟨hmod, hpairs⟩ := fastPairs_encFeed (t := freshContext .encoder .p16 o) ha hs rfl hw hi rfl rfl hfeed
  rw [encEosBody_empty hmod] at heos
  cases heos
  have heven : ¬ (us ++ []).length % 2 = 1 := by
    rw [hlen]
    simp [bytesPerBlock, symbolsPerBlock, Nat.mod_one]
  rw [fastDecode, if_neg heven, List.append_nil, hpairs]

/-- Either way BLK.DEC decodes, it gives back the bytes of an encoding (R212, R214). -/
theorem blockDecodeUnits_blockEncode {cfg : Config} {p : BlockProfile} {o : Options} {bs : List Byte}
    {txt : List CharUnit} (hok : configOk cfg = true) (hs : sizeOk cfg (.block p) = true)
    (hfmt : FormattingApart cfg p) (hpad : ¬ (has o .padding = true ∧ p ≠ .p16 ∧ has o .unpad = true))
    (h : blockEncode cfg p o bs = .ok txt) : blockDecodeUnits cfg p o txt = .ok (bytesToUnits bs) := by
  cases hf : fastEligible cfg p o with
  | true => rw [blockDecodeUnits, if_pos hf, fastDecode_blockEncode hs hf h]; rfl
  | false => rw [blockDecodeUnits_general hf, generalDecode_blockEncode hok hs hfmt hpad h]; rfl

end Sys2Proof.Machine
end

section
/-! SUPPORT. A TRY command runs the conversion of its raising form behind the same checks (60_exceptions.md R340, R344 item 1). -/

namespace Sys2Proof.Machine

/-- The second answer is the first with a format error turned into absence, as the command cycle reports them on `s`. -/
def ConvertsFormat (s : State) (r r' : BodyResult) : Prop :=
  (classFormat (finish r).lastErr → finish r' = absentState s) ∧
    (¬ classFormat (finish r).lastErr → finish r' = finish r)

theorem convertsFormat_refl {s : State} {r : BodyResult} (h : ¬ classFormat (finish r).lastErr) :
    ConvertsFormat s r r := ⟨fun hc => absurd hc h, fun _ => rfl⟩

theorem not_classFormat_config (e : ConfigError) : ¬ classFormat (configCode e) := by
  rw [classFormat, configCode_class]
  decide

theorem not_classFormat_internal (e : InternalError) : ¬ classFormat (internalCode e) := by
  rw [classFormat, internalCode_class]
  decide

/-- The two ends of a whole-buffer command differ on format errors alone. -/
theorem commit_convertsFormat (s : State) (r : Except Err (List CharUnit)) :
    ConvertsFormat s (commit (s.setAbsent false) r) (commitTry (s.setAbsent false) r) := by
  rcases r with (e | e | e) | us
  · exact convertsFormat_refl (not_classFormat_config e)
  · exact ⟨fun _ => rfl, fun hn => absurd (formatCode_class e) hn⟩
  · exact convertsFormat_refl (not_classFormat_internal e)
  · exact convertsFormat_refl (show ¬ successCode.toNat / 16 = 2 by decide)

/-- The checks before a body raise configuration errors, which stay raised. -/
theorem withProfile_convertsFormat {α : Type} {served : Except ConfigError α} {f : α → Profile} {s u : State}
    {body body' : α → BodyResult} (h : ∀ a, ConvertsFormat s (body a) (body' a)) :
    ConvertsFormat s (withProfile served f u body) (withProfile served f u body') := by
  cases served with
  | error e => exact convertsFormat_refl (not_classFormat_config e)
  | ok a =>
    simp only [withProfile]
    split
    · exact h a
    · exact convertsFormat_refl (not_classFormat_config .alphabetSize)

end Sys2Proof.Machine
end

section
/-! SUPPORT. TXT.PAD and TXT.UNPAD: one command cycle around two texts, what the texts are, and that each is its own fixed point (42_block_decoder.md R215 to R217). -/

namespace Sys2Proof.Machine

/-- What a TXT command makes with its text (R215, R216). -/
def textCommand (text : Config → Profile → List CharUnit → List CharUnit) (p : ProfCode) (s : State) : State :=
  runCommand s fun s => withProfile (servedAny p) id s fun q => commit s (.ok (text s.cfg q s.inp))

theorem exec_txtPad (o : Options) (p : ProfCode) (s : State) :
    exec (.txtPad o p) s = .next (textCommand padText p s) := rfl

theorem exec_txtUnpad (o : Options) (p : ProfCode) (s : State) :
    exec (.txtUnpad o p) s = .next (textCommand unpadText p s) := rfl

section
variable {text : Config → Profile → List CharUnit → List CharUnit} {p : ProfCode}

theorem textCommand_ok {q : Profile} {s : State} (hp : servedAny p = .ok q) (hs : sizeOk s.cfg q = true) :
    textCommand text p s = appended s (text s.cfg q s.inp) := by
  have hs' : sizeOk (s.setAbsent false).cfg (id q) = true := hs
  rw [textCommand, runCommand, hp, withProfile_ok hs']
  rfl

theorem configCode_ne_successCode (e : ConfigError) : configCode e ≠ successCode := by
  cases e <;> decide

/-- A TXT command that appends passed its checks and appended its text. -/
theorem textCommand_appended {s : State} {us : List CharUnit} (h : textCommand text p s = appended s us) :
    ∃ q, servedAny p = .ok q ∧ sizeOk s.cfg q = true ∧ us = text s.cfg q s.inp := by
  have herr : (textCommand text p s).lastErr = successCode := by rw [h]; rfl
  rcases withProfile_cases (servedAny p) id (s.setAbsent false)
      (fun q => commit (s.setAbsent false) (.ok (text s.cfg q s.inp))) with
    ⟨e, hp, -⟩ | ⟨q, hp, hs, -⟩ | ⟨q, hp, hs, -⟩
  · rw [textCommand, hp] at herr
    exact absurd herr (configCode_ne_successCode e)
  · have hs' : ¬ sizeOk (s.setAbsent false).cfg (id q) = true := by rw [hs]; exact Bool.false_ne_true
    rw [textCommand, runCommand, hp, withProfile, if_neg hs'] at herr
    exact absurd herr (configCode_ne_successCode .alphabetSize)
  · have hs' : sizeOk s.cfg q = true := hs
    refine ⟨q, hp, hs', ?_⟩
    rw [textCommand_ok hp hs'] at h
    exact (List.append_cancel_left (congrArg State.out h)).symm

/-- A text that is its own fixed point makes an idempotent command. -/
theorem textCommand_idempotent (htext : ∀ cfg q cs, text cfg q (text cfg q cs) = text cfg q cs) {s u : State}
    {us : List CharUnit} (h : textCommand text p s = appended s us) (hcfg : u.cfg = s.cfg) (hin : u.inp = us) :
    textCommand text p u = appended u us := by
  obtain ⟨q, hp, hs, rfl⟩ := textCommand_appended h
  rw [textCommand_ok hp (by rwa [hcfg]), hcfg, hin, htext]

end

theorem paddingOf_block (cfg : Config) (q : BlockProfile) :
    paddingOf cfg (.block q) = (padOf cfg (.block q)).map (·, symbolsPerBlock q) := by
  cases q <;> rfl

theorem paddingOf_pos {cfg : Config} {p : Profile} {c : CharUnit} {n : Nat} (h : paddingOf cfg p = some (c, n)) :
    0 < n := by
  rcases p with q | _
  · obtain ⟨_, -, hc⟩ := Option.map_eq_some_iff.1 ((paddingOf_block cfg q).symm.trans h)
    cases hc
    exact symbolsPerBlock_pos q
  · cases h

/-- Without a padding character the texts are the input. -/
theorem padText_none {cfg : Config} {p : Profile} (h : paddingOf cfg p = none) (cs : List CharUnit) :
    padText cfg p cs = cs := by
  rw [padText, h]

theorem unpadText_none {cfg : Config} {p : Profile} (h : paddingOf cfg p = none) (cs : List CharUnit) :
    unpadText cfg p cs = cs := by
  rw [unpadText, h]

theorem exec_txt_unpadded {q : Profile} {s : State} {p : ProfCode} (hp : servedAny p = .ok q)
    (hs : sizeOk s.cfg q = true) (hnone : paddingOf s.cfg q = none) (o : Options) :
    exec (.txtPad o p) s = .next (appended s s.inp) ∧ exec (.txtUnpad o p) s = .next (appended s s.inp) := by
  rw [exec_txtPad, exec_txtUnpad, textCommand_ok hp hs, textCommand_ok hp hs, padText_none hnone, unpadText_none hnone]
  exact ⟨rfl, rfl⟩

/-- The units R215 counts: symbols and padding characters. -/
def countsForPadding (cfg : Config) (p : Profile) (c x : CharUnit) : Bool := x == c || (indexOf cfg p x).isSome

/-- The padding that completes the last block. -/
def missingPadding (cfg : Config) (p : Profile) (c : CharUnit) (n : Nat) (cs : List CharUnit) : Nat :=
  (n - cs.countP (countsForPadding cfg p c) % n) % n

theorem padText_some {cfg : Config} {p : Profile} {c : CharUnit} {n : Nat} (h : paddingOf cfg p = some (c, n))
    (cs : List CharUnit) : padText cfg p cs = cs ++ List.replicate (missingPadding cfg p c n cs) c := by
  rw [padText, h]
  rfl

theorem unpadText_some {cfg : Config} {p : Profile} {c : CharUnit} {n : Nat} (h : paddingOf cfg p = some (c, n))
    (cs : List CharUnit) : unpadText cfg p cs = (cs.reverse.dropWhile (· == c)).reverse := by
  rw [unpadText, h]

theorem missingPadding_lt (cfg : Config) (p : Profile) (c : CharUnit) {n : Nat} (hn : 0 < n) (cs : List CharUnit) :
    missingPadding cfg p c n cs < n := Nat.mod_lt _ hn

theorem missingPadding_completes (cfg : Config) (p : Profile) (c : CharUnit) {n : Nat} (hn : 0 < n)
    (cs : List CharUnit) : (cs.countP (countsForPadding cfg p c) + missingPadding cfg p c n cs) % n = 0 := by
  have hlt := Nat.mod_lt (cs.countP (countsForPadding cfg p c)) hn
  rw [missingPadding, Nat.add_mod_mod, ← Nat.mod_add_mod, Nat.add_sub_cancel' hlt.le, Nat.mod_self]

/-- Padding characters count themselves, so a padded text is complete (R217). -/
theorem padText_padText (cfg : Config) (p : Profile) (cs : List CharUnit) :
    padText cfg p (padText cfg p cs) = padText cfg p cs := by
  cases h : paddingOf cfg p with
  | none => rw [padText_none h]
  | some cn =>
    obtain ⟨c, n⟩ := cn
    have hn := paddingOf_pos h
    have hcount : (padText cfg p cs).countP (countsForPadding cfg p c) % n = 0 := by
      rw [padText_some h, List.countP_append, List.countP_replicate, if_pos (by simp [countsForPadding])]
      exact missingPadding_completes cfg p c hn cs
    rw [padText_some h (padText cfg p cs), missingPadding, hcount, Nat.sub_zero, Nat.mod_self, List.replicate_zero,
      List.append_nil]

/-- A text that does not end in padding keeps everything but the padding after it (R216). -/
theorem unpadText_append_replicate {cfg : Config} {p : Profile} {c : CharUnit} {n : Nat}
    (h : paddingOf cfg p = some (c, n)) {keep : List CharUnit} (hlast : keep.getLast? ≠ some c) (j : Nat) :
    unpadText cfg p (keep ++ List.replicate j c) = keep := by
  have hkeep : keep.reverse.dropWhile (· == c) = keep.reverse := by
    rw [List.dropWhile_eq_self_iff]
    intro hlen hc
    refine hlast ?_
    rw [← List.head?_reverse, List.head?_eq_getElem?, List.getElem?_eq_getElem hlen]
    simpa using hc
  have hpad : ∀ x ∈ List.replicate j c, (x == c) = true := by
    intro x hx
    rw [List.eq_of_mem_replicate hx, beq_self_eq_true]
  rw [unpadText_some h, List.reverse_append, List.reverse_replicate, List.dropWhile_append_of_pos hpad, hkeep,
    List.reverse_reverse]

theorem unpadText_unpadText (cfg : Config) (p : Profile) (cs : List CharUnit) :
    unpadText cfg p (unpadText cfg p cs) = unpadText cfg p cs := by
  cases h : paddingOf cfg p with
  | none => rw [unpadText_none h]
  | some cn =>
    obtain ⟨c, n⟩ := cn
    rw [unpadText_some h, unpadText_some h, List.reverse_reverse, List.dropWhile_idempotent]

end Sys2Proof.Machine
end

section
/-! CERTIFICATES. The statements about the block decoder, its padding and the TRY commands, settled. -/

namespace Sys2Proof.Proofs

open Sys2Proof.Machine

/-- Settles O30: the encoding succeeds, and either decoding reads its text back. -/
theorem blockRoundTrip : Obligations.BlockRoundTrip := by
  intro s o q bs hok hsize hfmt hpad hin
  have hs : sizeOk s.cfg (.block q) = true := (sizeOk_iff _ _).2 hsize
  obtain ⟨txt, htxt⟩ := blockEncode_defined hs o bs
  refine ⟨txt, exec_blkEnc_ok hs hin htxt, fun u hcfg hu => ?_⟩
  have hdecoded : blockDecodeUnits u.cfg q o u.inp = .ok (bytesToUnits bs) := by
    rw [hcfg, hu]
    exact blockDecodeUnits_blockEncode hok hs hfmt hpad htxt
  rw [← hcfg] at hs
  rw [exec_blkDec_sized hs, exec_blkTryDec_sized hs, hdecoded]
  exact ⟨rfl, rfl⟩

/-- Settles O31: the checks pass on an open stream, and the body only folds the symbol in. -/
theorem decPutAccumulates : Obligations.DecPutAccumulates := by
  intro s c v ho hpad hlookup hrun hm
  rw [exec_decPut_ok ho ((decPutBody_sym hpad hlookup).trans (decSymBody_short hrun hm.ne)), bytesToUnits_nil,
    appended_nil]

/-- Settles O32: the whole block is written, or its excess fails the stream after the symbol was folded in. -/
theorem decPutWritesBlock : Obligations.DecPutWritesBlock := by
  rintro s c v a ho hpad hlookup hrun hm rfl
  have hbody := decPutBody_sym hpad hlookup
  refine ⟨fun hfits => ?written, fun hp24 hexcess hrelax => ?excess⟩
  case written =>
    obtain ⟨bs, hblock, hlen, hval⟩ := fullBlock_ok hfits
    exact ⟨bs, hlen, hval, exec_decPut_ok ho (hbody.trans (decSymBody_full hrun hm hblock))⟩
  case excess =>
    have hblock : fullBlock s.ctx.prof s.ctx.opts (s.ctx.acc * blockRadix s.ctx.prof + v) = .error .insignificant := by
      rw [hp24] at hexcess ⊢
      exact fullBlock_excess hexcess hrelax
    exact exec_decPut_fails_kept ho (hbody.trans (decSymBody_full_error hrun hm hblock))

/-- Settles O34: a run that has no symbol before it or a symbol inside it fails before the body writes. -/
theorem paddingPosition : Obligations.PaddingPosition := by
  intro s c ho hasked
  refine ⟨fun hpad hm => ?first, fun hpad hm hshort => ?counted, fun hpad hlookup hrun => ?inRun⟩
  case first =>
    exact exec_decPut_fails ho ((decPutBody_pad hpad).trans (decPadBody_first (padReq_of_padOf hpad hasked) hm))
  case counted =>
    rw [exec_decPut_ok ho
      ((decPutBody_pad hpad).trans (decPadBody_counts (padReq_of_padOf hpad hasked) hm hshort.ne)), bytesToUnits_nil,
      appended_nil]
  case inRun =>
    obtain ⟨v, hv⟩ := Option.ne_none_iff_exists'.1 hlookup
    exact exec_decPut_fails ho ((decPutBody_sym hpad hv).trans (decSymBody_inRun hrun))

/-- Settles O35: the three outcomes of the partial flush, run by the padding character that completes the block. -/
theorem paddingRunFlushes : Obligations.PaddingRunFlushes := by
  rintro s c q m r canon ho hasked hpad hrow rfl rfl hfull hacc
  obtain ⟨-, -, hm, -⟩ := nbytes_of_row hrow
  have hbody := decPutBody_pad hpad
  have hreq := padReq_of_padOf hpad hasked
  refine ⟨fun hok => ?flushed, fun hrelax hc => ?incomplete, fun hrelax hc hi => ?insignificant⟩
  case flushed =>
    obtain ⟨bs, hflush, hlen, hval⟩ := partialFlush_row_ok hrow hacc hok
    exact ⟨bs, hlen, hval, exec_decPut_ok ho (hbody.trans (decPadBody_flushes hreq hm hfull hflush))⟩
  case incomplete =>
    exact exec_decPut_fails_kept ho
      (hbody.trans (decPadBody_flush_error hreq hm hfull (partialFlush_row_incomplete hrow hrelax hc)))
  case insignificant =>
    exact exec_decPut_fails_kept ho
      (hbody.trans (decPadBody_flush_error hreq hm hfull (partialFlush_row_insignificant hrow hrelax hc hi)))

/-- Settles O36: nothing held, padding that is missing, or the three outcomes of the partial flush. -/
theorem decEosFlushes : Obligations.DecEosFlushes := by
  constructor
  · intro s ho hm
    rw [exec_decEos_ok ho (decEosBody_empty hm), bytesToUnits_nil, appended_nil]
  · rintro s q m r canon ho hrow rfl rfl hacc
    obtain ⟨-, -, h0, hlt⟩ := nbytes_of_row hrow
    refine ⟨fun hasked hp => exec_decEos_fails ho (decEosBody_missing h0 hlt (padReq_of_ne_p16 hp hasked)),
      fun hunasked => ?_⟩
    have hreq : padReq s.ctx.prof s.ctx.opts = false := by
      rcases hunasked with hunset | hp
      · exact padReq_false hunset
      · rw [hp]; exact padReq_p16 _
    refine ⟨fun hok => ?flushed, fun hrelax hc => ?incomplete, fun hrelax hc hi => ?insignificant⟩
    case flushed =>
      obtain ⟨bs, hflush, hlen, hval⟩ := partialFlush_row_ok hrow hacc hok
      exact ⟨bs, hlen, hval, exec_decEos_ok ho (decEosBody_flushes h0 hlt hreq hflush)⟩
    case incomplete =>
      exact exec_decEos_fails ho (decEosBody_flush_error h0 hlt hreq (partialFlush_row_incomplete hrow hrelax hc))
    case insignificant =>
      exact exec_decEos_fails ho
        (decEosBody_flush_error h0 hlt hreq (partialFlush_row_insignificant hrow hrelax hc hi))

/-- Settles O37: the rows by R205's and R161's tables as the model computes them, canonicity by its definition as a
search over the partial blocks. -/
theorem partialCountTable : Obligations.PartialCountTable := by
  refine ⟨?rows, ?split, ?symbols, ?canonical⟩
  case rows =>
    rintro ⟨q, m, r, canon⟩ hrow
    obtain ⟨hbytes, hcanon, -, -⟩ := nbytes_of_row hrow
    exact ⟨hbytes, hcanon⟩
  case split => exact fun ⟨q, m, r, canon⟩ hrow acc => splitPartial_of_row hrow acc
  case symbols =>
    rintro ⟨q, r, n⟩ hrow
    obtain ⟨-, -, hn, -, -⟩ := partialSymbols_spec hrow
    exact hn
  case canonical =>
    intro q m
    simp only [canonical, List.any_eq_true, List.mem_range, Bool.and_eq_true, decide_eq_true_eq, beq_iff_eq]
    exact exists_congr fun r => and_left_comm

/-- Settles O38: the streaming commands and BLK.DEC run the same decoding, and a failed stream keeps its error. -/
theorem blkDecEqualsStream : Obligations.BlkDecEqualsStream := by
  intro s o q hsize hfast
  have hs : sizeOk s.cfg (.block q) = true := (sizeOk_iff _ _).2 hsize
  cases hdec : generalDecode s.cfg q o s.inp with
  | ok bs =>
    obtain ⟨u, hrun, hfault, heosf⟩ := decodeStream_ok hs hdec
    refine ⟨_, hrun, fun _ => ⟨rfl, heosf, _, rfl, exec_blkDec_general_ok hs hfast hdec⟩, fun e he => ?_⟩
    exact absurd (hfault.symm.trans he) (Option.some_ne_none e).symm
  | error e =>
    obtain ⟨f, rfl⟩ := generalDecode_error hdec
    obtain ⟨u, hrun, hfailed⟩ := decodeStream_fails hs hdec
    refine ⟨u, hrun, fun hnone => ?_, fun e he => ?_⟩
    · exact absurd (hfailed.fault.symm.trans hnone) (Option.some_ne_none f)
    · obtain rfl : f = e := Option.some.inj (hfailed.fault.symm.trans he)
      exact ⟨hfailed.reported, exec_blkDec_general_error hs hfast hdec⟩

/-- Settles O39: the pairs run the same conversion behind the same checks and end in `commit` and `commitTry`. -/
theorem tryConvertsFormatErrors : Obligations.TryConvertsFormatErrors := by
  intro s t i j hpair ht
  have hconverts : ∃ r r', exec i s = .next (finish r) ∧ exec j s = .next (finish r') ∧ ConvertsFormat s r r' := by
    rcases hpair with ⟨o, p, ⟨rfl, rfl⟩ | ⟨rfl, rfl⟩⟩ | ⟨rfl, rfl⟩
    case inr => exact ⟨_, _, rfl, rfl, commit_convertsFormat s _⟩
    all_goals exact ⟨_, _, rfl, rfl, withProfile_convertsFormat fun _ => commit_convertsFormat s _⟩
  obtain ⟨r, r', hi, hj, hformat, hother⟩ := hconverts
  obtain rfl : finish r = t := Host.Outcome.next.inj (hi.symm.trans ht)
  exact ⟨fun hc => hj.trans (congrArg _ (hformat hc)), fun hn => hj.trans (congrArg _ (hother hn))⟩

/-- Settles O52: no padding character, or the padding that completes the last block and the longest padding suffix. -/
theorem paddingText : Obligations.PaddingText := by
  intro s o
  refine ⟨fun hsize => exec_txt_unpadded (servedAny_blockCode .p16) ((sizeOk_iff _ (.block .p16)).2 hsize) rfl o,
    fun hsize => exec_txt_unpadded servedAny_three ((sizeOk_iff _ .p58).2 hsize) rfl o, fun q c hsize hc => ?padded⟩
  case padded =>
    have hs : sizeOk s.cfg (.block q) = true := (sizeOk_iff _ _).2 hsize
    have hserved := servedAny_blockCode q
    have hpadding : paddingOf s.cfg (.block q) = some (c, symbolsPerBlock q) := by
      rw [paddingOf_block, hc, Option.map_some]
    have hS := symbolsPerBlock_pos q
    refine ⟨⟨_, missingPadding_lt s.cfg (.block q) c hS s.inp, missingPadding_completes s.cfg (.block q) c hS s.inp, ?_⟩,
      fun keep j hin hlast => ?_⟩
    · rw [exec_txtPad, textCommand_ok hserved hs, padText_some hpadding]
    · rw [exec_txtUnpad, textCommand_ok hserved hs, hin, unpadText_append_replicate hpadding hlast]

/-- Settles O53: each text is its own fixed point. -/
theorem paddingIdempotent : Obligations.PaddingIdempotent := by
  rintro s u o p i txt (rfl | rfl) h hcfg hin
  · exact congrArg Host.Outcome.next (textCommand_idempotent padText_padText (Host.Outcome.next.inj h) hcfg hin)
  · exact congrArg Host.Outcome.next (textCommand_idempotent unpadText_unpadText (Host.Outcome.next.inj h) hcfg hin)

end Sys2Proof.Proofs
end

section
/-! SUPPORT. POS.ENC and POS.DEC behind their checks: what the conversion gives is what the command reports (43_positional.md R252, R254). -/

namespace Sys2Proof.Machine

/-- POS.ENC appends what the encoding of its bytes gives. -/
theorem exec_posEnc_ok {s : State} {o : Options} {bs : List Byte} {txt : List CharUnit}
    (hs : sizeOk s.cfg .p58 = true) (hin : s.inp = bytesToUnits bs) (h : positionalEncode s.cfg o bs = .ok txt) :
    exec (.posEnc o 3#4) s = .next (appended s txt) := by
  rw [exec_posEnc_sized hs, hin, positionalEncodeUnits, unitsToBytes_bytesToUnits]
  simp only [h, commit_ok, finish_success_append]

/-- What POS.DEC leaves when its checks pass: the bytes appended, or the format error. -/
def posDecReport (s : State) : Except FormatError (List Byte) → State
  | .ok bs => appended s (bytesToUnits bs)
  | .error e => raised s (formatCode e)

/-- With a table of the right size POS.DEC reports what the decoding of IN gives (R254). -/
theorem exec_posDec_sized {s : State} (hs : sizeOk s.cfg .p58 = true) (o : Options) :
    exec (.posDec o 3#4) s = .next (posDecReport s (positionalDecode s.cfg o s.inp)) := by
  have hs' : sizeOk (s.setAbsent false).cfg .p58 = true := hs
  simp only [exec, execPosDec, runCommand, servedPositional_three, withProfile_ok (f := fun _ => Profile.p58) hs',
    State.setAbsent_cfg, State.setAbsent_inp, positionalDecodeUnits]
  cases positionalDecode s.cfg o s.inp <;> rfl

theorem formatCode_ne_successCode (e : FormatError) : formatCode e ≠ successCode := by
  cases e <;> decide

theorem bytesToUnits_injective {bs ds : List Byte} (h : bytesToUnits bs = bytesToUnits ds) : bs = ds :=
  Except.ok.inj ((unitsToBytes_bytesToUnits bs).symm.trans (h ▸ unitsToBytes_bytesToUnits ds))

/-- A command that appends raised no error. -/
theorem raised_ne_appended {s : State} {c : BitVec 8} (hc : c ≠ successCode) (us : List CharUnit) :
    raised s c ≠ appended s us :=
  fun h => hc (congrArg State.lastErr h)

/-- A POS.DEC that appends passed its checks and appended what the decoding of IN gives. -/
theorem positionalDecode_of_appended {s : State} {o : Options} {bs : List Byte}
    (h : exec (.posDec o 3#4) s = .next (appended s (bytesToUnits bs))) :
    sizeOk s.cfg .p58 = true ∧ positionalDecode s.cfg o s.inp = .ok bs := by
  have hs : sizeOk s.cfg .p58 = true := by
    by_contra hs
    have hwrong := (positionalCommands_check o 3#4 (.posDec o 3#4) (by simp [positionalCommands])).wrongSize
      servedPositional_three (fun hsize => hs ((sizeOk_iff _ .p58).2 hsize))
    exact raised_ne_appended (configCode_ne_successCode .alphabetSize) _
      (Host.Outcome.next.inj (hwrong.symm.trans h))
  rw [exec_posDec_sized hs] at h
  have hreport := Host.Outcome.next.inj h
  cases hdec : positionalDecode s.cfg o s.inp with
  | error e =>
    rw [hdec] at hreport
    exact absurd hreport (raised_ne_appended (formatCode_ne_successCode e) _)
  | ok ds =>
    rw [hdec] at hreport
    have hunits : bytesToUnits ds = bytesToUnits bs := List.append_cancel_left (congrArg State.out hreport)
    exact ⟨hs, congrArg _ (bytesToUnits_injective hunits)⟩

end Sys2Proof.Machine
end

section
/-! SUPPORT. The positional conversion with and without the checksum, and what it does to its own texts (43_positional.md R254, R256, R258). -/

namespace Sys2Proof.Machine

/-- Without Checksum the payload is what the symbols' values convert to (R254). -/
theorem positionalDecode_unchecked {cfg : Config} {o : Options} {cs : List CharUnit} {vs : List Nat}
    (hc : has o .checksum = false) (h : positionalValues cfg o cs = .ok vs) :
    positionalDecode cfg o cs = .ok (positionalBytes vs) := by
  simp only [positionalDecode, h, hc, Bool.false_eq_true, if_false]

/-- Under Checksum the payload is verified (R254, R256). -/
theorem positionalDecode_checked {cfg : Config} {o : Options} {cs : List CharUnit} {vs : List Nat}
    (hc : has o .checksum = true) (h : positionalValues cfg o cs = .ok vs) :
    positionalDecode cfg o cs = verifyChecksum cfg (positionalBytes vs) := by
  simp only [positionalDecode, h, hc, if_true]

theorem positionalDecode_invalid {cfg : Config} {o : Options} {cs : List CharUnit} {e : FormatError}
    (h : positionalValues cfg o cs = .error e) : positionalDecode cfg o cs = .error e := by
  simp only [positionalDecode, h]

/-- Clearing bit 6 of OPT clears Checksum and no other flag (30_encoding.md R104). -/
theorem has_clearChecksum (o : Options) (f : Flag) :
    has (o &&& 0xBF#8) f = if f = .checksum then false else has o f := by
  cases f <;> simp [has, flagBit]

/-- If a text converts to d with Checksum cleared, then with it the decoding is the verification of d (R256). -/
theorem positionalDecode_of_cleared {cfg : Config} {o : Options} {cs : List CharUnit} {d : List Byte}
    (hc : has o .checksum = true) (h : positionalDecode cfg (o &&& 0xBF#8) cs = .ok d) :
    positionalDecode cfg o cs = verifyChecksum cfg d := by
  have hskip : SameFlags [.relax, .pure, .wrap, .indent] o (o &&& 0xBF#8) := by
    simp [SameFlags, has_clearChecksum]
  have hcleared : has (o &&& 0xBF#8) .checksum = false := has_clearChecksum o .checksum
  cases hvals : positionalValues cfg o cs with
  | error e =>
    rw [positionalDecode_invalid (positionalValues_congr hskip ▸ hvals)] at h
    cases h
  | ok vs =>
    rw [positionalDecode_unchecked hcleared (positionalValues_congr hskip ▸ hvals)] at h
    rw [positionalDecode_checked hc hvals, Except.ok.inj h]

theorem verifyChecksum_short {cfg : Config} {d : List Byte} (h : d.length < 4) :
    verifyChecksum cfg d = .error .checksumShort := if_pos h

/-- The last 4 bytes are held against the tag of the rest (R256). -/
theorem verifyChecksum_append {cfg : Config} {x tag : List Byte} (ht : tag.length = 4) :
    verifyChecksum cfg (x ++ tag) =
      if checksumTag cfg.hash x = tag then .ok x else .error .checksumMismatch := by
  have hlong : ¬ (x ++ tag).length < 4 := by rw [List.length_append]; omega
  have hrest : (x ++ tag).length - 4 = x.length := by rw [List.length_append]; omega
  rw [verifyChecksum, if_neg hlong, hrest, List.take_left, List.drop_left]

/-- A text of symbols decodes to the bytes it was encoded from, the checksum verified and stripped (R258). -/
theorem positionalDecode_encode {cfg : Config} {o : Options} {bs : List Byte} {txt : List CharUnit}
    (hok : configOk cfg = true) (h : positionalEncode cfg o bs = .ok txt) : positionalDecode cfg o txt = .ok bs := by
  have hvals := positionalValues_symbols (o := o) hok h
  cases hc : has o .checksum with
  | false => rw [positionalDecode_unchecked hc hvals, positionalBytes_digits, checksummed, if_neg (by simp [hc])]
  | true =>
    rw [positionalDecode_checked hc hvals, positionalBytes_digits, checksummed, if_pos hc,
      verifyChecksum_append (checksumTag_length _ _), if_pos rfl]

end Sys2Proof.Machine
end

section
/-! SUPPORT. The text POS.ENC writes: a zero-symbol for each leading zero byte, then the symbols of a numeral, and how many they are (43_positional.md R252, R257, R260). -/

namespace Sys2Proof.Machine

/-- A run of one digit is a run of its symbol. -/
theorem symbolsAt_replicate_append {cfg : Config} {p : Profile} {v : Nat} {z : CharUnit} {ds : List Nat}
    {g : List CharUnit} (hz : symbolAt cfg p v = some z) (h : symbolsAt cfg p ds = .ok g) (k : Nat) :
    symbolsAt cfg p (List.replicate k v ++ ds) = .ok (List.replicate k z ++ g) := by
  rw [symbolsAt_iff] at h ⊢
  rw [List.map_append, List.map_append, List.map_replicate, List.map_replicate, hz, h]

/-- Symbols are distinct, so digits that do not start with v do not start with v's symbol (40_alphabet.md R142). -/
theorem symbolsAt_head?_ne {cfg : Config} {p : Profile} {v : Nat} {z : CharUnit} {ds : List Nat} {g : List CharUnit}
    (hok : configOk cfg = true) (hz : symbolAt cfg p v = some z) (h : symbolsAt cfg p ds = .ok g)
    (hne : ds.head? ≠ some v) : g.head? ≠ some z := by
  rw [symbolsAt_iff] at h
  intro hg
  have hhead : ds.head?.map (symbolAt cfg p) = some (some z) := by
    rw [← List.head?_map, h, List.head?_map, hg, Option.map_some]
  obtain ⟨d, hd, hdz⟩ := Option.map_eq_some_iff.1 hhead
  have hdv : d = v := Option.some.inj ((indexOf_symbolAt hok hdz).symm.trans (indexOf_symbolAt hok hz))
  exact hne (hdv ▸ hd)

/-- The text of a payload with k leading zero bytes (R252). -/
theorem positionalEncode_split {cfg : Config} {o : Options} {bs rest : List Byte} {k : Nat}
    (hs : sizeOk cfg .p58 = true) (hd : checksummed cfg o bs = List.replicate k 0#8 ++ rest)
    (hrest : rest.head? ≠ some 0#8) :
    ∃ z more, symbolAt cfg .p58 0 = some z ∧ symbolsAt cfg .p58 (numeral 58 (valBE rest)) = .ok more ∧
      positionalEncode cfg o bs = .ok (List.replicate k z ++ more) := by
  obtain ⟨z, hz⟩ := symbolAt_defined hs (show 0 < radixOf .p58 by decide)
  obtain ⟨more, hmore, -⟩ := symbolsAt_defined hs (numeral_lt (by decide) (valBE rest))
  refine ⟨z, more, hz, hmore, ?_⟩
  rw [positionalEncode, hd, positionalDigits_split k hrest]
  exact symbolsAt_replicate_append hz hmore k

theorem checksummed_length (cfg : Config) (o : Options) (bs : List Byte) :
    (checksummed cfg o bs).length = bs.length + if has o .checksum = true then 4 else 0 := by
  rw [checksummed]
  split
  · rw [List.length_append, checksumTag_length]
  · rfl

/-- A zero byte takes one symbol, the other bytes no more digits than the largest value of their length (R260). -/
theorem zeros_add_digits_le {rest : List Byte} {k j c : Nat} (hj : ∀ i < j, 58 ^ i ≤ valBE rest)
    (hc : 256 ^ (k + rest.length) ≤ 58 ^ c) : k + j ≤ c := by
  have hzeros : 58 ^ k ≤ 256 ^ k := Nat.pow_le_pow_left (by decide) k
  rw [pow_add] at hc
  cases j with
  | zero =>
    have hpow : 58 ^ k ≤ 58 ^ c := hzeros.trans ((Nat.le_mul_of_pos_right _ (by positivity)).trans hc)
    exact (Nat.pow_le_pow_iff_right (by decide)).1 hpow
  | succ j =>
    have hpow : 58 ^ (k + j) < 58 ^ c := by
      calc 58 ^ (k + j) = 58 ^ k * 58 ^ j := pow_add ..
        _ ≤ 256 ^ k * valBE rest := Nat.mul_le_mul hzeros (hj j j.lt_succ_self)
        _ < 256 ^ k * 256 ^ rest.length := Nat.mul_lt_mul_of_pos_left (valBE_lt rest) (by positivity)
        _ ≤ 58 ^ c := hc
    exact (Nat.pow_lt_pow_iff_right (by decide)).1 hpow

end Sys2Proof.Machine
end

section
/-! SUPPORT. A text without an invalid character decodes as its symbols alone do (43_positional.md R253). -/

namespace Sys2Proof.Machine

/-- The characters of a text that are symbols of P58 or synonyms. -/
def symbolsOnly (cfg : Config) (cs : List CharUnit) : List CharUnit :=
  cs.filter fun c => (indexOf cfg .p58 c).isSome

theorem filterMap_symbolsOnly (cfg : Config) (cs : List CharUnit) :
    (symbolsOnly cfg cs).filterMap (indexOf cfg .p58) = cs.filterMap (indexOf cfg .p58) := by
  rw [symbolsOnly, List.filterMap_filter]
  congr 1
  funext c
  cases indexOf cfg .p58 c <;> rfl

theorem positionalDecode_symbolsOnly {cfg : Config} {o : Options} {cs : List CharUnit}
    (h : ∀ c ∈ cs, indexOf cfg .p58 c = none → Skipped cfg o c) :
    positionalDecode cfg o (symbolsOnly cfg cs) = positionalDecode cfg o cs := by
  have hall : ∀ c ∈ symbolsOnly cfg cs, indexOf cfg .p58 c = none → Skipped cfg o c :=
    fun c hc => h c (List.mem_of_mem_filter hc)
  rw [positionalDecode, positionalDecode, positionalValues_filterMap h, positionalValues_filterMap hall,
    filterMap_symbolsOnly]

/-- What POS.DEC reports does not depend on IN but through the decoding. -/
theorem posDecReport_inp (s : State) (us : List CharUnit) (r : Except FormatError (List Byte)) :
    posDecReport { s with inp := us } r = { posDecReport s r with inp := us } := by
  cases r <;> rfl

end Sys2Proof.Machine
end

section
/-! CERTIFICATES. The statements about the positional codec, settled. -/

namespace Sys2Proof.Proofs

open Sys2Proof.Machine

/-- Settles O43: the encoding succeeds and its text decodes to the bytes; POS.TRYDEC does as POS.DEC, which raised no
format error. -/
theorem positionalRoundTrip : Obligations.PositionalRoundTrip := by
  intro s o bs hok hsize hin
  have hs : sizeOk s.cfg .p58 = true := (sizeOk_iff _ .p58).2 hsize
  obtain ⟨txt, htxt, -⟩ := positionalEncode_defined hs o bs
  refine ⟨txt, exec_posEnc_ok hs hin htxt, fun u hcfg hu => ?_⟩
  have hdec : exec (.posDec o 3#4) u = .next (appended u (bytesToUnits bs)) := by
    rw [exec_posDec_sized (hcfg ▸ hs), hcfg, hu, positionalDecode_encode hok htxt]
    rfl
  have hsuccess : ¬ classFormat (appended u (bytesToUnits bs)).lastErr := show ¬ successCode.toNat / 16 = 2 by decide
  have hpair := tryConvertsFormatErrors u _ _ (.posTryDec o 3#4) (.inl ⟨o, 3#4, .inr ⟨rfl, rfl⟩⟩) hdec
  exact ⟨hdec, hpair.2 hsuccess⟩

/-- Settles O44: the text splits as its payload does, and the numeral after the zero-symbols starts with another digit. -/
theorem leadingZeroPreservation : Obligations.LeadingZeroPreservation := by
  intro s o k rest hok hsize hc hrest hin
  have hs : sizeOk s.cfg .p58 = true := (sizeOk_iff _ .p58).2 hsize
  have hpayload : checksummed s.cfg o (List.replicate k 0#8 ++ rest) = List.replicate k 0#8 ++ rest := by
    rw [checksummed, hc, if_neg Bool.false_ne_true]
  obtain ⟨z, more, hz, hmore, htxt⟩ := positionalEncode_split hs hpayload hrest
  refine ⟨z, more, hz, symbolsAt_head?_ne hok hz hmore (numeral_head?_ne (by decide) _), exec_posEnc_ok hs hin htxt,
    fun u hcfg hu => ?_⟩
  rw [exec_posDec_sized (hcfg ▸ hs), hcfg, hu, positionalDecode_encode hok htxt]
  rfl

/-- Settles O45: the digits are the numeral of the rest's value, which is the shortest, and the capacity bound holds
already of the payload's length. -/
theorem positionalOutputLength : Obligations.PositionalOutputLength := by
  intro s o bs rest k j hsize hin hpayload hrest hlt hleast
  have hs : sizeOk s.cfg .p58 = true := (sizeOk_iff _ .p58).2 hsize
  obtain ⟨z, more, hz, hmore, htxt⟩ := positionalEncode_split hs hpayload hrest
  have hdigits : (numeral 58 (valBE rest)).length = j := numeral_length (by decide) hlt hleast
  refine ⟨z, numeral 58 (valBE rest), more, hz, hdigits, numeral_lt (by decide) _, valDigits_numeral (by decide) _,
    symbolsAt_iff.1 hmore, exec_posEnc_ok hs hin htxt, ?count, fun c hc => ?bound⟩
  case count => rw [List.length_append, List.length_replicate, symbolsAt_length hmore, hdigits]
  case bound =>
    have hlen : k + rest.length = bs.length + if has o .checksum = true then 4 else 0 := by
      have hsplit : (checksummed s.cfg o bs).length = (List.replicate k 0#8 ++ rest).length :=
        congrArg List.length hpayload
      rw [← checksummed_length s.cfg, hsplit, List.length_append, List.length_replicate]
    exact zeros_add_digits_le hleast (hlen ▸ hc)

/-- Settles O46: POS.DEC that appends d with Checksum cleared converted the text to d, so with Checksum it verifies d. -/
theorem checksumVerified : Obligations.ChecksumVerified := by
  intro s o d hc hcleared
  obtain ⟨hs, hdec⟩ := positionalDecode_of_appended hcleared
  rw [exec_posDec_sized hs, positionalDecode_of_cleared hc hdec]
  refine ⟨fun hshort => ?short, fun x tag hd htag =>
    ⟨fun (hmatch : checksumTag s.cfg.hash x = tag) => ?stripped,
      fun (hdiffers : checksumTag s.cfg.hash x ≠ tag) => ?mismatch⟩⟩
  case short => rw [verifyChecksum_short hshort]; rfl
  case stripped => rw [hd, verifyChecksum_append htag, if_pos hmatch]; rfl
  case mismatch => rw [hd, verifyChecksum_append htag, if_neg hdiffers]; rfl

/-- Settles O47: an invalid character, the text without its skippable characters, and the payload of the values. -/
theorem positionalFiltering : Obligations.PositionalFiltering := by
  intro s o hsize
  have hs : sizeOk s.cfg .p58 = true := (sizeOk_iff _ .p58).2 hsize
  refine ⟨fun hinvalid => ?invalid, fun hall => ?filtered, fun k vs hall hvs hhead hc => ?payload⟩
  case invalid =>
    rw [exec_posDec_sized hs, positionalDecode_invalid (positionalValues_invalid hinvalid)]
    rfl
  case filtered =>
    refine ⟨_, exec_posDec_sized (s := { s with inp := symbolsOnly s.cfg s.inp }) hs o, ?_⟩
    rw [exec_posDec_sized hs, posDecReport_inp, positionalDecode_symbolsOnly hall]
    cases positionalDecode s.cfg o s.inp <;> rfl
  case payload =>
    have hvals : positionalValues s.cfg o s.inp = .ok (List.replicate k 0 ++ vs) :=
      hvs ▸ positionalValues_filterMap hall
    refine ⟨minBE (valDigits 58 vs), minBE_head?_ne _, valBE_minBE _, ?_⟩
    rw [exec_posDec_sized hs, positionalDecode_unchecked hc hvals, positionalBytes_split k hhead]
    rfl

end Sys2Proof.Proofs
end

section
/-! SUPPORT. What the two capacity commands leave when their checks pass, and that their results fit RES (44_capacity.md R281, R282). -/

namespace Sys2Proof.Machine

/-- What a capacity command makes with the count in ARG (R281, R282). -/
def capacityCommand (bound : Config → Profile → Nat → Nat) (p : ProfCode) (s : State) : State :=
  runCommand s fun s => withProfile (servedAny p) id s fun q => .success (s.setRes (resOf (bound s.cfg q s.arg.toNat)))

/-- When the checks pass, RES takes the bound and nothing else changes but the report. -/
theorem capacityCommand_ok {bound : Config → Profile → Nat → Nat} {p : ProfCode} {q : Profile} {s : State}
    (hp : servedAny p = .ok q) (hs : sizeOk s.cfg q = true) :
    capacityCommand bound p s = { quiet s with res := resOf (bound s.cfg q s.arg.toNat) } := by
  have hs' : sizeOk (s.setAbsent false).cfg (id q) = true := hs
  rw [capacityCommand, runCommand, hp, withProfile_ok hs']
  rfl

theorem exec_capMaxChar_ok {p : ProfCode} {q : Profile} {s : State} (hp : servedAny p = .ok q)
    (hs : sizeOk s.cfg q = true) (o : Options) :
    exec (.capMaxChar o p) s = .next { quiet s with res := resOf (maxChar s.cfg q o s.arg.toNat) } :=
  congrArg Host.Outcome.next (capacityCommand_ok (bound := fun cfg q => maxChar cfg q o) hp hs)

theorem exec_capMaxByte_ok {p : ProfCode} {q : Profile} {s : State} (hp : servedAny p = .ok q)
    (hs : sizeOk s.cfg q = true) (o : Options) :
    exec (.capMaxByte o p) s = .next { quiet s with res := resOf (maxByte q s.arg.toNat) } :=
  congrArg Host.Outcome.next (capacityCommand_ok (bound := fun _ => maxByte) hp hs)

theorem wrapEff_iff (q : BlockProfile) (o : Options) :
    wrapEff q o = true ↔ has o .wrap = true ∨ (q = .p24 ∧ has o .indent = true) := by
  simp [wrapEff]

theorem sepEff_iff (q : BlockProfile) (o : Options) : sepEff q o = true ↔ has o .indent = true ∧ q ≠ .p24 := by
  simp [sepEff]

/-- The symbols of a 32-bit count are fewer than 2^33. -/
theorem blockChars_lt (q : BlockProfile) (o : Options) {n : Nat} (h : n < 2 ^ 32) : blockChars q o n < 2 ^ 33 := by
  cases q <;> simp only [blockChars, ceilDiv, symbolsPerBlock, bytesPerBlock] <;> split <;> omega

/-- R281's bound: under a NEWLINE shorter than 2^29 a result of CAP.MAXCHAR fits 64 bits. -/
theorem maxChar_lt {cfg : Config} (hnl : cfg.newline.length < 2 ^ 29) (q : Profile) (o : Options) {n : Nat}
    (h : n < 2 ^ 32) : maxChar cfg q o n < 2 ^ 64 := by
  cases q with
  | p58 =>
    have hpos := (posLen_spec (n + if has o .checksum then 4 else 0)).2.1
    have htag : (if has o .checksum then 4 else 0) ≤ 4 := by split <;> omega
    simp only [maxChar]
    omega
  | block q =>
    have hc := blockChars_lt q o h
    have hbreaks : blockChars q o n / lineWidth cfg q * cfg.newline.length ≤ 2 ^ 33 * 2 ^ 29 :=
      Nat.mul_le_mul ((Nat.div_le_self _ _).trans hc.le) hnl.le
    have hgroups : ceilDiv n (bytesPerBlock q) ≤ n := by
      cases q <;> simp only [ceilDiv, bytesPerBlock] <;> omega
    simp only [maxChar]
    split <;> split <;> omega

/-- What CAP.MAXCHAR writes is R281's bound itself. -/
theorem resOf_maxChar {cfg : Config} (hnl : cfg.newline.length < 2 ^ 29) (q : Profile) (o : Options) (n : RegWord) :
    (resOf (maxChar cfg q o n.toNat)).toNat = maxChar cfg q o n.toNat :=
  resOf_toNat (maxChar_lt hnl q o n.isLt)

/-- R282's bound is at most the character count. -/
theorem maxByte_le (q : Profile) (m : Nat) : maxByte q m ≤ m := by
  cases q with
  | p58 => exact le_rfl
  | block q => cases q <;> simp only [maxByte, ceilDiv, bytesPerBlock, symbolsPerBlock] <;> omega

/-- What CAP.MAXBYTE writes is R282's bound itself. -/
theorem resOf_maxByte (q : Profile) (m : RegWord) : (resOf (maxByte q m.toNat)).toNat = maxByte q m.toNat :=
  resOf_toNat ((maxByte_le q _).trans_lt (m.isLt.trans (by decide)))

/-- ARG holds a count below 2^32 as it is (10_state.md R42). -/
theorem arg_toNat {s : State} {n : Nat} (h : s.arg = BitVec.ofNat 32 n) (hn : n < 2 ^ 32) : s.arg.toNat = n := by
  rw [h, BitVec.toNat_ofNat, Nat.mod_eq_of_lt hn]

end Sys2Proof.Machine
end

section
/-! SUPPORT. The formatted length of an encoding: a separator at most for each group, a line break at most for each full line width of symbols (41_block_encoder.md R167, 44_capacity.md R283). -/

namespace Sys2Proof.Machine

/-- `us` is `c` symbols in `n` groups with R167's formatting, and takes the line position from `pos` to `pos'`: at most
one separator for each group, and each line break uses up a line width of symbols. -/
def FormattedWithin (cfg : Config) (p : BlockProfile) (o : Options) (pos pos' c n : Nat) (us : List CharUnit) : Prop :=
  ∃ breaks seps, us.length = c + breaks * cfg.newline.length + seps ∧ breaks * lineWidth cfg p + pos' ≤ pos + c ∧
    seps ≤ n ∧ (wrapEff p o = false → breaks = 0) ∧ (sepEff p o = false → seps = 0)

section
variable {cfg : Config} {p : BlockProfile} {o : Options}

theorem formattedWithin_nil (pos : Nat) : FormattedWithin cfg p o pos pos 0 0 [] :=
  ⟨0, 0, by simp, by simp, le_rfl, fun _ => rfl, fun _ => rfl⟩

theorem FormattedWithin.append {pos pos' pos'' c c' n n' : Nat} {us vs : List CharUnit}
    (hu : FormattedWithin cfg p o pos pos' c n us) (hv : FormattedWithin cfg p o pos' pos'' c' n' vs) :
    FormattedWithin cfg p o pos pos'' (c + c') (n + n') (us ++ vs) := by
  obtain ⟨k, j, hlen, hpos, hsep, hnoBreak, hnoSep⟩ := hu
  obtain ⟨k', j', hlen', hpos', hsep', hnoBreak', hnoSep'⟩ := hv
  refine ⟨k + k', j + j', ?_, by rw [Nat.add_mul]; omega, Nat.add_le_add hsep hsep',
    fun h => by rw [hnoBreak h, hnoBreak' h], fun h => by rw [hnoSep h, hnoSep' h]⟩
  rw [List.length_append, hlen, hlen', Nat.add_mul]
  omega

/-- A group takes at most one separator, and a line break only where its line is full (R167). -/
theorem formattedWithin_emitGroup {pos pos' : Nat} {g us : List CharUnit}
    (h : emitGroup cfg p o pos g = (us, pos')) : FormattedWithin cfg p o pos pos' g.length 1 us := by
  obtain ⟨sepr, hsepr, hone, hnoSep⟩ : ∃ sepr : List CharUnit,
      (if sepEff p o && decide (0 < pos) then [0x20#16] else []) = sepr ∧ sepr.length ≤ 1 ∧
        (sepEff p o = false → sepr.length = 0) := by
    refine ⟨_, rfl, ?_, fun hs => by rw [hs]; rfl⟩
    split <;> decide
  simp only [emitGroup, hsepr] at h
  split at h
  next hbreak =>
    obtain ⟨hwrap, hfull⟩ := Bool.and_eq_true_iff.1 hbreak
    have hline := of_decide_eq_true hfull
    cases h
    refine ⟨1, sepr.length, ?_, by omega, hone, fun hw => absurd hwrap (Bool.eq_false_iff.1 hw), hnoSep⟩
    rw [List.length_append, List.length_append]
    omega
  next =>
    cases h
    refine ⟨0, sepr.length, ?_, by omega, hone, fun _ => rfl, hnoSep⟩
    rw [List.length_append]
    omega

/-- From the start of a line the breaks are at most R281's quotient. -/
theorem FormattedWithin.length_le {pos' c n : Nat} {us : List CharUnit} (hW : 0 < lineWidth cfg p)
    (h : FormattedWithin cfg p o 0 pos' c n us) :
    us.length ≤ c + (if wrapEff p o then c / lineWidth cfg p * cfg.newline.length else 0) +
      (if sepEff p o then n else 0) := by
  obtain ⟨k, j, hlen, hpos, hsep, hnoBreak, hnoSep⟩ := h
  have hbreaks : k * cfg.newline.length ≤ if wrapEff p o then c / lineWidth cfg p * cfg.newline.length else 0 := by
    split
    next => exact Nat.mul_le_mul_right _ ((Nat.le_div_iff_mul_le hW).2 (by omega))
    next hw => rw [hnoBreak (Bool.eq_false_iff.2 hw), Nat.zero_mul]
  have hseps : j ≤ if sepEff p o then n else 0 := by
    split
    next => exact hsep
    next hs => exact (hnoSep (Bool.eq_false_iff.2 hs)).le
  rw [hlen]
  exact Nat.add_le_add (Nat.add_le_add_left hbreaks c) hseps

end

/-- Each block completed emits one group of S symbols; the bytes beyond are held. -/
theorem encFeed_formatted {cfg : Config} {t u : Context} {bs : List Byte} {vs : List CharUnit}
    (hs : sizeOk cfg (.block t.prof) = true) (hm : t.mod < bytesPerBlock t.prof) (h : encFeed cfg t bs = .ok (u, vs)) :
    u.mod = (t.mod + bs.length) % bytesPerBlock t.prof ∧
      FormattedWithin cfg t.prof t.opts t.linePos u.linePos
        ((t.mod + bs.length) / bytesPerBlock t.prof * symbolsPerBlock t.prof)
        ((t.mod + bs.length) / bytesPerBlock t.prof) vs := by
  have hB := bytesPerBlock_pos t.prof
  induction bs generalizing t vs with
  | nil =>
    cases h
    rw [List.length_nil, Nat.add_zero, Nat.mod_eq_of_lt hm, Nat.div_eq_of_lt hm, Nat.zero_mul]
    exact ⟨rfl, formattedWithin_nil _⟩
  | cons b bs ih =>
    obtain ⟨t1, us, us', hput, hfeed, rfl⟩ := encFeed_cons_ok h
    rcases encPutBody_cases hs b with ⟨hshort, hcase⟩ | ⟨hfull, g, gs, pos, -, hg, hemit, hcase⟩
    · rw [hcase] at hput
      cases hput
      have hcount : t.mod + (b :: bs).length = t.mod + 1 + bs.length := by rw [List.length_cons]; omega
      rw [hcount]
      exact ih (t := { t with acc := t.acc * 256 + b.toNat, mod := t.mod + 1 }) hs
        (Nat.lt_of_le_of_ne hm hshort) hfeed hB
    · rw [hcase] at hput
      cases hput
      have hcount : t.mod + (b :: bs).length = 0 + bs.length + bytesPerBlock t.prof := by rw [List.length_cons]; omega
      obtain ⟨hmod, hrest⟩ := ih (t := { t with acc := 0, mod := 0, linePos := pos }) hs hB hfeed hB
      have hgroup := formattedWithin_emitGroup hemit
      rw [hg] at hgroup
      rw [hcount, Nat.add_mod_right, Nat.add_div_right _ hB, Nat.add_comm _ 1, Nat.add_mul, Nat.one_mul]
      exact ⟨hmod, hgroup.append hrest⟩

/-- The symbols and padding of the partial block that holds r bytes. -/
def partialChars (p : BlockProfile) (o : Options) (r : Nat) : Nat :=
  if r = 0 then 0 else if has o .unpad = true then nsym p r else symbolsPerBlock p

/-- End of stream emits one group, the partial one, where bytes are held. -/
theorem encEosBody_formatted {cfg : Config} {t u : Context} {vs : List CharUnit}
    (hs : sizeOk cfg (.block t.prof) = true) (hm : t.mod < bytesPerBlock t.prof) (h : encEosBody cfg t = .ok (u, vs)) :
    FormattedWithin cfg t.prof t.opts t.linePos u.linePos (partialChars t.prof t.opts t.mod)
      (if t.mod = 0 then 0 else 1) vs := by
  rcases encEosBody_cases hs hm with ⟨h0, hcase⟩ | ⟨h0, g, gs, pos, hg, hemit, hcase⟩
  · rw [hcase] at h
    cases h
    rw [partialChars, if_pos h0, if_pos h0]
    exact formattedWithin_nil _
  · rw [hcase] at h
    cases h
    rw [partialChars, if_neg h0.ne', if_neg h0.ne', ← partialGroup_length hs h0 hm hg]
    exact formattedWithin_emitGroup hemit

/-- The groups of n bytes: the whole blocks and the partial one. -/
theorem ceilDiv_eq_div_add {b : Nat} (hb : 0 < b) (n : Nat) : ceilDiv n b = n / b + if n % b = 0 then 0 else 1 := by
  have hlt := Nat.mod_lt n hb
  have hrest : ceilDiv (n % b) b = if n % b = 0 then 0 else 1 := by
    rw [ceilDiv]
    split
    next h0 => rw [h0, Nat.zero_add, Nat.div_eq_of_lt (Nat.sub_lt hb Nat.one_pos)]
    next h0 => exact Nat.div_eq_of_lt_le (by omega) (by omega)
  have hsplit := ceilDiv_blocks hb n 1
  rwa [Nat.mul_one, Nat.mul_one, Nat.mul_one, hrest] at hsplit

/-- R281's symbols and padding are those of the whole blocks and of the partial one. -/
theorem blockChars_eq (q : BlockProfile) (o : Options) (n : Nat) :
    blockChars q o n = n / bytesPerBlock q * symbolsPerBlock q + partialChars q o (n % bytesPerBlock q) := by
  have hB := bytesPerBlock_pos q
  rw [blockChars, partialChars]
  split
  next => rw [ceilDiv_blocks hB, partialCount_eq_ceilDiv (Nat.mod_lt _ hB)]
  next => rw [ceilDiv_eq_div_add hB, Nat.add_mul, ite_mul, Nat.zero_mul, Nat.one_mul]

/-- What BLK.ENC appends is at most R281's bound (R283). -/
theorem blockEncode_length_le {cfg : Config} {q : BlockProfile} {o : Options} {bs : List Byte} {txt : List CharUnit}
    (hok : configOk cfg = true) (hs : sizeOk cfg (.block q) = true) (h : blockEncode cfg q o bs = .ok txt) :
    txt.length ≤ maxChar cfg (.block q) o bs.length := by
  obtain ⟨t, us, u, vs, hfeed, heos, rfl⟩ := blockEncode_ok h
  have hB := bytesPerBlock_pos q
  obtain ⟨hmod, hblocks⟩ := encFeed_formatted (t := freshContext .encoder q o) hs hB hfeed
  obtain rfl : t.prof = q := (encFeed_sameStream hfeed).prof
  obtain rfl : t.opts = o := (encFeed_sameStream hfeed).opts
  have hpartial := encEosBody_formatted hs (hmod ▸ Nat.mod_lt _ hB) heos
  have hall := (hblocks.append hpartial).length_le (lineWidth_pos hok _)
  simp only [freshContext, Nat.zero_add] at hmod hall
  rwa [hmod, ← blockChars_eq, ← ceilDiv_eq_div_add hB] at hall

end Sys2Proof.Machine
end

section
/-! SUPPORT. The length of a positional encoding (43_positional.md R260, 44_capacity.md R283). -/

namespace Sys2Proof.Machine

/-- A numeral has no more digits than the number needs. -/
theorem pow_le_of_lt_numeral_length {r n i : Nat} (hr : 1 < r) (hi : i < (numeral r n).length) : r ^ i ≤ n := by
  have hne : numeral r n ≠ [] := List.ne_nil_of_length_pos (Nat.zero_lt_of_lt hi)
  have hlead := pow_le_valDigits (r := r) (numeral_head?_ne hr n) hne
  rw [valDigits_numeral hr] at hlead
  exact (Nat.pow_le_pow_right hr.le (Nat.le_sub_one_of_lt hi)).trans hlead

/-- The digits of a payload are at most `pos_len` of its length (R280). -/
theorem positionalDigits_length_le (d : List Byte) : (positionalDigits d).length ≤ posLen d.length := by
  have hsplit := congrArg List.length (zlead_split d 0#8).1
  rw [List.length_append, List.length_replicate] at hsplit
  have hcap := (posLen_spec d.length).1
  rw [positionalDigits, List.length_append, List.length_replicate]
  exact zeros_add_digits_le (fun i hi => pow_le_of_lt_numeral_length (by decide) hi) (hsplit ▸ hcap)

/-- What POS.ENC appends is at most R281's bound (R283). -/
theorem positionalEncode_length_le {cfg : Config} {o : Options} {bs : List Byte} {txt : List CharUnit}
    (h : positionalEncode cfg o bs = .ok txt) : txt.length ≤ maxChar cfg .p58 o bs.length := by
  rw [symbolsAt_length h, maxChar, ← checksummed_length cfg]
  exact positionalDigits_length_le _

end Sys2Proof.Machine
end

section
/-! SUPPORT. The length of a decoding: no block gives more bytes for its symbols than B for S, no base-58 symbol more than one (42_block_decoder.md R205 to R208, 43_positional.md R254, 44_capacity.md R284). -/

namespace Sys2Proof.Machine

/-- A partial block gives no more bytes for its symbols than a whole one (R205, R284). -/
theorem nbytes_mul_le {q : BlockProfile} {m : Nat} (hm : m < symbolsPerBlock q) :
    nbytes q m * symbolsPerBlock q ≤ m * bytesPerBlock q := by
  have htable : ∀ q : BlockProfile, ∀ m < symbolsPerBlock q, nbytes q m * symbolsPerBlock q ≤ m * bytesPerBlock q := by
    intro q
    cases q <;> decide
  exact htable q m hm

theorem partialFlush_length {p : BlockProfile} {o : Options} {m acc : Nat} {bs : List Byte}
    (h : partialFlush p o m acc = .ok bs) : bs.length = nbytes p m := by
  simp only [partialFlush] at h
  split at h
  · cases h
  · split at h
    · cases h
    · cases h; exact bytesBE_length _ _

theorem fullBlock_length {p : BlockProfile} {o : Options} {acc : Nat} {bs : List Byte}
    (h : fullBlock p o acc = .ok bs) : bs.length = bytesPerBlock p := by
  simp only [fullBlock] at h
  split at h
  · split at h
    · cases h; exact bytesBE_length _ _
    · cases h
  · cases h; exact bytesBE_length _ _

/-- A character brings at most one symbol: the bytes emitted and the symbols still held are paid for by the symbols held
before and this one. -/
theorem decPutBody_length {cfg : Config} {t u : Context} {c : CharUnit} {bs : List Byte}
    (h : decPutBody cfg t c = .ok (u, bs)) :
    bs.length * symbolsPerBlock t.prof + u.mod * bytesPerBlock t.prof ≤ (t.mod + 1) * bytesPerBlock t.prof := by
  have hgrow : t.mod * bytesPerBlock t.prof ≤ (t.mod + 1) * bytesPerBlock t.prof := Nat.mul_le_mul_right _ t.mod.le_succ
  rcases decPutBody_cases cfg t c with hcase | ⟨-, -, -, hcase⟩ | ⟨ds, -, hrun, hflush, hcase⟩ | ⟨v, -, -, -, hcase⟩ |
      ⟨v, ds, -, -, hfull, hblock, hcase⟩ | ⟨e, k, hcase, -⟩ <;>
    rw [hcase] at h <;> cases h
  case inl => simpa using hgrow
  case inr.inl => simpa using hgrow
  case inr.inr.inl =>
    rw [partialFlush_length hflush, Nat.zero_mul, Nat.add_zero]
    exact (nbytes_mul_le (by omega)).trans hgrow
  case inr.inr.inr.inl => simp
  case inr.inr.inr.inr.inl =>
    rw [fullBlock_length hblock, hfull, Nat.zero_mul, Nat.add_zero, Nat.mul_comm]

theorem decEosBody_length {t u : Context} {bs : List Byte} (h : decEosBody t = .ok (u, bs)) :
    bs.length * symbolsPerBlock t.prof ≤ t.mod * bytesPerBlock t.prof := by
  rcases decEosBody_cases t with ⟨-, hcase⟩ | ⟨-, hcase⟩ | ⟨-, -, -, hcase⟩ | ⟨ds, -, hm, -, hflush, hcase⟩ |
      ⟨e, -, -, -, -, hcase⟩ <;>
    rw [hcase] at h <;> cases h
  case inr.inl => simp
  case inr.inr.inr.inl => exact partialFlush_length hflush ▸ nbytes_mul_le hm

theorem decFeed_sameStream {cfg : Config} {t u : Context} {cs : List CharUnit} {bs : List Byte}
    (h : decFeed cfg t cs = .ok (u, bs)) : SameStream t u := by
  induction cs generalizing t bs with
  | nil => cases h; exact ⟨rfl, rfl, rfl, rfl, rfl, rfl⟩
  | cons c cs ih =>
    obtain ⟨t1, ds, ds', hput, hfeed, -⟩ := decFeed_cons_ok h
    exact (decPutBody_sameStream hput).trans (ih hfeed)

theorem decFeed_length {cfg : Config} {t u : Context} {cs : List CharUnit} {bs : List Byte}
    (h : decFeed cfg t cs = .ok (u, bs)) :
    bs.length * symbolsPerBlock t.prof + u.mod * bytesPerBlock t.prof ≤ (t.mod + cs.length) * bytesPerBlock t.prof := by
  induction cs generalizing t bs with
  | nil => cases h; simp
  | cons c cs ih =>
    obtain ⟨t1, ds, ds', hput, hfeed, rfl⟩ := decFeed_cons_ok h
    have hfirst := decPutBody_length hput
    have hrest := ih hfeed
    rw [(decPutBody_sameStream hput).prof] at hrest
    rw [List.length_append, List.length_cons]
    linarith

/-- The general engine's bytes are at most B for S characters. -/
theorem generalDecode_length {cfg : Config} {p : BlockProfile} {o : Options} {cs : List CharUnit} {bs : List Byte}
    (h : generalDecode cfg p o cs = .ok bs) : bs.length * symbolsPerBlock p ≤ cs.length * bytesPerBlock p := by
  obtain ⟨t, ds, u, ds', hfeed, heos, rfl⟩ := generalDecode_ok h
  have hheld := decFeed_length hfeed
  obtain rfl : t.prof = p := (decFeed_sameStream hfeed).prof
  have hlast := decEosBody_length heos
  simp only [freshContext, Nat.zero_add] at hheld
  rw [List.length_append, Nat.add_mul]
  omega

/-- The fast path makes one byte of two characters (45_fastpath.md R301). -/
theorem fastPairs_length {cs : List CharUnit} {bs : List Byte} (h : fastPairs cs = .ok bs) :
    bs.length * 2 ≤ cs.length := by
  induction cs using fastPairs.induct generalizing bs with
  | case1 c1 c2 rest hi lo hhi hlo ds hrest ih =>
    simp only [fastPairs, hhi, hlo, hrest] at h
    cases h
    have hds := ih hrest
    simp only [List.length_cons]
    omega
  | case2 c1 c2 rest hi lo hhi hlo e hrest ih =>
    simp only [fastPairs, hhi, hlo, hrest] at h
    cases h
  | case3 c1 c2 rest hbad =>
    simp only [fastPairs] at h
    cases h
  | case4 cs hshort =>
    rw [fastPairs] at h
    · cases h; exact Nat.zero_le _
    · exact hshort

theorem le_ceilDiv {a b c : Nat} (hb : 0 < b) (h : c * b ≤ a) : c ≤ ceilDiv a b :=
  (Nat.le_div_iff_mul_le hb).2 (by omega)

/-- What BLK.DEC appends is at most R282's bound, on the fast path and off it (R284). -/
theorem blockDecodeUnits_length_le {cfg : Config} {p : BlockProfile} {o : Options} {cs us : List CharUnit}
    (h : blockDecodeUnits cfg p o cs = .ok us) : us.length ≤ maxByte (.block p) cs.length := by
  refine le_ceilDiv (symbolsPerBlock_pos p) ?_
  cases hf : fastEligible cfg p o with
  | true =>
    obtain ⟨rfl, -⟩ := fastEligible_spec hf
    rw [blockDecodeUnits, if_pos hf, fastDecode] at h
    split at h
    · cases h
    · cases hpairs : fastPairs cs with
      | error e => rw [hpairs] at h; cases h
      | ok bs =>
        rw [hpairs] at h
        cases h
        rw [bytesToUnits_length]
        exact (fastPairs_length hpairs).trans (Nat.mul_one _).ge
  | false =>
    rw [blockDecodeUnits_general hf] at h
    cases hdec : generalDecode cfg p o cs with
    | error e => rw [hdec] at h; cases h
    | ok bs =>
      rw [hdec] at h
      cases h
      rw [bytesToUnits_length]
      exact generalDecode_length hdec

/-- The values of a text are at most one for each character, and below the radix (43_positional.md R253). -/
theorem positionalValues_bounds {cfg : Config} {o : Options} {cs : List CharUnit} {vs : List Nat}
    (h : positionalValues cfg o cs = .ok vs) : vs.length ≤ cs.length ∧ ∀ v ∈ vs, v < 58 := by
  induction cs generalizing vs with
  | nil => cases h; exact ⟨le_rfl, List.forall_mem_nil _⟩
  | cons c cs ih =>
    rw [positionalValues] at h
    cases hclass : classOf cfg .p58 o c with
    | invalid => rw [hclass] at h; cases h
    | pad => exact absurd hclass (classOf_p58_ne_pad cfg o c)
    | skip =>
      rw [hclass] at h
      exact ⟨(ih h).1.trans (Nat.le_succ _), (ih h).2⟩
    | sym v =>
      cases hrest : positionalValues cfg o cs with
      | error e => simp only [hclass, hrest] at h; cases h
      | ok vs' =>
        simp only [hclass, hrest] at h
        cases h
        obtain ⟨hlen, hlt⟩ := ih hrest
        exact ⟨Nat.succ_le_succ hlen, List.forall_mem_cons.2 ⟨classOf_sym_lt hclass, hlt⟩⟩

/-- A leading zero-symbol gives one byte, and the other symbols no more bytes than they are (R284). -/
theorem positionalBytes_length_le {vs : List Nat} (h : ∀ v ∈ vs, v < 58) : (positionalBytes vs).length ≤ vs.length := by
  have hsplit := congrArg List.length (zlead_split vs 0).1
  rw [List.length_append, List.length_replicate] at hsplit
  have hvalue : valDigits 58 (vs.drop (zlead vs 0)) < 256 ^ (vs.drop (zlead vs 0)).length :=
    (valDigits_lt fun v hv => h v (List.mem_of_mem_drop hv)).trans_le (Nat.pow_le_pow_left (by decide) _)
  rw [positionalBytes, List.length_append, List.length_replicate, hsplit]
  exact Nat.add_le_add_left (minBE_length_le hvalue) _

/-- Verification only removes bytes (R256). -/
theorem verifyChecksum_length_le {cfg : Config} {d bs : List Byte} (h : verifyChecksum cfg d = .ok bs) :
    bs.length ≤ d.length := by
  simp only [verifyChecksum] at h
  split at h
  · cases h
  · split at h
    · cases h; exact List.length_take_le' _ _
    · cases h

/-- What POS.DEC appends is at most R282's bound (R284). -/
theorem positionalDecode_length_le {cfg : Config} {o : Options} {cs : List CharUnit} {bs : List Byte}
    (h : positionalDecode cfg o cs = .ok bs) : bs.length ≤ maxByte .p58 cs.length := by
  cases hvals : positionalValues cfg o cs with
  | error e => rw [positionalDecode_invalid hvals] at h; cases h
  | ok vs =>
    obtain ⟨hlen, hlt⟩ := positionalValues_bounds hvals
    have hpayload : (positionalBytes vs).length ≤ cs.length := (positionalBytes_length_le hlt).trans hlen
    cases hc : has o .checksum with
    | false =>
      rw [positionalDecode_unchecked hc hvals] at h
      cases h
      exact hpayload
    | true =>
      rw [positionalDecode_checked hc hvals] at h
      exact (verifyChecksum_length_le h).trans hpayload

end Sys2Proof.Machine
end

section
/-! SUPPORT. A BLK.DEC or POS.DEC that reports success passed its checks and appended a decoding of IN (30_encoding.md R110, 46_control.md R322). -/

namespace Sys2Proof.Machine

theorem servedBlock_ok {p : ProfCode} {q : BlockProfile} (h : servedBlock p = .ok q) : p = blockCode q := by
  unfold servedBlock at h
  split at h
  next hq => cases h; exact profileOf_eq_some hq
  all_goals cases h

theorem servedPositional_ok {p : ProfCode} (h : servedPositional p = .ok ()) : p = 3#4 := by
  by_contra hp
  rw [servedPositional_refused hp] at h
  cases h

theorem errCode_ne_successCode (e : Err) : errCode e ≠ successCode := by
  rcases e with e | e | e
  · exact configCode_ne_successCode e
  · exact formatCode_ne_successCode e
  · cases e <;> decide

/-- A command that reports success passed the checks of R110 steps 3 and 4. -/
theorem ChecksProfile.passed {α : Type} {i : Instr} {served : Except ConfigError α} {f : α → Profile}
    (h : ChecksProfile i served f) {s t : State} (hexec : exec i s = .next t) (hok : t.lastErr = successCode) :
    ∃ a, served = .ok a ∧ sizeOk s.cfg (f a) = true := by
  cases hserved : served with
  | error e =>
    cases (h.unserved hserved s).symm.trans hexec
    exact absurd hok (configCode_ne_successCode e)
  | ok a =>
    refine ⟨a, rfl, ?_⟩
    by_contra hs
    cases (h.wrongSize hserved fun hsize => hs ((sizeOk_iff _ _).2 hsize)).symm.trans hexec
    exact absurd hok (configCode_ne_successCode .alphabetSize)

/-- `t` is `s` after a decoding of IN under a profile that code p names, sized, with no more units than R282's bound. -/
def DecodedWithinBound (p : ProfCode) (s t : State) : Prop :=
  ∃ q us, servedAny p = .ok q ∧ sizeOk s.cfg q = true ∧ t = appended s us ∧ us.length ≤ maxByte q s.inp.length

/-- A successful BLK.DEC appends at most R282's bound of IN's length (R284). -/
theorem exec_blkDec_success {s t : State} {o : Options} {p : ProfCode} (h : exec (.blkDec o p) s = .next t)
    (hok : t.lastErr = successCode) : DecodedWithinBound p s t := by
  obtain ⟨q, hq, hs⟩ := (blockCommands_check o p (.blkDec o p) (by simp [blockCommands])).passed h hok
  obtain rfl := servedBlock_ok hq
  rw [exec_blkDec_sized hs] at h
  cases hdec : blockDecodeUnits s.cfg q o s.inp with
  | error e =>
    rw [hdec] at h
    cases h
    exact absurd hok (errCode_ne_successCode e)
  | ok us =>
    rw [hdec] at h
    exact ⟨.block q, us, servedAny_blockCode q, hs, (Host.Outcome.next.inj h).symm, blockDecodeUnits_length_le hdec⟩

/-- A successful POS.DEC appends at most R282's bound of IN's length (R284). -/
theorem exec_posDec_success {s t : State} {o : Options} {p : ProfCode} (h : exec (.posDec o p) s = .next t)
    (hok : t.lastErr = successCode) : DecodedWithinBound p s t := by
  obtain ⟨⟨⟩, hq, hs⟩ := (positionalCommands_check o p (.posDec o p) (by simp [positionalCommands])).passed h hok
  obtain rfl := servedPositional_ok hq
  rw [exec_posDec_sized hs] at h
  cases hdec : positionalDecode s.cfg o s.inp with
  | error e =>
    rw [hdec] at h
    cases h
    exact absurd hok (formatCode_ne_successCode e)
  | ok bs =>
    rw [hdec] at h
    refine ⟨.p58, bytesToUnits bs, servedAny_three, hs, (Host.Outcome.next.inj h).symm, ?_⟩
    rw [bytesToUnits_length]
    exact positionalDecode_length_le hdec

end Sys2Proof.Machine
end

section
/-! CERTIFICATES. The statements about the capacity estimator, settled. -/

namespace Sys2Proof.Proofs

open Sys2Proof.Machine

/-- Settles O48: RES takes the bound, which fits it; `pos_len` is the least length that a search finds. -/
theorem maxCharResult : Obligations.MaxCharResult := by
  intro s o hnl
  refine ⟨fun q c hsize hc => ?block, fun hsize => ?positional⟩
  case block =>
    have hs : sizeOk s.cfg (.block q) = true := (sizeOk_iff _ _).2 hsize
    have hchars : c = blockChars q o s.arg.toNat := hc
    refine ⟨_, exec_capMaxChar_ok (servedAny_blockCode q) hs o, ?_⟩
    rw [resOf_maxChar hnl, hchars]
    simp only [maxChar, wrapEff_iff, sepEff_iff]
    rfl
  case positional =>
    have hs : sizeOk s.cfg .p58 = true := (sizeOk_iff _ .p58).2 hsize
    refine ⟨_, exec_capMaxChar_ok servedAny_three hs o, ?_⟩
    rw [resOf_maxChar hnl]
    obtain ⟨henough, -, hleast⟩ := posLen_spec (s.arg.toNat + if has o .checksum = true then 4 else 0)
    exact ⟨henough, hleast⟩

/-- Settles O49: RES takes the bound, which fits it. -/
theorem maxByteResult : Obligations.MaxByteResult := by
  intro s o
  refine ⟨fun q hsize => ?block, fun hsize => ?positional⟩
  case block =>
    have hs : sizeOk s.cfg (.block q) = true := (sizeOk_iff _ _).2 hsize
    exact ⟨_, exec_capMaxByte_ok (servedAny_blockCode q) hs o, resOf_maxByte (.block q) s.arg⟩
  case positional =>
    have hs : sizeOk s.cfg .p58 = true := (sizeOk_iff _ .p58).2 hsize
    exact ⟨_, exec_capMaxByte_ok servedAny_three hs o, resOf_maxByte .p58 s.arg⟩

/-- Settles O50: both encodings succeed, and RES holds the bound of their length. -/
theorem maxCharSound : Obligations.MaxCharSound := by
  intro s u o bs hok hnl hin hlen hcfg harg
  have hcount := arg_toNat harg hlen
  refine ⟨fun q hsize => ?block, fun hsize => ?positional⟩
  case block =>
    have hs : sizeOk s.cfg (.block q) = true := (sizeOk_iff _ _).2 hsize
    obtain ⟨txt, htxt⟩ := blockEncode_defined hs o bs
    refine ⟨txt, _, exec_blkEnc_ok hs hin htxt, exec_capMaxChar_ok (servedAny_blockCode q) (hcfg ▸ hs) o, ?_⟩
    rw [hcfg, resOf_maxChar hnl, hcount]
    exact blockEncode_length_le hok hs htxt
  case positional =>
    have hs : sizeOk s.cfg .p58 = true := (sizeOk_iff _ .p58).2 hsize
    obtain ⟨txt, htxt, -⟩ := positionalEncode_defined hs o bs
    refine ⟨txt, _, exec_posEnc_ok hs hin htxt, exec_capMaxChar_ok servedAny_three (hcfg ▸ hs) o, ?_⟩
    rw [hcfg, resOf_maxChar hnl, hcount]
    exact positionalEncode_length_le htxt

/-- Settles O51: a successful decoding served its profile, so CAP.MAXBYTE serves it too and RES holds the bound of its
length. -/
theorem maxByteSound : Obligations.MaxByteSound := by
  intro s t u o o' p i hi hlen hexec hok hcfg harg
  obtain ⟨q, us, hp, hs, rfl, hbound⟩ : DecodedWithinBound p s t := by
    rcases hi with rfl | rfl
    · exact exec_blkDec_success hexec hok
    · exact exec_posDec_success hexec hok
  refine ⟨_, exec_capMaxByte_ok hp (hcfg ▸ hs) o', ?_⟩
  rw [resOf_maxByte, arg_toNat harg hlen]
  exact List.length_append.le.trans (Nat.add_le_add_left hbound _)

end Sys2Proof.Proofs
end

section
/-! SUPPORT. The digits of the fast path and the table of the general engine (45_fastpath.md R300, R304): the default P16 table, compared without regard to case, gives each character the value `hexval` gives it. -/

namespace Sys2Proof.Machine

/-- The three ranges of R304, by value. -/
theorem hexval_iff {c : CharUnit} {v : Nat} : hexval c = some v ↔ (v < 10 ∧ c.toNat = 0x30 + v) ∨ (10 ≤ v ∧ v < 16 ∧
    (c.toNat = 0x41 + (v - 10) ∨ c.toNat = 0x61 + (v - 10))) := by
  unfold hexval
  split_ifs <;> simp only [Option.some.injEq, false_iff] <;> omega

theorem hexval_lt {c : CharUnit} {v : Nat} (h : hexval c = some v) : v < 16 := by
  have hranges := hexval_iff.1 h
  omega

theorem asciiUpper_toNat (c : CharUnit) :
    (asciiUpper c).toNat = if 0x61 ≤ c.toNat ∧ c.toNat ≤ 0x7A then c.toNat - 0x20 else c.toNat := by
  unfold asciiUpper
  split
  · rw [BitVec.toNat_sub_of_le (BitVec.le_def.2 (by simp; omega))]
    rfl
  · rfl

/-- The case of a digit does not matter. -/
theorem hexval_asciiUpper (c : CharUnit) : hexval (asciiUpper c) = hexval c := by
  refine Option.ext fun v => ?_
  rw [hexval_iff, hexval_iff, asciiUpper_toNat]
  split <;> omega

/-- Characters that the default P16 table takes for one have one digit value. -/
theorem hexval_of_sameChar {x c : CharUnit} (h : sameChar defaultAlpha16 x c = true) : hexval x = hexval c := by
  have hupper : x = c ∨ asciiUpper x = asciiUpper c := by simpa [sameChar, defaultAlpha16] using h
  rcases hupper with rfl | hupper
  · rfl
  · rw [← hexval_asciiUpper x, hupper, hexval_asciiUpper]

/-- Every digit is, up to case, a symbol of the default P16 table; the digits lie below 0x67. -/
theorem sameChar_of_hexval {c : CharUnit} {v : Nat} (h : hexval c = some v) :
    ∃ x ∈ defaultAlpha16.symbols, sameChar defaultAlpha16 x c = true := by
  have hsearch : ∀ n < 0x67, (hexval (BitVec.ofNat 16 n)).isSome = true →
      defaultAlpha16.symbols.any (sameChar defaultAlpha16 · (BitVec.ofNat 16 n)) = true := by decide
  have hsmall : c.toNat < 0x67 := by
    have hranges := hexval_iff.1 h
    omega
  have hfound := hsearch c.toNat hsmall
  rw [BitVec.ofNat_toNat, BitVec.setWidth_eq, h] at hfound
  exact List.any_eq_true.1 (hfound rfl)

theorem tableEntry_defaultAlpha16 {cfg : Config} (ha : alphabetOf cfg (.block .p16) = defaultAlpha16) (c : CharUnit) :
    tableEntry cfg (.block .p16) c = hexval c := by
  rw [tableEntry, ha]
  cases hfind : defaultAlpha16.symbols.findIdx? (fun x => sameChar defaultAlpha16 x c) with
  | some v =>
    obtain ⟨hv, hsame, -⟩ := List.findIdx?_eq_some_iff_getElem.1 hfind
    have hsymbol : symbolAt cfg (.block .p16) v = some defaultAlpha16.symbols[v] := by
      have hlen : defaultAlpha16.symbols.length = radixOf (.block .p16) := by decide
      rw [symbolAt, ha, if_pos (hlen ▸ hv), List.getElem?_eq_getElem hv]
    exact (hexval_symbolAt ha hsymbol).symm.trans (hexval_of_sameChar hsame)
  | none =>
    cases hval : hexval c with
    | none => rfl
    | some v =>
      obtain ⟨x, hx, hsame⟩ := sameChar_of_hexval hval
      exact absurd hsame (by simp [List.findIdx?_eq_none_iff.1 hfind x hx])

/-- Under the default P16 table `IndexOf` is `hexval`. -/
theorem indexOf_defaultAlpha16 {cfg : Config} (ha : alphabetOf cfg (.block .p16) = defaultAlpha16) (c : CharUnit) :
    indexOf cfg (.block .p16) c = hexval c := by
  rw [indexOf, tableEntry_defaultAlpha16 ha]
  cases hval : hexval c with
  | none => rfl
  | some v => exact if_pos (decide_eq_true (hexval_lt hval))

end Sys2Proof.Machine
end

section
/-! SUPPORT. What `FastDecode` gives for each text, and what the two commands report of it (45_fastpath.md R301, R302). -/

namespace Sys2Proof.Machine

theorem fastPairs_digits {c1 c2 : CharUnit} {hi lo : Nat} {rest : List CharUnit} {bs : List Byte}
    (h1 : hexval c1 = some hi) (h2 : hexval c2 = some lo) (hrest : fastPairs rest = .ok bs) :
    fastPairs (c1 :: c2 :: rest) = .ok (BitVec.ofNat 8 (hi * 16 + lo) :: bs) := by
  simp only [fastPairs, h1, h2, hrest]

/-- A bad character of the first pair ends the decoding. -/
theorem fastPairs_bad_first {c1 c2 : CharUnit} {rest : List CharUnit} (h : hexval c1 = none ∨ hexval c2 = none) :
    fastPairs (c1 :: c2 :: rest) = .error .invalidChar := by
  rw [fastPairs]
  split
  next h1 h2 => simp [h1, h2] at h
  next => rfl

/-- A bad character of a later pair ends it too. -/
theorem fastPairs_bad_rest {c1 c2 : CharUnit} {rest : List CharUnit} (h : fastPairs rest = .error .invalidChar) :
    fastPairs (c1 :: c2 :: rest) = .error .invalidChar := by
  rw [fastPairs]
  split
  · rw [h]
  · rfl

/-- In a text of even length a character that is no digit is E_INVALID_CHAR. -/
theorem fastPairs_bad {cs : List CharUnit} (heven : cs.length % 2 = 0) (hbad : ∃ c ∈ cs, hexval c = none) :
    fastPairs cs = .error .invalidChar := by
  induction cs using List.twoStepInduction with
  | nil => simp at hbad
  | singleton c => simp at heven
  | cons_cons c1 c2 rest ih _ =>
    simp only [List.mem_cons, exists_eq_or_imp] at hbad
    rcases hbad with h1 | h2 | hrest
    · exact fastPairs_bad_first (.inl h1)
    · exact fastPairs_bad_first (.inr h2)
    · exact fastPairs_bad_rest (ih (by simp at heven; omega) hrest)

theorem fastDecode_odd {cs : List CharUnit} (h : cs.length % 2 = 1) : fastDecode cs = .error .oddLength := if_pos h

theorem fastDecode_even {cs : List CharUnit} (h : cs.length % 2 = 0) : fastDecode cs = fastPairs cs :=
  if_neg (by omega)

/-- A text with a character that is no digit has no fast decoding. -/
theorem fastDecode_bad {cs : List CharUnit} (hbad : ∃ c ∈ cs, hexval c = none) : ∃ e, fastDecode cs = .error e := by
  rcases Nat.mod_two_eq_zero_or_one cs.length with heven | hodd
  · exact ⟨_, (fastDecode_even heven).trans (fastPairs_bad heven hbad)⟩
  · exact ⟨_, fastDecode_odd hodd⟩

/-- Pairs of digits are read as one byte a pair. -/
theorem fastDecode_pairs {ps : List ((CharUnit × CharUnit) × (Fin 16 × Fin 16))}
    (h : ∀ q ∈ ps, hexval q.1.1 = some q.2.1.val ∧ hexval q.1.2 = some q.2.2.val) :
    fastDecode (ps.flatMap fun q => [q.1.1, q.1.2]) =
      .ok (ps.map fun q => BitVec.ofNat 8 (q.2.1.val * 16 + q.2.2.val)) := by
  rw [fastDecode_even (by simp [List.length_flatMap])]
  induction ps with
  | nil => rfl
  | cons q ps ih =>
    obtain ⟨⟨h1, h2⟩, hps⟩ := List.forall_mem_cons.1 h
    exact fastPairs_digits h1 h2 (ih hps)

/-- The byte of a pair as a unit of OUT (20_memory.md R71). -/
theorem bytesToUnits_pairs (ps : List ((CharUnit × CharUnit) × (Fin 16 × Fin 16))) :
    bytesToUnits (ps.map fun q => BitVec.ofNat 8 (q.2.1.val * 16 + q.2.2.val)) =
      ps.map fun q => BitVec.ofNat 16 (q.2.1.val * 16 + q.2.2.val) := by
  rw [bytesToUnits, List.map_map]
  refine List.map_congr_left fun q _ => BitVec.eq_of_toNat_eq ?_
  have hhi := q.2.1.isLt
  have hlo := q.2.2.isLt
  simp only [Function.comp_apply, BitVec.toNat_setWidth, BitVec.toNat_ofNat]
  omega

theorem exec_hex_ok {s : State} {bs : List Byte} (h : fastDecode s.inp = .ok bs) :
    exec .hexFDec s = .next (appended s (bytesToUnits bs)) ∧
      exec .hexTryFDec s = .next (appended s (bytesToUnits bs)) := by
  simp only [exec, execHexFDec, execHexTryFDec, runCommand, State.setAbsent_inp, h]
  exact ⟨rfl, rfl⟩

theorem exec_hex_error {s : State} {e : FormatError} (h : fastDecode s.inp = .error e) :
    exec .hexFDec s = .next (raised s (formatCode e)) ∧ exec .hexTryFDec s = .next (absentState s) := by
  simp only [exec, execHexFDec, execHexTryFDec, runCommand, State.setAbsent_inp, h]
  exact ⟨rfl, rfl⟩

/-- Under the options it serves BLK.DEC is the fast path (42_block_decoder.md R212). -/
theorem exec_blkDec_fast {s : State} {o : Options} (hf : fastEligible s.cfg .p16 o = true)
    (hs : sizeOk s.cfg (.block .p16) = true) : exec (.blkDec o (blockCode .p16)) s = exec .hexFDec s := by
  rw [exec_blkDec_sized hs, blockDecodeUnits, if_pos hf]
  rfl

end Sys2Proof.Machine
end

section
/-! SUPPORT. The general engine under the options of the fast path reads the same pairs (45_fastpath.md R303). -/

namespace Sys2Proof.Machine

section
variable {cfg : Config} {o : Options}

/-- The default table has its size. -/
theorem fastEligible_sized {p : BlockProfile} (hf : fastEligible cfg p o = true) : sizeOk cfg (.block p) = true := by
  obtain ⟨rfl, ha, -⟩ := fastEligible_spec hf
  rw [sizeOk, ha]
  decide

/-- Nothing is skipped (40_alphabet.md R144). -/
theorem fastEligible_not_skipped {p : BlockProfile} (hf : fastEligible cfg p o = true) (c : CharUnit) :
    ¬ Skipped cfg o c := by
  obtain ⟨-, -, hpure, -, hwrap, hindent⟩ := fastEligible_spec hf
  simp [← skippable_iff, skippable, hpure, hwrap, hindent]

/-- A digit is a symbol of its value. -/
theorem decPutBody_digit {t : Context} {c : CharUnit} {v : Nat} (hf : fastEligible cfg t.prof t.opts = true)
    (hc : hexval c = some v) : decPutBody cfg t c = decSymBody t v := by
  obtain ⟨hp, ha, -⟩ := fastEligible_spec hf
  refine decPutBody_sym ?_ ?_ <;> rw [hp]
  · exact (Option.some_ne_none c).symm
  · rwa [indexOf_defaultAlpha16 ha]

/-- A character that is no digit fails the stream. -/
theorem decPutBody_not_digit {t : Context} {c : CharUnit} (hf : fastEligible cfg t.prof t.opts = true)
    (hc : hexval c = none) : decPutBody cfg t c = .error (.format .invalidChar, t) := by
  obtain ⟨hp, ha, -⟩ := fastEligible_spec hf
  refine decPutBody_invalid ?_ ?_ (fastEligible_not_skipped hf c) <;> rw [hp]
  · exact (Option.some_ne_none c).symm
  · rwa [indexOf_defaultAlpha16 ha]

/-- A text that is fed without an error is digits alone. -/
theorem digits_of_decFeed {t u : Context} {cs : List CharUnit} {bs : List Byte}
    (hf : fastEligible cfg t.prof t.opts = true) (h : decFeed cfg t cs = .ok (u, bs)) :
    ∀ c ∈ cs, hexval c ≠ none := by
  induction cs generalizing t bs with
  | nil => exact List.forall_mem_nil _
  | cons c cs ih =>
    obtain ⟨t1, ds, ds', hput, hfeed, -⟩ := decFeed_cons_ok h
    have hsame := decPutBody_sameStream hput
    refine List.forall_mem_cons.2 ⟨fun hc => ?_, ih (by rwa [hsame.prof, hsame.opts]) hfeed⟩
    rw [decPutBody_not_digit hf hc] at hput
    cases hput

theorem decFeed_singleton {t u : Context} {c : CharUnit} {bs : List Byte} (h : decPutBody cfg t c = .ok (u, bs)) :
    decFeed cfg t [c] = .ok (u, bs) := by
  simp only [decFeed, h, List.append_nil]

/-- The first digit of a pair is held. -/
theorem decFeed_digit {c : CharUnit} {v : Nat} (hf : fastEligible cfg .p16 o = true) (hc : hexval c = some v) :
    decFeed cfg (freshContext .decoder .p16 o) [c] = .ok (partialDecoder .p16 o 1 v, []) := by
  refine decFeed_singleton ((decPutBody_digit hf hc).trans ((decSymBody_short rfl (show 0 + 1 ≠ 2 by decide)).trans ?_))
  simp [partialDecoder, freshContext]

/-- A pair of digits is a block of one byte, and nothing is held after it. -/
theorem decFeed_digitPair {c1 c2 : CharUnit} {hi lo : Nat} (hf : fastEligible cfg .p16 o = true)
    (h1 : hexval c1 = some hi) (h2 : hexval c2 = some lo) :
    decFeed cfg (freshContext .decoder .p16 o) [c1, c2] =
      .ok (freshContext .decoder .p16 o, [BitVec.ofNat 8 (hi * 16 + lo)]) := by
  have hfits : hi * 16 + lo < 256 := by
    have hhi := hexval_lt h1
    have hlo := hexval_lt h2
    omega
  have hbytes : bytesBE (bytesPerBlock .p16) (hi * 16 + lo) = [BitVec.ofNat 8 (hi * 16 + lo)] := by
    show [BitVec.ofNat 8 ((hi * 16 + lo) % 256)] = _
    rw [Nat.mod_eq_of_lt hfits]
  have hput : decPutBody cfg (partialDecoder .p16 o 1 hi) c2 =
      .ok (freshContext .decoder .p16 o, [BitVec.ofNat 8 (hi * 16 + lo)]) :=
    (decPutBody_digit hf h2).trans (decSymBody_full rfl rfl ((fullBlock_fits hfits).trans (congrArg _ hbytes)))
  exact decFeed_append_ok (decFeed_digit hf h1) (decFeed_singleton hput)

/-- On digits in pairs both decoders succeed with the same bytes. -/
theorem decFeed_fastPairs {cs : List CharUnit} (hf : fastEligible cfg .p16 o = true) (heven : cs.length % 2 = 0)
    (hdigits : ∀ c ∈ cs, hexval c ≠ none) :
    ∃ bs, fastPairs cs = .ok bs ∧
      decFeed cfg (freshContext .decoder .p16 o) cs = .ok (freshContext .decoder .p16 o, bs) := by
  induction cs using List.twoStepInduction with
  | nil => exact ⟨[], rfl, rfl⟩
  | singleton c => simp at heven
  | cons_cons c1 c2 rest ih _ =>
    simp only [List.forall_mem_cons, Option.ne_none_iff_exists'] at hdigits ih
    obtain ⟨⟨hi, h1⟩, ⟨lo, h2⟩, hrest⟩ := hdigits
    obtain ⟨bs, hpairs, hfeed⟩ := ih (by simp at heven; omega) hrest
    exact ⟨_, fastPairs_digits h1 h2 hpairs, decFeed_append_ok (decFeed_digitPair hf h1 h2) hfeed⟩

/-- A single digit at the end of stream is E_INCOMPLETE: P16 has no partial block (42_block_decoder.md R205, R206). -/
theorem decEosBody_singleDigit (v : Nat) (hf : fastEligible cfg .p16 o = true) :
    decEosBody (partialDecoder .p16 o 1 v) = .error (.format .incomplete, partialDecoder .p16 o 1 v) := by
  obtain ⟨-, -, -, hrelax, -, -⟩ := fastEligible_spec hf
  exact decEosBody_flush_error Nat.one_pos (show 1 < 2 by decide) (padReq_p16 o) (partialFlush_incomplete hrelax (show canonical .p16 1 = false by decide))

theorem generalDecode_of_eos_error {p : BlockProfile} {cs : List CharUnit} {t : Context} {bs : List Byte}
    {x : Err × Context} (hfeed : decFeed cfg (freshContext .decoder p o) cs = .ok (t, bs))
    (heos : decEosBody t = .error x) : generalDecode cfg p o cs = .error x.1 := by
  simp only [generalDecode, hfeed, heos]

/-- Digits in pairs: the same bytes. -/
theorem generalDecode_even {cs : List CharUnit} (hf : fastEligible cfg .p16 o = true) (heven : cs.length % 2 = 0)
    (hdigits : ∀ c ∈ cs, hexval c ≠ none) :
    ∃ bs, fastDecode cs = .ok bs ∧ generalDecode cfg .p16 o cs = .ok bs := by
  obtain ⟨bs, hpairs, hfeed⟩ := decFeed_fastPairs hf heven hdigits
  refine ⟨bs, (fastDecode_even heven).trans hpairs, ?_⟩
  simpa using generalDecode_of_parts hfeed (decEosBody_empty rfl)

/-- An odd count of digits: the last one is left over at the end of stream. -/
theorem generalDecode_odd {cs : List CharUnit} (hf : fastEligible cfg .p16 o = true) (hodd : cs.length % 2 = 1)
    (hdigits : ∀ c ∈ cs, hexval c ≠ none) : generalDecode cfg .p16 o cs = .error (.format .incomplete) := by
  rcases List.eq_nil_or_concat cs with rfl | ⟨pairs, c, rfl⟩
  · simp at hodd
  · rw [List.concat_eq_append] at hodd hdigits ⊢
    obtain ⟨hpairs, hlast⟩ := List.forall_mem_append.1 hdigits
    obtain ⟨v, hv⟩ := Option.ne_none_iff_exists'.1 (hlast c (List.mem_singleton_self c))
    obtain ⟨bs, -, hfeed⟩ := decFeed_fastPairs hf (by simp at hodd; omega) hpairs
    exact generalDecode_of_eos_error (decFeed_append_ok hfeed (decFeed_digit hf hv)) (decEosBody_singleDigit v hf)

/-- A character that is no digit: an error. -/
theorem generalDecode_bad {cs : List CharUnit} (hf : fastEligible cfg .p16 o = true) (hbad : ∃ c ∈ cs, hexval c = none) :
    ∃ e, generalDecode cfg .p16 o cs = .error (.format e) := by
  cases hdec : generalDecode cfg .p16 o cs with
  | ok bs =>
    obtain ⟨t, ds, u, ds', hfeed, -, -⟩ := generalDecode_ok hdec
    obtain ⟨c, hc, hnone⟩ := hbad
    exact absurd hnone (digits_of_decFeed (t := freshContext .decoder .p16 o) hf hfeed c hc)
  | error e =>
    obtain ⟨f, rfl⟩ := generalDecode_error hdec
    exact ⟨f, rfl⟩

/-- Under eligible options both decoders succeed on the same texts with the same bytes; on an odd count of digits the
fast path answers E_ODD_LENGTH and the general engine E_INCOMPLETE (R303). -/
theorem fastDecode_generalDecode (hf : fastEligible cfg .p16 o = true) (cs : List CharUnit) :
    (∃ bs, fastDecode cs = .ok bs ∧ generalDecode cfg .p16 o cs = .ok bs) ∨
      ∃ e f, fastDecode cs = .error e ∧ generalDecode cfg .p16 o cs = .error (.format f) ∧
        (cs.length % 2 = 1 → (∀ c ∈ cs, hexval c ≠ none) → e = .oddLength ∧ f = .incomplete) := by
  by_cases hdigits : ∀ c ∈ cs, hexval c ≠ none
  · rcases Nat.mod_two_eq_zero_or_one cs.length with heven | hodd
    · exact .inl (generalDecode_even hf heven hdigits)
    · exact .inr ⟨_, _, fastDecode_odd hodd, generalDecode_odd hf hodd hdigits, fun _ _ => ⟨rfl, rfl⟩⟩
  · have hbad : ∃ c ∈ cs, hexval c = none := by simpa using hdigits
    obtain ⟨e, hfast⟩ := fastDecode_bad hbad
    obtain ⟨f, hgeneral⟩ := generalDecode_bad hf hbad
    exact .inr ⟨e, f, hfast, hgeneral, fun _ h => absurd h hdigits⟩

end

end Sys2Proof.Machine
end

section
/-! CERTIFICATES. The statements about the fast path, settled. -/

namespace Sys2Proof.Proofs

open Sys2Proof.Machine

/-- Settles O40: the fast decoding of pairs of digits, and both commands append it. -/
theorem hexDecodes : Obligations.HexDecodes := by
  intro s ps hps hin
  have hdec := fastDecode_pairs hps
  rw [← hin] at hdec
  rw [← bytesToUnits_pairs]
  exact exec_hex_ok hdec

/-- Settles O41: the length is checked before the characters, and the ranges are those of `hexval`. -/
theorem hexErrors : Obligations.HexErrors :=
  ⟨fun _ hodd => exec_hex_error (fastDecode_odd hodd),
    fun _ heven hbad => exec_hex_error ((fastDecode_even heven).trans (fastPairs_bad heven hbad)),
    fun _ _ => hexval_iff⟩

/-- Settles O42: the two decoders agree on every text, and the commands report what the decoders give. -/
theorem fastPathEquivalence : Obligations.FastPathEquivalence := by
  intro s o hf
  have hs := fastEligible_sized hf
  obtain ⟨-, ha, -⟩ := fastEligible_spec hf
  rcases fastDecode_generalDecode hf s.inp with ⟨bs, hfast, hgeneral⟩ | ⟨e, f, hfast, hgeneral, hodd⟩
  · obtain ⟨u, hrun, hfault, -⟩ := decodeStream_ok hs hgeneral
    have hexec := (exec_hex_ok hfast).1
    refine ⟨_, _, hexec, (exec_blkDec_fast hf hs).trans hexec, hrun, iff_of_true rfl hfault, fun _ => rfl, fun h _ => ?_⟩
    rw [fastDecode_odd h] at hfast
    cases hfast
  · obtain ⟨u, hrun, hfailed⟩ := decodeStream_fails hs hgeneral
    have hexec := (exec_hex_error hfast).1
    have hcode : formatCode e ≠ 0#8 := formatCode_ne_successCode e
    refine ⟨_, u, hexec, (exec_blkDec_fast hf hs).trans hexec, hrun, iff_of_false hcode ?_,
      fun h => absurd h hcode, fun h hsymbols => ?_⟩
    · rw [hfailed.fault]
      exact Option.some_ne_none f
    · simp only [indexOf_defaultAlpha16 ha] at hsymbols
      obtain ⟨rfl, rfl⟩ := hodd h hsymbols
      exact ⟨rfl, hfailed.reported⟩

end Sys2Proof.Proofs
end

section
/-! SUPPORT. The control commands (46_control.md R320 to R322): waiting between CMD writes, the one word of a command without operand, and that SRST alone ends a context. -/

namespace Sys2Proof

/-- No opcode has two formats (30_encoding.md R107). -/
theorem opcodesF0_disjoint : ∀ n ∈ opcodesF0, n ≠ 0x10 ∧ n ≠ 0x20 ∧ n ∉ opcodesFP := by decide

/-- The opcode of a command without operand has one legal word, every other bit zero (R101, R108). -/
theorem eq_encodeF0_of_legalWord {w : RegWord} {c : BitVec 8} (hc : c.toNat ∈ opcodesF0)
    (hopc : w.toNat / 2 ^ 24 = c.toNat) (hl : LegalWord w) : w = encodeF0 c := by
  obtain ⟨hFB, hFC, hFP⟩ := opcodesF0_disjoint _ hc
  rw [← hopc] at hFB hFC hFP
  rcases hl with ⟨-, hz⟩ | ⟨h, -⟩ | ⟨h, -⟩ | ⟨h, -⟩
  · have hval := encodeF0_toNat c
    exact BitVec.eq_of_toNat_eq (by omega)
  · exact absurd h hFB
  · exact absurd h hFC
  · exact absurd h hFP

end Sys2Proof

namespace Sys2Proof.Machine

/-- Any other word with the opcode of a command without operand is rejected (30_encoding.md R108). -/
theorem issue_nonzeroField {w : RegWord} {c : BitVec 8} (hc : c.toNat ∈ opcodesF0) (hopc : w.toNat / 2 ^ 24 = c.toNat)
    (hne : w ≠ encodeF0 c) (s : State) : issue w s = .next (raised s 0x15#8) := by
  obtain ⟨e, he⟩ := decode_of_not_legal (fun hl => hne (eq_encodeF0_of_legalWord hc hopc hl))
  exact issue_error he s

/-- With no host action left the engine waits (R322, 70_reset_and_hazards.md R380). -/
theorem step_waits {s : State} (hc : configOk s.cfg = true) (hh : s.host = []) : step s = .next s := by
  simp only [step, hc, hh, if_true]

theorem exec_nop (s : State) : exec .nop s = .next (quiet s) := congrArg Host.Outcome.next (runCommand_success s)

/-- What SRST leaves (R321): the free context, the registers 0, the rest as it was. -/
theorem exec_srst (s : State) : exec .srst s =
    .next { quiet s with ctx := s.discardCtx.ctx, arg := 0, res := 0, freeCount := s.freeCount + 1 } := rfl

/-- A context that exists goes on existing unless the command is SRST: the other answers keep it, store a fault in it
or leave one that exists. -/
theorem BodyAnswer.valid_kept {i : Instr} {s : State} {r : BodyResult} (h : BodyAnswer i s r) (hi : i ≠ .srst)
    (hv : s.ctx.valid = true) : (finish r).ctx.valid = true := by
  cases h with
  | reset he => exact absurd he hi
  | stored e t hd hkept => exact hkept.trans hv
  | context t us hu hn hnew => exact hnew
  | created t hu hn hnew => exact hnew
  | config | internal | format | absence | quiet | append | result => exact hv

theorem exec_valid_kept {i : Instr} {s t : State} (h : exec i s = .next t) (hi : i ≠ .srst) (hv : s.ctx.valid = true) :
    t.ctx.valid = true := by
  obtain ⟨r, ha, he⟩ := exec_answer i s
  obtain rfl : finish r = t := by rw [he] at h; cases h; rfl
  exact ha.valid_kept hi hv

end Sys2Proof.Machine
end

section
/-! CERTIFICATES. The statements about the control commands and the waiting engine, settled. -/

namespace Sys2Proof.Proofs

open Sys2Proof.Machine

/-- Settles O7: no host action is left for the step to perform. -/
theorem engineWaits : Obligations.EngineWaits := fun _ hc hh => step_waits hc hh

/-- Settles O20: opcode 0x00 takes no operand, so its one legal word is NOP's. -/
theorem nopOnlyClearsReport : Obligations.NopOnlyClearsReport :=
  ⟨rfl, exec_nop, fun _ s hopc hne => issue_nonzeroField (c := 0x00#8) (by decide) hopc hne s⟩

/-- Settles O21: SRST leaves the free context with VALID 0, so STATUS reads 0; opcode 0xFF has one legal word; every
other command keeps a context that exists. -/
theorem softReset : Obligations.SoftReset := by
  refine ⟨rfl, fun s => ⟨s.discardCtx.ctx, rfl, exec_srst s, statusWord_noContext rfl rfl⟩,
    fun _ s hopc hne => issue_nonzeroField (c := 0xFF#8) (by decide) hopc hne s, fun i s t h hv hgone => ?_⟩
  by_contra hi
  have hkept := exec_valid_kept h hi hv
  rw [hgone] at hkept
  cases hkept

end Sys2Proof.Proofs
end

section
/-! SUPPORT. Every action of the host inside the spec is performed (20_memory.md R70, R71, R82; 10_state.md R44). -/

namespace Sys2Proof.Machine

/-- An aligned word of the window is the register at its distance from the base (R40, R44). -/
theorem busTarget_legal {cfg : Config} {addr width : Nat} (hw : width = 4) (hlo : cfg.base ≤ addr)
    (hhi : addr < cfg.base + 64) (h4 : (addr - cfg.base) % 4 = 0) :
    busTarget cfg addr width = .register (addr - cfg.base) := by
  obtain ⟨off, rfl⟩ := Nat.exists_eq_add_of_le hlo
  rw [Nat.add_sub_cancel_left] at h4 ⊢
  rw [hw]
  exact busTarget_register (by omega) h4

/-- A word delivered to CMD is run or rejected: either way there is a next state (46_control.md R322). -/
theorem issue_completes (w : RegWord) (s : State) : ∃ t, issue w s = .next t := by
  cases hd : decode w with
  | ok i =>
    obtain ⟨r, -, he⟩ := exec_answer i s
    exact ⟨_, (issue_ok hd s).trans he⟩
  | error e => exact ⟨_, issue_error hd s⟩

theorem hostWrite_completes {s : State} {addr width off : Nat} (ht : busTarget s.cfg addr width = .register off)
    (w : RegWord) : ∃ t, hostWrite addr width w s = .next t := by
  simp only [hostWrite, ht]
  split
  · exact issue_completes w s.bumpPc
  · exact ⟨_, rfl⟩

theorem hostRead_completes {s : State} {addr width off : Nat} (ht : busTarget s.cfg addr width = .register off) :
    ∃ t, hostRead addr width s = .next t := by
  simp only [hostRead, ht]
  exact ⟨_, rfl⟩

theorem perform_completes {s : State} {a : HostAction} (h : LegalAction s a) : ∃ t, perform a s = .next t := by
  cases a with
  | loadIn us => exact ⟨_, if_pos h⟩
  | busWrite addr width w =>
    obtain ⟨hw, hlo, hhi, h4⟩ := h
    exact hostWrite_completes (busTarget_legal hw hlo hhi h4) w
  | busRead addr width =>
    obtain ⟨hw, hlo, hhi, h4⟩ := h
    exact hostRead_completes (busTarget_legal hw hlo hhi h4)
  | readOut => exact ⟨_, rfl⟩
  | discardOut n => exact ⟨_, if_pos h⟩

/-- Taking an action from the host's list does not change which actions are legal. -/
theorem legalAction_withHost {s : State} {a : HostAction} (h : LegalAction s a) (rest : List HostAction) :
    LegalAction { s with host := rest } a := by
  cases a <;> exact h

end Sys2Proof.Machine
end

section
/-! SUPPORT. What the answers of a body report and leave, by the class of the code (60_exceptions.md R340, R345, R346). -/

namespace Sys2Proof.Machine

theorem not_classFormat_success : ¬ classFormat successCode := show ¬ successCode.toNat / 16 = 2 by decide

theorem not_classConfig_success : ¬ classConfig successCode := show ¬ successCode.toNat / 16 = 1 by decide

theorem not_classConfig_format (e : FormatError) : ¬ classConfig (formatCode e) := by
  rw [classConfig, formatCode_class]
  decide

theorem not_classConfig_internal (e : InternalError) : ¬ classConfig (internalCode e) := by
  rw [classConfig, internalCode_class]
  decide

/-- A body raises a configuration error on the state it was given, so only the report changes (R346). -/
theorem BodyAnswer.raised_of_classConfig {i : Instr} {s : State} {r : BodyResult} (h : BodyAnswer i (s.setAbsent false) r)
    (hc : classConfig (finish r).lastErr) : finish r = raised s (finish r).lastErr := by
  cases h with
  | config e => rfl
  | internal e => exact absurd hc (not_classConfig_internal e)
  | format e | stored e => exact absurd hc (not_classConfig_format e)
  | absence | quiet | append | context | created | result | reset => exact absurd hc not_classConfig_success

/-- What the host is told: an error, or the absence a TRY command answers (R340). -/
def ReportsFailure (t : State) : Prop := t.lastErr ≠ 0#8 ∨ t.absent = true

theorem not_reportsFailure_success {t : State} (h : t.absent = false) : ¬ ReportsFailure (finish (.success t)) := by
  simp [ReportsFailure, h, successCode]

/-- Only the successful answers write OUT, RES or ARG (20_memory.md R72, R73). -/
theorem BodyAnswer.outputs_kept_of_failed {i : Instr} {s : State} {r : BodyResult}
    (h : BodyAnswer i (s.setAbsent false) r) (hf : ReportsFailure (finish r)) :
    (finish r).out = s.out ∧ (finish r).res = s.res ∧ (finish r).arg = s.arg := by
  cases h with
  | config | internal | format | stored | absence => exact ⟨rfl, rfl, rfl⟩
  | quiet | append | context | created | result | reset => exact absurd hf (not_reportsFailure_success rfl)

/-- A format error that a decoder command reports stands in FAULT: the body stored it, or it was there (10_state.md
R36). -/
theorem BodyAnswer.fault_of_classFormat {i : Instr} {s : State} {r : BodyResult} (h : BodyAnswer i s r)
    (hi : isDecoderCommand i) (hc : classFormat (finish r).lastErr) :
    ∃ e, (finish r).ctx.fault = some e ∧ formatCode e = (finish r).lastErr := by
  cases h with
  | format e hfault => exact ⟨e, hfault hi, rfl⟩
  | stored e t hd hv hfault => exact ⟨e, hfault, rfl⟩
  | config e => exact absurd hc (not_classFormat_config e)
  | internal e => exact absurd hc (not_classFormat_internal e)
  | absence | quiet | append | context | created | result | reset => exact absurd hc not_classFormat_success

/-- Storing a format error is the one write of the context by a command that fails (R345). -/
theorem BodyAnswer.ctx_kept_of_failed {i : Instr} {s : State} {r : BodyResult} (h : BodyAnswer i (s.setAbsent false) r)
    (hf : ReportsFailure (finish r)) (hn : ¬ (isDecoderCommand i ∧ classFormat (finish r).lastErr)) :
    (finish r).ctx = s.ctx := by
  cases h with
  | config | internal | format | absence => rfl
  | stored e t hd => exact absurd ⟨hd, formatCode_class e⟩ hn
  | quiet | append | context | created | result | reset => exact absurd hf (not_reportsFailure_success rfl)

end Sys2Proof.Machine
end

section
/-! SUPPORT. The four checks of a PUT or EOS one by one (60_exceptions.md R344 item 2; 10_state.md R35, R36), after `runCommand_noContext`. -/

namespace Sys2Proof.Machine

/-- The PUT and EOS commands, each with the direction of the stream it works on. -/
def IsStreamCommand (d : Direction) (i : Instr) : Prop :=
  d = .encoder ∧ ((∃ b, i = .encPut b) ∨ i = .encEos) ∨ d = .decoder ∧ ((∃ c, i = .decPut c) ∨ i = .decEos)

/-- Each of them is the command cycle around a body behind the checks for its direction. -/
theorem exec_streamCommand {d : Direction} {i : Instr} (h : IsStreamCommand d i) :
    ∃ body, ∀ s, exec i s = .next (runCommand s (fun s => withContext d s body)) := by
  rcases h with ⟨rfl, ⟨b, rfl⟩ | rfl⟩ | ⟨rfl, ⟨c, rfl⟩ | rfl⟩ <;> exact ⟨_, fun _ => rfl⟩

section
variable {s : State} {d : Direction} (body : State → BodyResult)

theorem runCommand_wrongDirection (hv : s.ctx.valid = true) (hd : s.ctx.dir ≠ d) :
    runCommand s (fun s => withContext d s body) = raised s 0x16#8 := by
  have hcheck : withContext d (s.setAbsent false) body = .raise (.config .wrongDirection) (s.setAbsent false) := by
    simp [withContext, hv, hd]
  exact congrArg finish hcheck

/-- The stored fault is raised again, and the context keeps it. -/
theorem runCommand_faulted {e : FormatError} (hv : s.ctx.valid = true) (hd : s.ctx.dir = d)
    (hf : s.ctx.fault = some e) : runCommand s (fun s => withContext d s body) = raised s (formatCode e) := by
  have hcheck : withContext d (s.setAbsent false) body = .raise (.format e) (s.setAbsent false) := by
    simp [withContext, hv, hd, hf]
  exact congrArg finish hcheck

/-- After end of stream the command is a silent no-op (R35). -/
theorem runCommand_closed (hv : s.ctx.valid = true) (hd : s.ctx.dir = d) (hf : s.ctx.fault = none)
    (he : s.ctx.eosf = true) : runCommand s (fun s => withContext d s body) = quiet s := by
  have hcheck : withContext d (s.setAbsent false) body = .success (s.setAbsent false) := by
    simp [withContext, hv, hd, hf, he]
  exact congrArg finish hcheck

end

end Sys2Proof.Machine
end

section
/-! SUPPORT. The internal errors: where the checks raise them, and that no run from power-on does (60_exceptions.md R343). -/

namespace Sys2Proof.Machine

theorem exec_encEos_open {s : State} (ho : Open .encoder s) :
    exec .encEos s = .next (finish (encStream (s.setAbsent false) (encEosBody s.cfg s.ctx))) :=
  congrArg (Host.Outcome.next ∘ finish) (withContext_open (open_setAbsent ho false))

/-- A modulus out of range at end of stream (42_block_decoder.md R208). -/
theorem decEosBody_range {t : Context} (h : symbolsPerBlock t.prof ≤ t.mod) :
    decEosBody t = .error (.internal .modulusRange, t) := by simp only [decEosBody, if_pos h]

/-- `SymbolAt` has no symbol for a digit out of range, so neither has the sequence (40_alphabet.md R140). -/
theorem symbolsAt_range {cfg : Config} {p : Profile} {ds : List Nat} (h : ∃ d ∈ ds, radixOf p ≤ d) :
    symbolsAt cfg p ds = .error (.internal .symbolRange) := by
  obtain ⟨d, hd, hr⟩ := h
  cases hs : symbolsAt cfg p ds with
  | error e => rw [symbolsAt_error hs]
  | ok g =>
    have hmem : symbolAt cfg p d ∈ g.map some := symbolsAt_iff.1 hs ▸ List.mem_map_of_mem hd
    obtain ⟨c, -, hc⟩ := List.mem_map.1 hmem
    exact absurd (symbolAt_lt hc.symm) (Nat.not_lt.2 hr)

/-- The codes a run can report are of other classes than the internal errors (R340, R341). -/
theorem reported_ne_internalCode {c : BitVec 8} (h : Reported c) (k : InternalError) : c ≠ internalCode k := by
  rintro rfl
  have hk := internalCode_class k
  rcases h with h | ⟨e, h⟩ | ⟨e, h⟩ <;> rw [h] at hk
  · exact absurd hk (by decide)
  · rw [configCode_class] at hk; cases hk
  · rw [formatCode_class] at hk; cases hk

/-- A run of more than one step is a step and the run of the rest from there. -/
theorem run_succ_next {k : Nat} {s t : State} (h : Sys2Proof.core.run (k + 1) s = .next t) :
    ∃ u, step s = .next u ∧ Sys2Proof.core.run k u = .next t := by
  simp only [Host.Core.run] at h
  split at h
  next u hu => exact ⟨u, hu, h⟩
  next => cases h
  next => cases h

/-- What every step keeps holds after every run that gives a next state. -/
theorem run_keeps {P : State → Prop} (hstep : ∀ s t, P s → step s = .next t → P t) (k : Nat) {s t : State} (hs : P s)
    (h : Sys2Proof.core.run k s = .next t) : P t := by
  induction k generalizing s with
  | zero => cases h; exact hs
  | succ k ih =>
    obtain ⟨u, hu, hrest⟩ := run_succ_next h
    exact ih (hstep s u hs hu) hrest

/-- The invariant does not speak of the host's list. -/
theorem inv_withHost {s : State} (h : Inv s) (acts : List HostAction) : Inv { s with host := acts } := by
  obtain ⟨hctx, herr, habs, hinp⟩ := h
  exact ⟨hctx, herr, habs, hinp⟩

/-- Every run from power-on meets the invariant, whatever the host does. -/
theorem run_powerOn_inv {cfg : Config} {acts : List HostAction} {k : Nat} {t : State}
    (h : Sys2Proof.core.run k { State.powerOn cfg with host := acts } = .next t) : Inv t :=
  run_keeps (fun _ _ hi hs => step_keeps_inv hi hs) k (inv_withHost (powerOn_inv cfg) acts) h

end Sys2Proof.Machine
end

section
/-! CERTIFICATES. The statements about errors and what they leave, settled. -/

namespace Sys2Proof.Proofs

open Sys2Proof.Machine

/-- Settles O12, action by action: what a legal action asks is what its check asks, and every command completes. -/
theorem legalActionsComplete : Obligations.LegalActionsComplete := by
  intro s a rest hc hh hl
  rw [step_eq_perform hc hh]
  exact perform_completes (legalAction_withHost hl rest)

/-- Settles O15: a word is rejected, or its command's body raises a configuration error before it writes. -/
theorem configErrorsChangeNothing : Obligations.ConfigErrorsChangeNothing := by
  intro w s t h hc
  cases hd : decode w with
  | ok i =>
    obtain ⟨r, hr, he⟩ := exec_answer i s
    obtain rfl : finish r = t := by rw [issue_ok hd, he] at h; cases h; rfl
    exact hr.raised_of_classConfig hc
  | error e =>
    rw [issue_error hd] at h
    cases h
    rfl

/-- Settles O16, by the answers a command's body can give. -/
theorem errorsEmitNothing : Obligations.ErrorsEmitNothing := by
  intro i s t h hf
  obtain ⟨r, hr, he⟩ := exec_answer i s
  obtain rfl : finish r = t := by rw [he] at h; cases h; rfl
  obtain ⟨hout, hres, harg⟩ := hr.outputs_kept_of_failed hf
  obtain ⟨hinp, -⟩ := hr.environment_kept
  exact ⟨hout, hres, harg, hinp, fun ⟨hi, hc⟩ => hr.fault_of_classFormat hi hc, hr.ctx_kept_of_failed hf⟩

/-- Settles O18, check by check in their order. -/
theorem streamChecks : Obligations.StreamChecks := by
  intro s d i hi
  obtain ⟨body, hexec⟩ := exec_streamCommand hi
  rw [hexec]
  exact ⟨fun hv => congrArg _ (runCommand_noContext hv d body),
    fun hv hd => congrArg _ (runCommand_wrongDirection body hv hd),
    fun e hv hd hf => congrArg _ (runCommand_faulted body hv hd hf),
    fun hv hd hf he => congrArg _ (runCommand_closed body hv hd hf he)⟩

/-- Settles O56: the two checks raise their errors before anything is written, and the invariant, which power-on
meets and every step keeps, knows only codes of other classes. -/
theorem internalErrorsUnreachable : Obligations.InternalErrorsUnreachable := by
  refine ⟨fun s ho hm => ?enc, fun s ho hm => ?dec, fun _ _ _ hr => symbolsAt_range hr, fun s => ⟨rfl, rfl⟩,
    fun cfg acts k t h => ?run⟩
  case enc => rw [exec_encEos_open ho, encEosBody_range hm]; rfl
  case dec => rw [exec_decEos_open ho, decEosBody_range hm]; rfl
  case run =>
    have herr := (run_powerOn_inv h).err
    exact ⟨reported_ne_internalCode herr .modulusRange, reported_ne_internalCode herr .symbolRange⟩

end Sys2Proof.Proofs
end
